-- ==== Sys2Proof/Word.lean ====
section
/-! DEFINITION. The word types of the block. -/

namespace Sys2Proof

/-- A byte is 8 bits everywhere (20_memory.md R60). -/
abbrev Byte := BitVec 8

/-- Positions, lengths, offsets and counts are unsigned 32-bit (00_scope.md R6); so is `VAL` (R92). -/
abbrev Word := BitVec 32

/-- The value of the rolling hash: 22 bits (00_scope.md R5, 10_state.md R29). -/
abbrev HashValue := BitVec 22

/-- A command word: `OP[47:40] A[39:32] V[31:0]` (30_encoding.md R91). -/
abbrev CmdWord := BitVec 48

/-- A response word: `RC[39:32] VAL[31:0]` (30_encoding.md R92). -/
abbrev RspWord := BitVec 40

end Sys2Proof
end

