-- ==== Sys2Proof/Syntax.lean ====
section
/-! DEFINITION. The commands of the block, one constructor per row of spec/opcode_table.json
(30_encoding.md R94), and the three fields of a command word (R91). -/

namespace Sys2Proof

/-- The 20 commands with the operands their rows name. A field a row marks `-` has no argument: it must be
0 in the word. Operands are used as they stand (30_encoding.md R95). -/
inductive Instr where
  /-- `SYS.NOP` (43_system.md R260). -/
  | sysNop
  /-- `SYS.RESET` (43_system.md R261). -/
  | sysReset
  /-- `SYS.STATUS` (43_system.md R262). -/
  | sysStatus
  /-- `BC.ALLOC len` (40_bitcursor.md R131). -/
  | bcAlloc (len : Word)
  /-- `BC.SEEK bitOffset` (40_bitcursor.md R132). -/
  | bcSeek (bitOffset : Word)
  /-- `BC.READBITS n` (40_bitcursor.md R135). -/
  | bcReadBits (n : Byte)
  /-- `BC.WRITEBITS n, value` (40_bitcursor.md R136). -/
  | bcWriteBits (n : Byte) (value : Word)
  /-- `BC.READBYTE` (40_bitcursor.md R137). -/
  | bcReadByte
  /-- `BC.WRITEBYTE value` (40_bitcursor.md R138). -/
  | bcWriteByte (value : Word)
  /-- `MF.CLEAR` (41_matchfinder.md R162). -/
  | mfClear
  /-- `MF.PUT byte` (41_matchfinder.md R163). -/
  | mfPut (byte : Byte)
  /-- `MF.START` (41_matchfinder.md R161). -/
  | mfStart
  /-- `MF.CANCEL` (41_matchfinder.md R185). -/
  | mfCancel
  /-- `MF.INFO sel` (41_matchfinder.md R187). -/
  | mfInfo (sel : Byte)
  /-- `MF.GET addr` (41_matchfinder.md R188). -/
  | mfGet (addr : Word)
  /-- `TC.INIT mode` (42_tokencodec.md R221). -/
  | tcInit (mode : Byte)
  /-- `TC.NEXT` (42_tokencodec.md R225). -/
  | tcNext
  /-- `TC.PACKET k` (42_tokencodec.md R240). -/
  | tcPacket (k : Byte)
  /-- `TC.RELEASE` (42_tokencodec.md R242). -/
  | tcRelease
  /-- `TC.RDPKT i` (42_tokencodec.md R243). -/
  | tcRdPkt (i : Byte)
  deriving DecidableEq, Repr

/-- The three fields of a command word, format `CMD` (30_encoding.md R91). -/
structure Cmd where
  /-- `OP`, bits [47:40]. -/
  op : Byte
  /-- `A`, bits [39:32]. -/
  a : Byte
  /-- `V`, bits [31:0]. -/
  v : Word
  deriving DecidableEq, Repr

end Sys2Proof
end

