-- ==== Sys2Proof/WellFormed.lean ====
section
/-! DEFINITION. What is legal: a command word's fields (30_encoding.md R94, R96), and the operand ranges
the command rules state in their "Operands" paragraphs. -/

namespace Sys2Proof

/-- What a row of 30_encoding.md R94 says of a field. -/
inductive FieldUse where
  /-- `-`: the field is unused and must be 0. -/
  | unused
  /-- "any": every value of the field decodes to this command. -/
  | any
  deriving DecidableEq, Repr

/-- One row of the table of 30_encoding.md R94. -/
structure OpcodeRow where
  op : Byte
  mnemonic : String
  a : FieldUse
  v : FieldUse
  deriving DecidableEq, Repr

/-- The opcode map, row for row as 30_encoding.md R94 prints it. -/
def opcodeRows : List OpcodeRow :=
  [ ⟨0x00, "SYS.NOP", .unused, .unused⟩,
    ⟨0x01, "SYS.RESET", .unused, .unused⟩,
    ⟨0x02, "SYS.STATUS", .unused, .unused⟩,
    ⟨0x10, "BC.ALLOC", .unused, .any⟩,
    ⟨0x11, "BC.SEEK", .unused, .any⟩,
    ⟨0x12, "BC.READBITS", .any, .unused⟩,
    ⟨0x13, "BC.WRITEBITS", .any, .any⟩,
    ⟨0x14, "BC.READBYTE", .unused, .unused⟩,
    ⟨0x15, "BC.WRITEBYTE", .unused, .any⟩,
    ⟨0x20, "MF.CLEAR", .unused, .unused⟩,
    ⟨0x21, "MF.PUT", .any, .unused⟩,
    ⟨0x22, "MF.START", .unused, .unused⟩,
    ⟨0x23, "MF.CANCEL", .unused, .unused⟩,
    ⟨0x24, "MF.INFO", .any, .unused⟩,
    ⟨0x25, "MF.GET", .unused, .any⟩,
    ⟨0x30, "TC.INIT", .any, .unused⟩,
    ⟨0x31, "TC.NEXT", .unused, .unused⟩,
    ⟨0x32, "TC.PACKET", .any, .unused⟩,
    ⟨0x33, "TC.RELEASE", .unused, .unused⟩,
    ⟨0x34, "TC.RDPKT", .any, .unused⟩ ]

/-- A field of `w` bits obeys its row: an unused field is 0. -/
def FieldUse.admits {w : Nat} : FieldUse → BitVec w → Bool
  | .unused, x => x == 0
  | .any, _ => true

/-- The word is legal (30_encoding.md R96): its `OP` is one of the 20 and every field marked `-` is 0.
Written from the table, apart from the decoder. -/
def Cmd.legal (c : Cmd) : Bool :=
  opcodeRows.any (fun r => r.op == c.op && r.a.admits c.a && r.v.admits c.v)

/-- The operand is in the range its rule's "Operands" paragraph states by a constant (40_bitcursor.md R135,
R136; 41_matchfinder.md R187; 42_tokencodec.md R221, R240, R243). An instruction outside it decodes all the
same (30_encoding.md R94, "any") and raises a fault of its own when it executes. -/
def Instr.wellFormed : Instr → Bool
  | .sysNop => true
  | .sysReset => true
  | .sysStatus => true
  | .bcAlloc _ => true
  | .bcSeek _ => true
  | .bcReadBits n => 1 ≤ n.toNat && n.toNat ≤ 32
  | .bcWriteBits n _ => 1 ≤ n.toNat && n.toNat ≤ 32
  | .bcReadByte => true
  | .bcWriteByte _ => true
  | .mfClear => true
  | .mfPut _ => true
  | .mfStart => true
  | .mfCancel => true
  | .mfInfo sel => sel.toNat ≤ 6
  | .mfGet _ => true
  | .tcInit mode => mode.toNat ≤ 1
  | .tcNext => true
  | .tcPacket k => 1 ≤ k.toNat && k.toNat ≤ 6
  | .tcRelease => true
  | .tcRdPkt i => i.toNat ≤ 7

end Sys2Proof
end

