-- ==== Sys2Proof/Decode.lean ====
section
/-! DEFINITION. Decoding and encoding of command words (30_encoding.md R91, R94 to R97). Decoding is total
on every 48-bit word and depends on no state (R97). -/

namespace Sys2Proof

/-- Why a word is illegal (30_encoding.md R96). -/
inductive DecodeError where
  /-- `OP` is not one of the 20 assigned opcodes. -/
  | unassignedOpcode
  /-- `A` is marked `-` for the command and is not 0. -/
  | nonzeroA
  /-- `V` is marked `-` for the command and is not 0. -/
  | nonzeroV
  deriving DecidableEq, Repr

/-- The fields of a command word: `OP[47:40] A[39:32] V[31:0]` (30_encoding.md R91). -/
def Cmd.ofWord (w : CmdWord) : Cmd where
  op := w.extractLsb' 40 8
  a := w.extractLsb' 32 8
  v := w.extractLsb' 0 32

/-- The command word of three fields (30_encoding.md R91). -/
def Cmd.toWord (c : Cmd) : CmdWord := c.op ++ c.a ++ c.v

/-- A command with both fields unused. -/
def decodeNone (c : Cmd) (i : Instr) : Except DecodeError Instr :=
  if c.a ≠ 0 then .error .nonzeroA else if c.v ≠ 0 then .error .nonzeroV else .ok i

/-- A command that uses `A` only. -/
def decodeA (c : Cmd) (f : Byte → Instr) : Except DecodeError Instr :=
  if c.v ≠ 0 then .error .nonzeroV else .ok (f c.a)

/-- A command that uses `V` only. -/
def decodeV (c : Cmd) (f : Word → Instr) : Except DecodeError Instr :=
  if c.a ≠ 0 then .error .nonzeroA else .ok (f c.v)

/-- The opcode map of 30_encoding.md R94 on the three fields. -/
def Cmd.decode (c : Cmd) : Except DecodeError Instr :=
  match c.op.toNat with
  | 0x00 => decodeNone c .sysNop
  | 0x01 => decodeNone c .sysReset
  | 0x02 => decodeNone c .sysStatus
  | 0x10 => decodeV c .bcAlloc
  | 0x11 => decodeV c .bcSeek
  | 0x12 => decodeA c .bcReadBits
  | 0x13 => .ok (.bcWriteBits c.a c.v)
  | 0x14 => decodeNone c .bcReadByte
  | 0x15 => decodeV c .bcWriteByte
  | 0x20 => decodeNone c .mfClear
  | 0x21 => decodeA c .mfPut
  | 0x22 => decodeNone c .mfStart
  | 0x23 => decodeNone c .mfCancel
  | 0x24 => decodeA c .mfInfo
  | 0x25 => decodeV c .mfGet
  | 0x30 => decodeA c .tcInit
  | 0x31 => decodeNone c .tcNext
  | 0x32 => decodeA c .tcPacket
  | 0x33 => decodeNone c .tcRelease
  | 0x34 => decodeA c .tcRdPkt
  | _ => .error .unassignedOpcode

/-- Decoding of a command word. A word it refuses is an illegal command word (30_encoding.md R96). -/
def decode (w : CmdWord) : Except DecodeError Instr := (Cmd.ofWord w).decode

/-- The fields of an instruction, from the rows of 30_encoding.md R94. -/
def Instr.toCmd : Instr → Cmd
  | .sysNop => ⟨0x00, 0, 0⟩
  | .sysReset => ⟨0x01, 0, 0⟩
  | .sysStatus => ⟨0x02, 0, 0⟩
  | .bcAlloc len => ⟨0x10, 0, len⟩
  | .bcSeek bitOffset => ⟨0x11, 0, bitOffset⟩
  | .bcReadBits n => ⟨0x12, n, 0⟩
  | .bcWriteBits n value => ⟨0x13, n, value⟩
  | .bcReadByte => ⟨0x14, 0, 0⟩
  | .bcWriteByte value => ⟨0x15, 0, value⟩
  | .mfClear => ⟨0x20, 0, 0⟩
  | .mfPut byte => ⟨0x21, byte, 0⟩
  | .mfStart => ⟨0x22, 0, 0⟩
  | .mfCancel => ⟨0x23, 0, 0⟩
  | .mfInfo sel => ⟨0x24, sel, 0⟩
  | .mfGet addr => ⟨0x25, 0, addr⟩
  | .tcInit mode => ⟨0x30, mode, 0⟩
  | .tcNext => ⟨0x31, 0, 0⟩
  | .tcPacket k => ⟨0x32, k, 0⟩
  | .tcRelease => ⟨0x33, 0, 0⟩
  | .tcRdPkt i => ⟨0x34, i, 0⟩

/-- The command word of an instruction. -/
def encode (i : Instr) : CmdWord := i.toCmd.toWord

/-- The instruction in a table word: the number is the 48-bit command word itself, bit 0 the least
significant bit of `V` (spec/opcode_table.json's match and mask; log 9). Bits above `nbits` are 0. -/
def decodeTableWord (nbits w : Nat) : Option Instr :=
  if nbits ≤ 48 then (decode (BitVec.ofNat 48 (w % 2 ^ nbits))).toOption else none

end Sys2Proof
end

