-- ==== Sys2Proof/Config.lean ====
section
/-! DEFINITION. The parameters of one instance of the block (00_scope.md R6 to R8), and the one free
value of the model. The parameters are fixed for the life of the machine (70_reset_and_hazards.md R322). -/

namespace Sys2Proof

/-- `CTRL_BIT_ORDER` (00_scope.md R7, 30_encoding.md R104). -/
inductive CtrlBitOrder where
  /-- Slot k of a group is bit 7 - k of the control byte (the spec's default). -/
  | msbFirst
  /-- Slot k of a group is bit k of the control byte. -/
  | lsbFirst
  deriving DecidableEq, Repr

/-- The named parameters of 00_scope.md R6 (capacities), R7 (format) and R8 (tables). `A5_SIZE` is the
length of `alpha5`, stored once. -/
structure Config where
  /-- `IN_CAP`, the capacity of `MF.IN` in bytes. -/
  inCap : Nat
  /-- `OUT_CAP`, the capacity of `MF.OUT` in bytes. -/
  outCap : Nat
  /-- `BUF_CAP`, the capacity of `BC.BUF` in bytes. -/
  bufCap : Nat
  /-- `CTRL_BIT_ORDER`. -/
  ctrlBitOrder : CtrlBitOrder
  /-- `FLUSH_EMPTY_GROUP`. -/
  flushEmptyGroup : Bool
  /-- `SYM6[0..63]`, the table of the fixed 6-bit policy. -/
  sym6 : List Byte
  /-- `ALPHA5[0..A5_SIZE-1]`, the anti-repeat alphabet in its fixed order. -/
  alpha5 : List Byte
  /-- `PKT_MODIFIER`. -/
  pktModifier : Byte
  deriving DecidableEq, Repr

/-- `A5_SIZE`, the number of symbols of the anti-repeat alphabet (00_scope.md R8). -/
def Config.a5Size (c : Config) : Nat := c.alpha5.length

/-- The constraints the spec puts on the parameters: the capacities of 00_scope.md R6, the 64 entries of
`SYM6` (R8), and `A5_SIZE` at most 64, since an index of `ALPHA5` is 6 bits (10_state.md R45; DEDUCED, log 4). -/
abbrev Config.wf (c : Config) : Prop :=
  (1 ≤ c.inCap ∧ c.inCap ≤ 4294967295) ∧ (1 ≤ c.outCap ∧ c.outCap ≤ 4294967295) ∧
    (1 ≤ c.bufCap ∧ c.bufCap ≤ 536870911) ∧ c.sym6.length = 64 ∧ c.alpha5.length ≤ 64

/-- The instance `State.reset` describes: the spec's defaults (00_scope.md R7, R8), the example tables of
95_test_vectors.md section 0, and capacities so large that no overflow fault can occur (R6).
DESIGN CHOICE, unsafe for a claim about `State.reset` alone (log 4): the capacities and the tables are OPEN
in the spec, and every other statement holds for every configuration. -/
def Config.example : Config where
  inCap := 2147483648
  outCap := 4294967295
  bufCap := 536870911
  ctrlBitOrder := .msbFirst
  flushEmptyGroup := true
  sym6 := (List.range 64).map (fun v => BitVec.ofNat 8 (64 + v))
  alpha5 := (List.range 45).map (fun i => BitVec.ofNat 8 (128 + i))
  pktModifier := 0

/-- The free value of the interleaving (20_memory.md R75, "The interleaving of engine steps with host
commands is not fixed"): whether the engine takes the contended turn with this number. Nothing is known of
it (log 2). -/
opaque Config.freeTurn : Nat → Bool

end Sys2Proof
end

