-- ==== Sys2Proof/Machine/State.lean ====
section
/-! DEFINITION. The state of the block as 10_state.md names it, unit by unit, with its reset values (R52),
and the types of what can stop a step. -/

namespace Sys2Proof.Machine

/-- A byte memory: the cells that do not read 0, addresses strictly rising (`Memory.wf`). The memories
`BC.BUF`, `MF.IN`, `MF.STAGE` and `MF.OUT` are separate address spaces from 0 (20_memory.md R60). -/
abbrev Memory := List Host.Cell

/-- `MF.TABLE` (10_state.md R30): the buckets that are not empty, hash values strictly rising
(`Table.wf`). A bucket is a sequence of positions, most recent first (log 6). -/
abbrev Table := List (Nat × List Nat)

/-- `MF_STATE` (10_state.md R40). The values 5 to 7 never occur. -/
inductive MfState where
  /-- No compression started since reset or `MF.CLEAR`. -/
  | idle
  /-- A compression is in progress; the engine takes steps. -/
  | running
  /-- The compression ran to the end of the input. -/
  | done
  /-- `MF.START` found N = 0. -/
  | noData
  /-- The compression was cancelled. -/
  | aborted
  deriving DecidableEq, Repr

/-- `TC.MODE` (10_state.md R42). -/
inductive TcMode where
  /-- 0, the fixed 6-bit policy. -/
  | fixed6
  /-- 1, the anti-repeat 5-bit policy. -/
  | antirep5
  deriving DecidableEq, Repr

/-- The causes of the block's own faults (60_exceptions.md R280). A fault of the block is a state it enters
(R281), not a stop of the model. -/
inductive Cause where
  | illegalCmd
  | bcAllocRange
  | bcSeekRange
  | bcBadWidth
  | bcWritePastEnd
  | bcPosOverflow
  | mfInOverflow
  | mfOutOverflow
  | mfAddrRange
  | mfBadSelector
  | mfBadState
  | tcTokenRange
  | tcBadCount
  | tcBadMode
  | tcBadIndex
  deriving DecidableEq, Repr

/-- The bit cursor (10_state.md R24 to R26). -/
structure BC where
  /-- `BC.BUF`. -/
  buf : Memory
  /-- `BC.LEN`, in bytes. -/
  len : Word
  /-- `BC.POS`, in bits. -/
  pos : Word
  deriving DecidableEq, Repr

/-- The matcher and emitter (10_state.md R27 to R41). -/
structure MF where
  /-- `MF.IN`. -/
  inp : Memory
  /-- `MF.N`, the number of input bytes. -/
  n : Word
  /-- `MF.P`, the position of the next decision. -/
  p : Word
  /-- `MF.H`, the rolling hash. -/
  h : HashValue
  /-- `MF.TABLE`. -/
  table : Table
  /-- `MF.EVQ`, oldest first. -/
  evq : List Nat
  /-- `MF.CTRL`, the control byte of the open group. -/
  ctrl : Byte
  /-- `MF.FILL`, the decisions recorded in the open group. -/
  fill : BitVec 4
  /-- `MF.STAGE`, the payload bytes of the open group. -/
  stage : Memory
  /-- `MF.SLEN`, the number of staged bytes. -/
  slen : BitVec 5
  /-- `MF.OUT`. -/
  out : Memory
  /-- `MF.OLEN`, the number of output bytes. -/
  olen : Word
  /-- `MF.TOKENS`, the decisions emitted since `MF.START`. -/
  tokens : Word
  /-- `MF_STATE`. -/
  st : MfState
  /-- `MF.CANCEL_REQ`. -/
  cancelReq : Bool
  deriving DecidableEq, Repr

/-- The token encoder (10_state.md R42, R44 to R46). -/
structure TC where
  /-- `TC.MODE`. -/
  mode : TcMode
  /-- `TC.USABLE[0..A5_SIZE-1]`, true for 1. -/
  usable : List Bool
  /-- `TC.ARQ`, oldest first. -/
  arq : List Nat
  /-- `TC.PKT[0..7]`. -/
  pkt : List Byte
  deriving DecidableEq, Repr

/-- The fault state (10_state.md R47). -/
structure SYS where
  /-- `SYS.FAULTED`. -/
  faulted : Bool
  /-- `SYS.FAULT_CODE`. -/
  faultCode : Byte
  deriving DecidableEq, Repr

/-- One event of an execution (20_memory.md R75), or the hardware reset input (70_reset_and_hazards.md
R320). -/
inductive Event where
  /-- The host's turn: its next command executes. -/
  | hostCommand
  /-- The engine's turn: one `STEP`. -/
  | engineStep
  /-- The hardware reset input is pulsed. -/
  | hardReset
  deriving DecidableEq, Repr

/-- The model's own fields: the host agent at the command port (30_encoding.md R90) and the interleaving
(20_memory.md R75). No part of the block (log 1, 2). -/
structure Port where
  /-- The command words the host has still to send, in order. -/
  pending : List CmdWord
  /-- The response words the host has got, the latest first. -/
  responses : List RspWord
  /-- The events to come, as far as they are fixed. -/
  schedule : List Event
  /-- The number of the next contended turn that the schedule does not fix. -/
  turn : Nat
  deriving DecidableEq, Repr

/-- The machine: the configuration, which nothing changes, the four units of the block (10_state.md R20) and
the port. -/
structure State where
  cfg : Config
  bc : BC
  mf : MF
  tc : TC
  sys : SYS
  port : Port
  deriving DecidableEq, Repr

/-- What stops the model. The block's own faults are not here: they are states it enters. -/
inductive Fault where
  /-- Raised by the engine's turn (`State.engineTurn`) in a state the spec excludes: `RUNNING` with P ≥ N
  (41_matchfinder.md R181, "In `RUNNING`, P < N always holds at the start of a step"), FILL > 7 (R176, R177)
  or SLEN > 3 * FILL (10_state.md R34, slots of at most 3 bytes), where the next slot could lie outside the
  24 bytes of `MF.STAGE`. The spec gives the step no effect there. Safe: the model stops (log 8). -/
  | engineOutsideRun
  deriving DecidableEq, Repr

/-- Why an instruction has no meaning. -/
inductive Refusal where
  /-- Raised by `exec`'s arm of an instruction that has no meaning yet. Safe. No arm uses it. -/
  | notModelled (mnemonic : String)
  deriving DecidableEq, Repr

/-- Reset values of `BC` (10_state.md R52). Contents of `BUF` unspecified: nothing listed (log 5). -/
def BC.reset : BC where
  buf := []
  len := 0
  pos := 0

/-- Reset values of `MF` (10_state.md R52). Contents of `IN`, `STAGE`, `OUT` unspecified: nothing listed
(log 5). -/
def MF.reset : MF where
  inp := []
  n := 0
  p := 0
  h := 0
  table := []
  evq := []
  ctrl := 0
  fill := 0
  stage := []
  slen := 0
  out := []
  olen := 0
  tokens := 0
  st := .idle
  cancelReq := false

/-- Reset values of `TC` (10_state.md R52). -/
def TC.reset (cfg : Config) : TC where
  mode := .fixed6
  usable := List.replicate cfg.a5Size true
  arq := []
  pkt := List.replicate 8 0

/-- Reset values of `SYS` (10_state.md R52). -/
def SYS.reset : SYS where
  faulted := false
  faultCode := 0

/-- The host has sent nothing and nothing is fixed of the interleaving (DESIGN CHOICE, log 1, 2). -/
def Port.reset : Port where
  pending := []
  responses := []
  schedule := []
  turn := 0

/-- The block after reset, for any configuration (10_state.md R52, 70_reset_and_hazards.md R320). -/
def State.resetWith (cfg : Config) : State where
  cfg := cfg
  bc := BC.reset
  mf := MF.reset
  tc := TC.reset cfg
  sys := SYS.reset
  port := Port.reset

/-- The machine right after reset, for the configuration of log 4. -/
def State.reset : State := State.resetWith Config.example

end Sys2Proof.Machine
end

