-- ==== Sys2Proof/Machine/Constants.lean ====
section
/-! DEFINITION. The constants the source fixes (00_scope.md R5) and the codes of the response word
(30_encoding.md R93). -/

namespace Sys2Proof.Machine

/-- `MIN_MATCH`. -/
abbrev minMatch : Nat := 3
/-- `MAX_LEN`. -/
abbrev maxLen : Nat := 258
/-- `MAX_DIST`. -/
abbrev maxDist : Nat := 65535
/-- `HASH_SHIFT`. -/
abbrev hashShift : Nat := 8
/-- `TRACK_MAX`. -/
abbrev trackMax : Nat := 65538
/-- `SLOTS_PER_GROUP`. -/
abbrev slotsPerGroup : Nat := 8
/-- `LIT_MAX`. -/
abbrev litMax : Nat := 3
/-- `BITS_MAX`. -/
abbrev bitsMax : Nat := 32
/-- `W6`. -/
abbrev w6 : Nat := 6
/-- `W5`. -/
abbrev w5 : Nat := 5
/-- `AR_DEPTH`. -/
abbrev arDepth : Nat := 12
/-- `PKT_SYMS`. -/
abbrev pktSyms : Nat := 6
/-- `PKT_BYTES`. -/
abbrev pktBytes : Nat := 8
/-- `PKT_TYPE_STREAM`. -/
abbrev pktTypeStream : Byte := 0xFF
/-- `PKT_TYPE_SINGLE`. No command builds a packet of this type (30_encoding.md R118). -/
abbrev pktTypeSingle : Byte := 0x00
/-- The greatest value of a 32-bit register, 2^32 - 1 (40_bitcursor.md R133). -/
abbrev wordMax : Nat := 4294967295

/-- Response code `OK` (30_encoding.md R93). -/
abbrev rcOk : Byte := 0x00
/-- Response code `BUSY`, a refusal (30_encoding.md R93). -/
abbrev rcBusy : Byte := 0x01
/-- Response code `FAULTED`, a refusal (30_encoding.md R93). -/
abbrev rcFaulted : Byte := 0x02

/-- The fault codes (30_encoding.md R93, 60_exceptions.md R280). -/
def Cause.code : Cause → Byte
  | .illegalCmd => 0x10
  | .bcAllocRange => 0x11
  | .bcSeekRange => 0x12
  | .bcBadWidth => 0x13
  | .bcWritePastEnd => 0x14
  | .bcPosOverflow => 0x15
  | .mfInOverflow => 0x20
  | .mfOutOverflow => 0x21
  | .mfAddrRange => 0x22
  | .mfBadSelector => 0x23
  | .mfBadState => 0x24
  | .tcTokenRange => 0x30
  | .tcBadCount => 0x31
  | .tcBadMode => 0x32
  | .tcBadIndex => 0x33

/-- The 3-bit value of `MF_STATE` (10_state.md R40). -/
def MfState.code : MfState → BitVec 3
  | .idle => 0
  | .running => 1
  | .done => 2
  | .noData => 3
  | .aborted => 4

/-- The 1-bit value of `TC.MODE` (10_state.md R42). -/
def TcMode.code : TcMode → BitVec 1
  | .fixed6 => 0
  | .antirep5 => 1

end Sys2Proof.Machine
end

