-- ==== Sys2Proof/Machine/Ops.lean ====
section
/-! DEFINITION. The named operations over the memories and the table, the response to a command, entering
the fault state, leaving it, and the choice of the next event. -/

namespace Sys2Proof.Machine

/-! ### Sparse cells: one value per key, in one canonical form -/

/-- The value at key `a`; a key that is not listed has the value `d`. -/
def cellGet {α : Type} (d : α) : List (Nat × α) → Nat → α
  | [], _ => d
  | (k, v) :: cs, a => if k = a then v else cellGet d cs a

/-- Put `x` at key `a`; putting `d` removes the entry, so that equal contents are equal lists. -/
def cellSet {α : Type} [DecidableEq α] (d : α) : List (Nat × α) → Nat → α → List (Nat × α)
  | [], a, x => if x = d then [] else [(a, x)]
  | (k, v) :: cs, a, x =>
    if k < a then (k, v) :: cellSet d cs a x
    else if k = a then (if x = d then cs else (a, x) :: cs)
    else if x = d then (k, v) :: cs else (a, x) :: (k, v) :: cs

/-- The canonical form: keys strictly rising, and no entry equal to what an unlisted key has. -/
abbrev cellsWf {α : Type} (d : α) (cs : List (Nat × α)) : Prop :=
  cs.Pairwise (fun x y => x.1 < y.1) ∧ ∀ c ∈ cs, c.2 ≠ d

/-! ### Byte memories -/

/-- What a byte that no rule has written reads as: 0 (DESIGN CHOICE, log 5; 70_reset_and_hazards.md R320
"A model may therefore take any contents, all zeros included, without a visible difference"). -/
abbrev Memory.blank : Byte := 0

/-- `MemRead(M, a, 1)` (00_scope.md R14). -/
def Memory.read (m : Memory) (a : Nat) : Byte := cellGet Memory.blank m a

/-- `MemWrite(M, a, 1, v)` (00_scope.md R14). -/
def Memory.write (m : Memory) (a : Nat) (v : Byte) : Memory := cellSet Memory.blank m a v

/-- The canonical form of a memory. -/
abbrev Memory.wf (m : Memory) : Prop := cellsWf Memory.blank m

/-- Consecutive bytes written from address `a` up. -/
def Memory.writeBytes : Memory → Nat → List Byte → Memory
  | m, _, [] => m
  | m, a, b :: bs => Memory.writeBytes (m.write a b) (a + 1) bs

/-- `M[a..a+n)` as a sequence. -/
def Memory.bytes (m : Memory) (a n : Nat) : List Byte := (List.range n).map (fun j => m.read (a + j))

/-- `M[0..n)` becomes zeros; the bytes from `n` up are not touched (40_bitcursor.md R131). -/
def Memory.zeroFill (m : Memory) (n : Nat) : Memory := m.filter (fun c => n ≤ c.1)

/-! ### The bucket table -/

/-- `TABLE[h]`; a bucket that is not listed is empty (10_state.md R30). -/
def Table.bucket (t : Table) (h : Nat) : List Nat := cellGet [] t h

/-- `TABLE[h] <- ps`. -/
def Table.put (t : Table) (h : Nat) (ps : List Nat) : Table := cellSet [] t h ps

/-- The canonical form of the table. -/
abbrev Table.wf (t : Table) : Prop := cellsWf [] t

/-! ### Responses -/

/-- The response word `RC[39:32] VAL[31:0]` (30_encoding.md R92). -/
def rspWord (rc : Byte) (val : Word) : RspWord := rc ++ val

/-- Return a response to the host (30_encoding.md R90). -/
def State.respond (s : State) (rc : Byte) (val : Word) : State :=
  { s with port := { s.port with responses := rspWord rc val :: s.port.responses } }

/-! ### Faults -/

/-- Entry into the fault state (60_exceptions.md R281): `FAULTED <- 1`, `FAULT_CODE <- F`, nothing else is
saved or changed. Every other effect of the command or step is discarded because it is applied to the state
before it. -/
def State.enterFault (s : State) (c : Cause) : State :=
  { s with sys := { faulted := true, faultCode := c.code } }

/-- A fault raised by a command: the fault state is entered and the response is `RC = F`, `VAL = 0`
(60_exceptions.md R281). -/
def State.raiseFault (s : State) (c : Cause) : State := (s.enterFault c).respond c.code 0

/-- Reset, by the hardware input or by `SYS.RESET` (70_reset_and_hazards.md R320, 43_system.md R261), the
only way out of the fault state (60_exceptions.md R283). The configuration stays (R322) and so does the host
(log 3). -/
def State.resetBlock (s : State) : State :=
  { s with bc := BC.reset, mf := MF.reset, tc := TC.reset s.cfg, sys := SYS.reset }

/-! ### The outcome of a command -/

/-- What a command comes to, before its response is returned. -/
inductive Reply where
  /-- It executed: the state after it, and `VAL`. -/
  | done (s : State) (val : Word)
  /-- It is refused with `BUSY` and changes nothing (60_exceptions.md R285). -/
  | busy
  /-- It raises a fault and has no other effect (60_exceptions.md R281). -/
  | raise (c : Cause)

/-- The state after a command and its response (30_encoding.md R92, R93). -/
def State.answer (s : State) : Reply → State
  | .done t val => t.respond rcOk val
  | .busy => s.respond rcBusy 0
  | .raise c => s.raiseFault c

/-- Check 1 of 60_exceptions.md R288, for every command but the three system commands: in the fault state it
is answered `FAULTED` and changes nothing (R282). -/
def State.serve (s : State) (r : Reply) : State :=
  if s.sys.faulted then s.respond rcFaulted 0 else s.answer r

/-- Check 3 of 60_exceptions.md R288, for `MF.START`, `MF.CLEAR`, `MF.PUT` and `MF.GET` (R285). -/
def State.unlessRunning (s : State) (r : Reply) : Reply :=
  if s.mf.st = .running then .busy else r

/-- An illegal command word (30_encoding.md R96): `FAULTED` in the fault state, else the fault
`ILLEGAL_CMD`. -/
def State.illegalWord (s : State) : State := s.serve (.raise .illegalCmd)

/-! ### The next event -/

/-- The engine takes a step only when `MF_STATE = RUNNING` and `FAULTED = 0` (60_exceptions.md R284). -/
def State.engineEnabled (s : State) : Bool := s.mf.st = .running && !s.sys.faulted

/-- What a step of the machine does. -/
inductive Action where
  /-- Nothing: the host has nothing to send and the engine does not run. -/
  | idle
  /-- The hardware reset input is pulsed. -/
  | reset
  /-- The engine takes a step. -/
  | engine
  /-- The host's command word executes. -/
  | command (w : CmdWord)
  deriving DecidableEq, Repr

/-- The host's turn: its next command word, taken off what it has still to send. -/
def State.hostAction (s : State) : Action × State :=
  match s.port.pending with
  | [] => (.idle, s)
  | w :: ws => (.command w, { s with port := { s.port with pending := ws } })

/-- The engine's turn; a disabled engine leaves it to the host. -/
def State.engineAction (s : State) : Action × State :=
  if s.engineEnabled then (.engine, s) else s.hostAction

/-- The event that comes next (20_memory.md R75; log 2). The schedule's events first; a turn given to an agent
that has nothing to do goes to the other one. Beyond the schedule, only a turn that both agents want is open,
and there the choice is the free value. -/
def State.nextAction (s : State) : Action × State :=
  match s.port.schedule with
  | .hardReset :: es => (.reset, { s with port := { s.port with schedule := es } })
  | .hostCommand :: es =>
    let s1 := { s with port := { s.port with schedule := es } }
    if s.port.pending = [] then s1.engineAction else s1.hostAction
  | .engineStep :: es => State.engineAction { s with port := { s.port with schedule := es } }
  | [] =>
    if s.engineEnabled && !s.port.pending.isEmpty then
      let s1 := { s with port := { s.port with turn := s.port.turn + 1 } }
      if Config.freeTurn s.port.turn then s1.engineAction else s1.hostAction
    else s.engineAction

end Sys2Proof.Machine
end

