-- ==== Sys2Proof/Machine/Operands.lean ====
section
/-! DEFINITION. The operand forms: bits of the buffer through the cursor (40_bitcursor.md R133 to R136), the
only addressing mode with a post-modification (43_system.md R265). The other operands, `A` and `V`, are used as
they stand (30_encoding.md R95). -/

namespace Sys2Proof.Machine

/-- `BIT(k)` (40_bitcursor.md R134): bit `7 - (k mod 8)` of byte `k div 8`, and 0 from `8 * LEN` up. -/
def BC.bit (b : BC) (k : Nat) : Bool :=
  if k < 8 * b.len.toNat then (b.buf.read (k / 8)).getLsbD (7 - k % 8) else false

/-- The loop of 40_bitcursor.md R135, `v <- (v << 1) or BIT(k)`, for `n` bits from bit index `k`. -/
def BC.gather (b : BC) : Nat → Nat → Nat → Nat
  | _, 0, v => v
  | k, n + 1, v => b.gather (k + 1) n (2 * v + (b.bit k).toNat)

/-- The value of the `n` bits from bit index `k`, first bit most significant (20_memory.md R65). -/
def BC.bitsAt (b : BC) (k n : Nat) : Nat := b.gather k n 0

/-- One bit of a buffer written by read-modify-write of its byte (40_bitcursor.md R136). -/
def Memory.writeBit (m : Memory) (k : Nat) (bit : Bool) : Memory :=
  let mask : Byte := 1#8 <<< (7 - k % 8)
  m.write (k / 8) ((m.read (k / 8) &&& (0xFF#8 ^^^ mask)) ||| (if bit then mask else 0))

/-- The loop of 40_bitcursor.md R136: the low `n` bits of `value` go to the bit indices from `k` up, bit
`n - 1` first. -/
def Memory.scatter (value : Word) : Memory → Nat → Nat → Memory
  | m, _, 0 => m
  | m, k, n + 1 => Memory.scatter value (m.writeBit k (value.getLsbD n)) (k + 1) n

/-- The width and overflow checks of 40_bitcursor.md R133, in their order. -/
def BC.check (b : BC) (n : Nat) : Option Cause :=
  if n = 0 ∨ bitsMax < n then some .bcBadWidth
  else if wordMax < b.pos.toNat + n then some .bcPosOverflow
  else none

/-- `POS <- POS + n`. -/
def BC.advance (b : BC) (n : Nat) : BC := { b with pos := b.pos + BitVec.ofNat 32 n }

/-- A read of `n` bits at the cursor (40_bitcursor.md R135): the value read and the cursor after it. -/
def BC.readBits (b : BC) (n : Nat) : Except Cause (Nat × BC) :=
  match b.check n with
  | some c => .error c
  | none => .ok (b.bitsAt b.pos.toNat n, b.advance n)

/-- A write of the low `n` bits of `value` at the cursor (40_bitcursor.md R136): nothing is written past
`8 * LEN`. With POS + n > 2^32 - 1, which reads can bring about, the write raises `BC_POS_OVERFLOW`: R133 and R280
call that fault unreachable by a write, while the order of R133, R136 and R288 reaches it before
`BC_WRITE_PAST_END`. DESIGN CHOICE, unsafe (log 14): the order is followed. -/
def BC.writeBits (b : BC) (n : Nat) (value : Word) : Except Cause BC :=
  match b.check n with
  | some c => .error c
  | none =>
    if 8 * b.len.toNat < b.pos.toNat + n then .error .bcWritePastEnd
    else .ok ({ b with buf := b.buf.scatter value b.pos.toNat n }.advance n)

end Sys2Proof.Machine
end

