-- ==== Sys2Proof/Machine/BitCursor.lean ====
section
/-! DEFINITION. The commands of the bit-cursor unit `BC` (40_bitcursor.md). -/

namespace Sys2Proof.Machine

/-- A command that reads `n` bits at the cursor (40_bitcursor.md R135). -/
def State.replyRead (s : State) (n : Nat) : Reply :=
  match s.bc.readBits n with
  | .error c => .raise c
  | .ok (v, bc) => .done { s with bc := bc } (BitVec.ofNat 32 v)

/-- A command that writes the low `n` bits of `value` at the cursor (40_bitcursor.md R136). -/
def State.replyWrite (s : State) (n : Nat) (value : Word) : Reply :=
  match s.bc.writeBits n value with
  | .error c => .raise c
  | .ok bc => .done { s with bc := bc } 0

/-- `BC.ALLOC len` (40_bitcursor.md R131). -/
def execBcAlloc (len : Word) (s : State) : Host.Outcome State Fault Refusal :=
  .next (s.serve
    (if s.cfg.bufCap < len.toNat then .raise .bcAllocRange
     else .done { s with bc := { buf := s.bc.buf.zeroFill len.toNat, len := len, pos := 0 } } 0))

/-- `BC.SEEK bitOffset` (40_bitcursor.md R132). -/
def execBcSeek (bitOffset : Word) (s : State) : Host.Outcome State Fault Refusal :=
  .next (s.serve
    (if 8 * s.bc.len.toNat < bitOffset.toNat then .raise .bcSeekRange
     else .done { s with bc := { s.bc with pos := bitOffset } } 0))

/-- `BC.READBITS n` (40_bitcursor.md R135). -/
def execBcReadBits (n : Byte) (s : State) : Host.Outcome State Fault Refusal :=
  .next (s.serve (s.replyRead n.toNat))

/-- `BC.WRITEBITS n, value` (40_bitcursor.md R136). -/
def execBcWriteBits (n : Byte) (value : Word) (s : State) : Host.Outcome State Fault Refusal :=
  .next (s.serve (s.replyWrite n.toNat value))

/-- `BC.READBYTE` (40_bitcursor.md R137): `BC.READBITS n=8`. -/
def execBcReadByte (s : State) : Host.Outcome State Fault Refusal :=
  .next (s.serve (s.replyRead 8))

/-- `BC.WRITEBYTE value` (40_bitcursor.md R138): `BC.WRITEBITS n=8, value`. -/
def execBcWriteByte (value : Word) (s : State) : Host.Outcome State Fault Refusal :=
  .next (s.serve (s.replyWrite 8 value))

end Sys2Proof.Machine
end

