-- ==== Sys2Proof/Machine/Flags.lean ====
section
/-! DEFINITION. The read-only views of the registers: the status word (10_state.md R48, 43_system.md R262)
and the registers `MF.INFO` selects (41_matchfinder.md R187). No operation of the block computes an arithmetic
flag (10_state.md R23). -/

namespace Sys2Proof.Machine

/-- A register field as a 32-bit word, shifted to its place in the status word. -/
def statusField {w : Nat} (x : BitVec w) (lo : Nat) : Word := x.setWidth 32 <<< lo

/-- The word `SYS.STATUS` returns (43_system.md R262). -/
def State.statusWord (s : State) : Word :=
  statusField s.mf.st.code 0
    ||| statusField (BitVec.ofBool s.mf.cancelReq) 3
    ||| statusField s.tc.mode.code 4
    ||| statusField (BitVec.ofBool s.sys.faulted) 7
    ||| statusField s.sys.faultCode 8
    ||| statusField (BitVec.ofNat 32 s.tc.arq.length) 16
    ||| statusField s.mf.fill 20

/-- The register `MF.INFO sel` returns (41_matchfinder.md R187), if `sel` selects one. -/
def MF.info (mf : MF) (sel : Byte) : Option Word :=
  match sel.toNat with
  | 0 => some mf.n
  | 1 => some mf.p
  | 2 => some mf.olen
  | 3 => some mf.tokens
  | 4 => some (BitVec.ofNat 32 mf.evq.length)
  | 5 => some (mf.h.setWidth 32)
  | 6 => some (mf.st.code.setWidth 32)
  | _ => none

end Sys2Proof.Machine
end

