-- ==== Sys2Proof/Machine/MatchFinder.lean ====
section
/-! DEFINITION. The commands of the matcher unit `MF` (41_matchfinder.md R161 to R163, R185, R187, R188). The
engine is in Matcher.lean. -/

namespace Sys2Proof.Machine

/-- What `MF.START` and `MF.CLEAR` both do: the matcher at its reset values but for `IN`, `N`, `MF_STATE` and
the contents of `STAGE` and `OUT`, which SLEN = 0 and OLEN = 0 guard (41_matchfinder.md R161, R162). -/
def MF.clearRun (mf : MF) : MF :=
  { mf with
    p := 0, h := 0, table := [], evq := [], ctrl := 0, fill := 0, slen := 0, olen := 0, tokens := 0
    cancelReq := false }

/-- `MF.CLEAR` (41_matchfinder.md R162). -/
def execMfClear (s : State) : Host.Outcome State Fault Refusal :=
  .next (s.serve (s.unlessRunning (.done { s with mf := { s.mf.clearRun with n := 0, st := .idle } } 0)))

/-- `MF.PUT byte` (41_matchfinder.md R163). -/
def execMfPut (byte : Byte) (s : State) : Host.Outcome State Fault Refusal :=
  .next (s.serve (s.unlessRunning
    (if s.mf.st ≠ .idle then .raise .mfBadState
     else if s.mf.n.toNat = s.cfg.inCap then .raise .mfInOverflow
     else .done { s with mf := { s.mf with inp := s.mf.inp.write s.mf.n.toNat byte, n := s.mf.n + 1 } } 0)))

/-- `MF.START` (41_matchfinder.md R161). -/
def execMfStart (s : State) : Host.Outcome State Fault Refusal :=
  .next (s.serve (s.unlessRunning
    (.done { s with mf := { s.mf.clearRun with st := if s.mf.n = 0 then .noData else .running } } 0)))

/-- `MF.CANCEL` (41_matchfinder.md R185). -/
def execMfCancel (s : State) : Host.Outcome State Fault Refusal :=
  .next (s.serve
    (.done (if s.mf.st = .running then { s with mf := { s.mf with cancelReq := true } } else s) 0))

/-- `MF.INFO sel` (41_matchfinder.md R187). -/
def execMfInfo (sel : Byte) (s : State) : Host.Outcome State Fault Refusal :=
  .next (s.serve
    (match s.mf.info sel with
     | some val => .done s val
     | none => .raise .mfBadSelector))

/-- `MF.GET addr` (41_matchfinder.md R188). -/
def execMfGet (addr : Word) (s : State) : Host.Outcome State Fault Refusal :=
  .next (s.serve (s.unlessRunning
    (if s.mf.olen.toNat ≤ addr.toNat then .raise .mfAddrRange
     else .done s ((s.mf.out.read addr.toNat).setWidth 32))))

end Sys2Proof.Machine
end

