-- ==== Sys2Proof/Machine/System.lean ====
section
/-! DEFINITION. The system commands (43_system.md R260 to R262): the three a block in the fault state accepts
(60_exceptions.md R282), never refused. -/

namespace Sys2Proof.Machine

/-- `SYS.NOP` (43_system.md R260). -/
def execSysNop (s : State) : Host.Outcome State Fault Refusal :=
  .next (s.answer (.done s 0))

/-- `SYS.RESET` (43_system.md R261). -/
def execSysReset (s : State) : Host.Outcome State Fault Refusal :=
  .next (s.answer (.done s.resetBlock 0))

/-- `SYS.STATUS` (43_system.md R262). -/
def execSysStatus (s : State) : Host.Outcome State Fault Refusal :=
  .next (s.answer (.done s s.statusWord))

end Sys2Proof.Machine
end

