-- ==== Sys2Proof/Machine/TokenCodec.lean ====
section
/-! DEFINITION. The token encoder unit `TC` (42_tokencodec.md): token values, the two policies, packets, and
the five commands. -/

namespace Sys2Proof.Machine

/-! ### The anti-repeat selection -/

/-- The index of the `v`-th usable symbol, counted from 0 in the fixed order of the alphabet
(42_tokencodec.md R228). -/
def nthUsable : List Bool → Nat → Option Nat
  | [], _ => none
  | true :: _, 0 => some 0
  | true :: us, v + 1 => (nthUsable us v).map (· + 1)
  | false :: us, v => (nthUsable us v).map (· + 1)

/-- The FIFO's restoration (42_tokencodec.md R231): once it holds 12 entries, the oldest is popped and usable
again. -/
def TC.restoreOldest (tc : TC) : TC :=
  if tc.arq.length = arDepth then
    { tc with usable := tc.usable.set (tc.arq.headD 0) true, arq := tc.arq.tail }
  else tc

/-- The selected symbol becomes unusable and enters the FIFO (42_tokencodec.md R228). -/
def TC.markUsed (tc : TC) (idx : Nat) : TC :=
  { tc with usable := tc.usable.set idx false, arq := tc.arq ++ [idx] }

/-- `ANTIREP(v)` (42_tokencodec.md R228, R229, R231): the index selected and the state after it. -/
def TC.select (tc : TC) (v : Nat) : Except Cause (Nat × TC) :=
  match nthUsable tc.usable v with
  | none => .error .tcTokenRange
  | some idx => .ok (idx, (tc.markUsed idx).restoreOldest)

/-- What `TC.NEXT` and `TC.PACKET` carry from one symbol to the next: the cursor and the token encoder
(20_memory.md R82). -/
structure TokenState where
  bc : BC
  tc : TC
  deriving DecidableEq, Repr

/-- One symbol of the fixed 6-bit policy (42_tokencodec.md R224, R226). `SYM6` has 64 entries (log 11). -/
def TokenState.nextFixed (cfg : Config) (ts : TokenState) : Except Cause (Byte × TokenState) :=
  match ts.bc.readBits w6 with
  | .error c => .error c
  | .ok (v, bc) => .ok (cfg.sym6.getD v 0, { ts with bc := bc })

/-- One symbol of the anti-repeat 5-bit policy (42_tokencodec.md R224, R228). -/
def TokenState.nextAntirep (cfg : Config) (ts : TokenState) : Except Cause (Byte × TokenState) :=
  match ts.bc.readBits w5 with
  | .error c => .error c
  | .ok (v, bc) =>
    match ts.tc.select v with
    | .error c => .error c
    | .ok (idx, tc) => .ok (cfg.alpha5.getD idx 0, { bc := bc, tc := tc })

/-- The code of the next symbol and the state after it (42_tokencodec.md R225). -/
def TokenState.next (cfg : Config) (ts : TokenState) : Except Cause (Byte × TokenState) :=
  match ts.tc.mode with
  | .fixed6 => ts.nextFixed cfg
  | .antirep5 => ts.nextAntirep cfg

/-- The codes of `k` symbols in order; the first selection that faults names the code
(42_tokencodec.md R240, R241). -/
def TokenState.take (cfg : Config) : TokenState → Nat → Except Cause (List Byte × TokenState)
  | ts, 0 => .ok ([], ts)
  | ts, k + 1 =>
    match ts.next cfg with
    | .error c => .error c
    | .ok (code, ts1) =>
      match TokenState.take cfg ts1 k with
      | .error c => .error c
      | .ok (codes, ts2) => .ok (code :: codes, ts2)

/-- The stream packet of some codes (30_encoding.md R117): type, modifier, the codes, zeros. -/
def streamPacket (cfg : Config) (codes : List Byte) : List Byte :=
  pktTypeStream :: cfg.pktModifier :: (codes ++ List.replicate (pktSyms - codes.length) 0)

/-- The release packet: 8 bytes of 0 (30_encoding.md R119). -/
def releasePacket : List Byte := List.replicate pktBytes 0

/-! ### The commands -/

/-- `TC.INIT mode`'s effect (42_tokencodec.md R221). `PKT` is not touched. -/
def TC.init (cfg : Config) (tc : TC) (mode : TcMode) : TC :=
  { tc with mode := mode, usable := List.replicate cfg.a5Size true, arq := [] }

/-- `TC.INIT mode` (42_tokencodec.md R221). -/
def execTcInit (mode : Byte) (s : State) : Host.Outcome State Fault Refusal :=
  .next (s.serve
    (match mode.toNat with
     | 0 => .done { s with tc := s.tc.init s.cfg .fixed6 } 0
     | 1 => .done { s with tc := s.tc.init s.cfg .antirep5 } 0
     | _ => .raise .tcBadMode))

/-- `TC.NEXT` (42_tokencodec.md R225). -/
def execTcNext (s : State) : Host.Outcome State Fault Refusal :=
  .next (s.serve
    (match TokenState.next s.cfg { bc := s.bc, tc := s.tc } with
     | .error c => .raise c
     | .ok (code, ts) => .done { s with bc := ts.bc, tc := ts.tc } (code.setWidth 32)))

/-- `TC.PACKET k` (42_tokencodec.md R240, R241). -/
def execTcPacket (k : Byte) (s : State) : Host.Outcome State Fault Refusal :=
  .next (s.serve
    (if k.toNat = 0 ∨ pktSyms < k.toNat then .raise .tcBadCount
     else
      match TokenState.take s.cfg { bc := s.bc, tc := s.tc } k.toNat with
      | .error c => .raise c
      | .ok (codes, ts) =>
        .done { s with bc := ts.bc, tc := { ts.tc with pkt := streamPacket s.cfg codes } } 0))

/-- `TC.RELEASE` (42_tokencodec.md R242). -/
def execTcRelease (s : State) : Host.Outcome State Fault Refusal :=
  .next (s.serve (.done { s with tc := { s.tc with pkt := releasePacket } } 0))

/-- `TC.RDPKT i` (42_tokencodec.md R243). -/
def execTcRdPkt (i : Byte) (s : State) : Host.Outcome State Fault Refusal :=
  .next (s.serve
    (if pktBytes ≤ i.toNat then .raise .tcBadIndex
     else .done s ((s.tc.pkt.getD i.toNat 0).setWidth 32)))

end Sys2Proof.Machine
end

