-- ==== Sys2Proof/Machine/Dispatch.lean ====
section
/-! DEFINITION. One arm per command of spec/opcode_table.json. -/

namespace Sys2Proof.Machine

/-- The meaning of a command: a legal word's effect and response (60_exceptions.md R288, checks 1, 3, 4, 5). -/
def exec (i : Instr) (s : State) : Host.Outcome State Fault Refusal :=
  match i with
  | .sysNop => Sys2Proof.Machine.execSysNop s
  | .sysReset => Sys2Proof.Machine.execSysReset s
  | .sysStatus => Sys2Proof.Machine.execSysStatus s
  | .bcAlloc len => Sys2Proof.Machine.execBcAlloc len s
  | .bcSeek bitOffset => Sys2Proof.Machine.execBcSeek bitOffset s
  | .bcReadBits n => Sys2Proof.Machine.execBcReadBits n s
  | .bcWriteBits n value => Sys2Proof.Machine.execBcWriteBits n value s
  | .bcReadByte => Sys2Proof.Machine.execBcReadByte s
  | .bcWriteByte value => Sys2Proof.Machine.execBcWriteByte value s
  | .mfClear => Sys2Proof.Machine.execMfClear s
  | .mfPut byte => Sys2Proof.Machine.execMfPut byte s
  | .mfStart => Sys2Proof.Machine.execMfStart s
  | .mfCancel => Sys2Proof.Machine.execMfCancel s
  | .mfInfo sel => Sys2Proof.Machine.execMfInfo sel s
  | .mfGet addr => Sys2Proof.Machine.execMfGet addr s
  | .tcInit mode => Sys2Proof.Machine.execTcInit mode s
  | .tcNext => Sys2Proof.Machine.execTcNext s
  | .tcPacket k => Sys2Proof.Machine.execTcPacket k s
  | .tcRelease => Sys2Proof.Machine.execTcRelease s
  | .tcRdPkt idx => Sys2Proof.Machine.execTcRdPkt idx s

end Sys2Proof.Machine
end

