-- ==== Sys2Proof/Machine/Matcher.lean ====
section
/-! DEFINITION. The MF engine: rolling hash, registration and eviction, match search, emission and the engine
step (41_matchfinder.md R165 to R181). -/

namespace Sys2Proof.Machine

/-! ### The rolling hash -/

/-- `ROLL(H, b) = ((H << 8) xor b) and 0x3FFFFF` (41_matchfinder.md R165): the shift is of an unbounded
integer, so 30 bits hold it, and the mask keeps 22. -/
def roll (h : HashValue) (b : Byte) : HashValue :=
  ((h.setWidth 30 <<< hashShift) ^^^ b.setWidth 30).setWidth 22

/-- `HASH(q)`, the hash of the seed `IN[q], IN[q+1], IN[q+2]` (41_matchfinder.md R165, R166): the register
after absorbing the three seed bytes, whatever it held before (log 7). -/
def hashAt (inp : Memory) (q : Nat) : HashValue :=
  roll (roll (roll 0 (inp.read q)) (inp.read (q + 1))) (inp.read (q + 2))

/-! ### Registration and eviction -/

/-- `EVICT` (41_matchfinder.md R168): the globally oldest position leaves the queue, and the last element
of its bucket is removed. -/
def MF.evict (mf : MF) : MF :=
  match mf.evq with
  | [] => mf
  | o :: rest =>
    let h := (hashAt mf.inp o).toNat
    { mf with evq := rest, table := mf.table.put h (mf.table.bucket h).dropLast }

/-- The insertions of `REGISTER(q)` (41_matchfinder.md R167): hash, front of its bucket, tail of the queue. -/
def MF.insert (mf : MF) (q : Nat) : MF :=
  let h := hashAt mf.inp q
  { mf with
    h := h
    table := mf.table.put h.toNat (q :: mf.table.bucket h.toNat)
    evq := mf.evq ++ [q] }

/-- `REGISTER(q)` (41_matchfinder.md R167), for q + 3 ≤ N. -/
def MF.register (mf : MF) (q : Nat) : MF :=
  let mf1 := mf.insert q
  if trackMax < mf1.evq.length then mf1.evict else mf1

/-- Register `q` if it has a complete seed (41_matchfinder.md R169). -/
def MF.registerSeed (mf : MF) (q : Nat) : MF :=
  if q + minMatch ≤ mf.n.toNat then mf.register q else mf

/-- `for q in q .. q+k-1: if q + 3 <= N: REGISTER(q)` (41_matchfinder.md R181). -/
def MF.registerRun : MF → Nat → Nat → MF
  | mf, _, 0 => mf
  | mf, q, k + 1 => MF.registerRun (mf.registerSeed q) (q + 1) k

/-! ### Match search -/

/-- The number of equal bytes from `c` and from `p` on, at most `lim` (41_matchfinder.md R172). -/
def equalRun (inp : Memory) : Nat → Nat → Nat → Nat
  | _, _, 0 => 0
  | c, p, lim + 1 => if inp.read c = inp.read p then equalRun inp (c + 1) (p + 1) lim + 1 else 0

/-- `MATCHLEN(c, P)` (41_matchfinder.md R172). -/
def matchLen (inp : Memory) (n c p : Nat) : Nat := equalRun inp c p (min maxLen (n - p))

/-- The best match so far: its length and its distance. -/
structure Match where
  /-- `best`. -/
  len : Nat
  /-- `bestD`. -/
  dist : Nat
  deriving DecidableEq, Repr

/-- A candidate is valid when c < P and P - c ≤ 65535 (41_matchfinder.md R171). -/
def validCandidate (p c : Nat) : Bool := c < p && p - c ≤ maxDist

/-- One turn of the loop of 41_matchfinder.md R173: an invalid candidate is passed over, a strictly longer
match replaces the best. -/
def considerCandidate (inp : Memory) (n p : Nat) (best : Match) (c : Nat) : Match :=
  if validCandidate p c then
    if best.len < matchLen inp n c p then { len := matchLen inp n c p, dist := p - c } else best
  else best

/-- The loop of 41_matchfinder.md R173 over a bucket, head first. -/
def searchBucket (inp : Memory) (n p : Nat) (bucket : List Nat) : Match :=
  bucket.foldl (considerCandidate inp n p) { len := 0, dist := 0 }

/-- `SEARCH(P)` (41_matchfinder.md R170, R173): no search is made where fewer than 3 bytes are left. -/
def MF.search (mf : MF) : Match :=
  if mf.p.toNat + minMatch ≤ mf.n.toNat then
    searchBucket mf.inp mf.n.toNat mf.p.toNat (mf.table.bucket (hashAt mf.inp mf.p.toNat).toNat)
  else { len := 0, dist := 0 }

/-! ### Emission -/

/-- The bit of the control byte that flags slot `k` (30_encoding.md R104). -/
def slotBit (order : CtrlBitOrder) (k : Nat) : Nat :=
  match order with
  | .msbFirst => 7 - k
  | .lsbFirst => k

/-- The three bytes of a match slot: `D[15:8]`, `D[7:0]`, `L - 3` (30_encoding.md R105). -/
def matchBytes (dist len : Nat) : List Byte :=
  [BitVec.ofNat 8 (dist / 256), BitVec.ofNat 8 dist, BitVec.ofNat 8 (len - minMatch)]

/-- A slot's bytes staged after those already there: `SLEN` grows by their number, `FILL` by 1. -/
def MF.stageSlot (mf : MF) (bs : List Byte) : MF :=
  { mf with
    stage := mf.stage.writeBytes mf.slen.toNat bs
    slen := mf.slen + BitVec.ofNat 5 bs.length
    fill := mf.fill + 1 }

/-- `EMIT_MATCH(D, L)` (41_matchfinder.md R176). -/
def MF.emitMatch (cfg : Config) (mf : MF) (dist len : Nat) : MF :=
  { mf with ctrl := mf.ctrl ||| (1#8 <<< slotBit cfg.ctrlBitOrder mf.fill.toNat) }.stageSlot (matchBytes dist len)

/-- `EMIT_LITERAL(P, r)` (41_matchfinder.md R177): the flag bit stays 0. -/
def MF.emitLiteral (mf : MF) (r : Nat) : MF := mf.stageSlot (mf.inp.bytes mf.p.toNat r)

/-- `FLUSH_GROUP` (41_matchfinder.md R178). -/
def MF.flushGroup (cfg : Config) (mf : MF) : Except Cause MF :=
  if cfg.outCap < mf.olen.toNat + 1 + mf.slen.toNat then .error .mfOutOverflow
  else .ok { mf with
    out := mf.out.writeBytes mf.olen.toNat (mf.ctrl :: mf.stage.bytes 0 mf.slen.toNat)
    olen := mf.olen + 1 + mf.slen.setWidth 32
    ctrl := 0
    fill := 0
    slen := 0 }

/-- `FLUSH_FINAL` (41_matchfinder.md R179). -/
def MF.flushFinal (cfg : Config) (mf : MF) : Except Cause MF :=
  if 0 < mf.fill.toNat ∨ cfg.flushEmptyGroup = true then mf.flushGroup cfg else .ok mf

/-! ### The engine step -/

/-- The consumed length of the decision a search leads to: the match if it is accepted, best > 3, and else a
literal run of min(3, N - P) bytes (41_matchfinder.md R173, R177). -/
def MF.consumed (mf : MF) (m : Match) : Nat :=
  if minMatch < m.len then m.len else min litMax (mf.n.toNat - mf.p.toNat)

/-- The emission of the decision (41_matchfinder.md R176, R177, R181). -/
def MF.emit (cfg : Config) (mf : MF) (m : Match) : MF :=
  if minMatch < m.len then mf.emitMatch cfg m.dist m.len else mf.emitLiteral (mf.consumed m)

/-- One decision (41_matchfinder.md R181): register P, search, emit, register the skipped positions, advance
P and count the decision. -/
def MF.decideOnce (cfg : Config) (mf : MF) : MF :=
  let mf1 := mf.registerSeed mf.p.toNat
  let m := mf1.search
  let adv := mf1.consumed m
  let mf2 := (mf1.emit cfg m).registerRun (mf.p.toNat + 1) (adv - 1)
  { mf2 with p := mf2.p + BitVec.ofNat 32 adv, tokens := mf2.tokens + 1 }

/-- The end of a step (41_matchfinder.md R181): a full group is flushed, and then, if the input is at its
end, the trailing one. -/
def MF.closeStep (cfg : Config) (mf : MF) : Except Cause MF :=
  match if mf.fill.toNat = slotsPerGroup then mf.flushGroup cfg else .ok mf with
  | .error c => .error c
  | .ok mf1 =>
    if mf1.p = mf1.n then
      match mf1.flushFinal cfg with
      | .error c => .error c
      | .ok mf2 => .ok { mf2 with st := .done }
    else .ok mf1

/-- A step that sees the cancellation request takes no decision (41_matchfinder.md R181, R183). -/
def MF.cancelStep (cfg : Config) (mf : MF) : Except Cause MF :=
  match mf.flushFinal cfg with
  | .error c => .error c
  | .ok mf1 => .ok { mf1 with st := .aborted }

/-- `STEP` (41_matchfinder.md R181). -/
def MF.engineStep (cfg : Config) (mf : MF) : Except Cause MF :=
  if mf.cancelReq then mf.cancelStep cfg else (mf.decideOnce cfg).closeStep cfg

/-- What the spec says holds at the start of a step: P < N (41_matchfinder.md R181), FILL ≤ 7 (R176, R177)
and slots of at most 3 bytes each (10_state.md R34). -/
def MF.stepReady (mf : MF) : Bool :=
  mf.p.toNat < mf.n.toNat && mf.fill.toNat < slotsPerGroup && mf.slen.toNat ≤ 3 * mf.fill.toNat

/-- The engine's turn: a step, or the fault it raises, which discards the step's other effects and returns no
response (60_exceptions.md R281, R284). -/
def State.engineTurn (s : State) : Host.Outcome State Fault Refusal :=
  if s.mf.stepReady then
    match s.mf.engineStep s.cfg with
    | .ok mf' => .next { s with mf := mf' }
    | .error c => .next (s.enterFault c)
  else .fault .engineOutsideRun

end Sys2Proof.Machine
end

