-- ==== Sys2Proof/Machine/Step.lean ====
section
/-! DEFINITION. One event of the block (20_memory.md R75): a host command, an engine step, the hardware reset
input, or nothing. -/

namespace Sys2Proof.Machine

/-- One event. A command word is decoded and executed; an illegal word is answered as 30_encoding.md R96
says. -/
def step (s : State) : Host.Outcome State Fault Refusal :=
  match s.nextAction with
  | (.idle, t) => .next t
  | (.reset, t) => .next t.resetBlock
  | (.engine, t) => t.engineTurn
  | (.command w, t) =>
    match decode w with
    | .ok i => exec i t
    | .error _ => .next t.illegalWord

/-- `s` with the command word `w` (its low `nbits` bits) the one the host sends next, and the next turn the
host's: commands arrive on the port as values (20_memory.md R80), so this is where a step takes its command from
(log 9). -/
def State.withFetchWord (s : State) (nbits w : Nat) : State :=
  { s with port := { s.port with
      pending := BitVec.ofNat 48 (w % 2 ^ nbits) :: s.port.pending
      schedule := .hostCommand :: s.port.schedule } }

end Sys2Proof.Machine
end

