-- ==== Sys2Proof/Machine/Stream.lean ====
section
/-! DEFINITION. The compressed stream format and its reference decoder (30_encoding.md R101 to R112). These
are functions, no part of the machine: the block has no decompressor (00_scope.md R4, 30_encoding.md R110). -/

namespace Sys2Proof.Machine

/-- Why a stream does not denote M bytes (30_encoding.md R110). -/
inductive DecodeFail where
  | truncated
  | badDistance
  | overrun
  deriving DecidableEq, Repr

/-- `repeat L times: out <- out ++ [ out[|out| - D] ]` (30_encoding.md R110). -/
def copyBack (dist : Nat) : List Byte → Nat → List Byte
  | out, 0 => out
  | out, k + 1 => copyBack dist (out ++ [out.getD (out.length - dist) 0]) k

/-- The flags of a control byte in the order of the slots they govern (30_encoding.md R104). -/
def slotFlags (order : CtrlBitOrder) (ctrl : Byte) : List Bool :=
  (List.range slotsPerGroup).map (fun k => ctrl.getLsbD (slotBit order k))

/-- The slots of one group (30_encoding.md R110): `total` is M, `out` the bytes produced, `rest` the stream not
yet consumed. -/
def decodeSlots (total : Nat) : List Bool → List Byte → List Byte → Except DecodeFail (List Byte × List Byte)
  | [], out, rest => .ok (out, rest)
  | flag :: flags, out, rest =>
    if total ≤ out.length then .ok (out, rest)
    else if flag then
      match rest with
      | d1 :: d0 :: l :: rest1 =>
        let dist := d1.toNat * 256 + d0.toNat
        let len := l.toNat + minMatch
        if dist = 0 ∨ out.length < dist then .error .badDistance
        else if total - out.length < len then .error .overrun
        else decodeSlots total flags (copyBack dist out len) rest1
      | _ => .error .truncated
    else
      let r := min litMax (total - out.length)
      if rest.length < r then .error .truncated
      else decodeSlots total flags (out ++ rest.take r) (rest.drop r)

/-- The groups of a stream (30_encoding.md R110). Every group consumes its control byte, so `fuel` at least the
stream's length never runs out before the stream does. -/
def decodeGroups (order : CtrlBitOrder) (total : Nat) :
    Nat → List Byte → List Byte → Except DecodeFail (List Byte × List Byte)
  | fuel, out, rest =>
    if total ≤ out.length then .ok (out, rest)
    else
      match fuel, rest with
      | fuel + 1, ctrl :: rest1 =>
        match decodeSlots total (slotFlags order ctrl) out rest1 with
        | .error e => .error e
        | .ok (out1, rest2) => decodeGroups order total fuel out1 rest2
      | _, _ => .error .truncated

/-- The reference decoder `decode(S, M)` (30_encoding.md R110, log 13): the decoded bytes and the number of stream
bytes consumed, or a failure. -/
def decodeStream (order : CtrlBitOrder) (stream : List Byte) (total : Nat) :
    Except DecodeFail (List Byte × Nat) :=
  match decodeGroups order total stream.length [] stream with
  | .error e => .error e
  | .ok (out, rest) => .ok (out, stream.length - rest.length)

end Sys2Proof.Machine
end

