-- ==== Sys2Proof/Safety.lean ====
section
/-! DEFINITION. What a run keeps: the invariants the spec states of the state (10_state.md R25 to R45), what the
output stream means (30_encoding.md R101 to R112), and when two states look alike to the host (10_state.md R52). -/

namespace Sys2Proof

/-! ### Classes of commands -/

/-- The commands refused with `BUSY` while a compression runs (60_exceptions.md R285). -/
def Instr.refusedWhileRunning : Instr → Bool
  | .mfClear | .mfPut _ | .mfStart | .mfGet _ => true
  | .sysNop | .sysReset | .sysStatus | .bcAlloc _ | .bcSeek _ | .bcReadBits _ | .bcWriteBits _ _
  | .bcReadByte | .bcWriteByte _ | .mfCancel | .mfInfo _ | .tcInit _ | .tcNext | .tcPacket _
  | .tcRelease | .tcRdPkt _ => false

/-- The three commands a block in the fault state accepts (60_exceptions.md R282). -/
def Instr.system : Instr → Bool
  | .sysNop | .sysReset | .sysStatus => true
  | .bcAlloc _ | .bcSeek _ | .bcReadBits _ | .bcWriteBits _ _ | .bcReadByte | .bcWriteByte _
  | .mfClear | .mfPut _ | .mfStart | .mfCancel | .mfInfo _ | .mfGet _ | .tcInit _ | .tcNext
  | .tcPacket _ | .tcRelease | .tcRdPkt _ => false

/-- The commands of the units `BC` and `TC`, which share nothing with the engine (20_memory.md R76). -/
def Instr.cursorOrToken : Instr → Bool
  | .bcAlloc _ | .bcSeek _ | .bcReadBits _ | .bcWriteBits _ _ | .bcReadByte | .bcWriteByte _
  | .tcInit _ | .tcNext | .tcPacket _ | .tcRelease | .tcRdPkt _ => true
  | .sysNop | .sysReset | .sysStatus | .mfClear | .mfPut _ | .mfStart | .mfCancel | .mfInfo _
  | .mfGet _ => false

/-- The commands whose only possible fault is one of a token selection (60_exceptions.md R288). -/
def Instr.takesTokens : Instr → Bool
  | .tcNext | .tcPacket _ => true
  | .sysNop | .sysReset | .sysStatus | .bcAlloc _ | .bcSeek _ | .bcReadBits _ | .bcWriteBits _ _
  | .bcReadByte | .bcWriteByte _ | .mfClear | .mfPut _ | .mfStart | .mfCancel | .mfInfo _
  | .mfGet _ | .tcInit _ | .tcRelease | .tcRdPkt _ => false

end Sys2Proof

namespace Sys2Proof.Machine

/-! ### Invariants of the units -/

/-- The cursor (10_state.md R24, R25): its buffer in canonical form, LEN ≤ BUF_CAP. POS is any offset (R26). -/
structure BC.Inv (cfg : Config) (b : BC) : Prop where
  buf_wf : b.buf.wf
  len_le : b.len.toNat ≤ cfg.bufCap

/-- How many positions are registered between two engine steps: those with q < P and q + 3 ≤ N
(41_matchfinder.md R169). -/
def MF.registered (mf : MF) : Nat := min mf.p.toNat (mf.n.toNat - 2)

/-- The tracked positions, oldest first: the last 65538 of the registered ones (41_matchfinder.md R168,
10_state.md R32 b). -/
def MF.tracked (mf : MF) : List Nat :=
  List.range' (mf.registered - trackMax) (min mf.registered trackMax)

/-- The tracked positions of one hash value, most recent first (10_state.md R30, R32 c, d). -/
def MF.trackedOf (mf : MF) (h : Nat) : List Nat :=
  (mf.tracked.filter (fun q => (hashAt mf.inp q).toNat = h)).reverse

/-- The matcher, between two events (10_state.md R27 to R41). -/
structure MF.Inv (cfg : Config) (mf : MF) : Prop where
  inp_wf : mf.inp.wf
  stage_wf : mf.stage.wf
  out_wf : mf.out.wf
  table_wf : mf.table.wf
  /-- R27. -/
  n_le : mf.n.toNat ≤ cfg.inCap
  /-- R28. -/
  p_le : mf.p.toNat ≤ mf.n.toNat
  /-- R35. -/
  olen_le : mf.olen.toNat ≤ cfg.outCap
  /-- 41_matchfinder.md R181. -/
  running_p_lt : mf.st = .running → mf.p.toNat < mf.n.toNat
  /-- R33: FILL is 8 only inside a step. -/
  fill_lt : mf.fill.toNat < slotsPerGroup
  /-- R34. -/
  slen_le : mf.slen.toNat ≤ 3 * mf.fill.toNat
  /-- R33: bits of CTRL at slot numbers ≥ FILL are 0. -/
  ctrl_unused : ∀ k, mf.fill.toNat ≤ k → k < slotsPerGroup →
    mf.ctrl.getLsbD (slotBit cfg.ctrlBitOrder k) = false
  /-- R36: every decision consumes at least one byte. -/
  tokens_le : mf.tokens.toNat ≤ mf.p.toNat
  /-- R32 b. -/
  evq_eq : mf.evq = mf.tracked
  /-- R32 a, c, d. -/
  bucket_eq : ∀ h, mf.table.bucket h = mf.trackedOf h
  /-- R29. -/
  h_eq : 0 < mf.registered → mf.h = hashAt mf.inp (mf.registered - 1)
  /-- R40, R41: nothing has run. -/
  idle_clear : mf.st = .idle → mf.p = 0 ∧ mf.fill = 0 ∧ mf.olen = 0 ∧ mf.tokens = 0 ∧ mf.cancelReq = false
  /-- R40: N = 0 and no output. -/
  noData_clear : mf.st = .noData → mf.n = 0 ∧ mf.fill = 0 ∧ mf.olen = 0 ∧ mf.cancelReq = false
  /-- R40: the input is covered and the stream complete. -/
  done_end : mf.st = .done → mf.p = mf.n ∧ 0 < mf.n.toNat ∧ mf.fill = 0
  /-- R40, R183: a request was seen and the open group flushed. -/
  aborted_end : mf.st = .aborted → mf.cancelReq = true ∧ mf.p.toNat < mf.n.toNat ∧ mf.fill = 0

/-- The token encoder, between two commands (10_state.md R44 to R46). -/
structure TC.Inv (cfg : Config) (tc : TC) : Prop where
  usable_length : tc.usable.length = cfg.a5Size
  /-- R45. -/
  arq_length : tc.arq.length < arDepth
  /-- R45: pairwise distinct. -/
  arq_nodup : tc.arq.Nodup
  /-- R45: indices of the alphabet. -/
  arq_lt : ∀ i ∈ tc.arq, i < cfg.a5Size
  /-- R45: USABLE[i] = 0 exactly when i is in ARQ. -/
  usable_iff : ∀ i, i < cfg.a5Size → (tc.usable[i]? = some false ↔ i ∈ tc.arq)
  pkt_length : tc.pkt.length = pktBytes

/-- The fault state (10_state.md R47, R48): the code is that of a fault, and 0 when there is none. -/
structure SYS.Inv (y : SYS) : Prop where
  clear : y.faulted = false → y.faultCode = 0
  coded : y.faulted = true → ∃ c : Cause, y.faultCode = c.code

/-- The invariant of the machine between two events. -/
structure State.Inv (s : State) : Prop where
  cfg_wf : s.cfg.wf
  bc : s.bc.Inv s.cfg
  mf : s.mf.Inv s.cfg
  tc : s.tc.Inv s.cfg
  sys : s.sys.Inv

/-! ### What the output stream means -/

/-- One decision as the stream holds it (00_scope.md R18, "slot"). -/
inductive Slot where
  /-- A literal run of raw bytes (30_encoding.md R106). -/
  | literal (bytes : List Byte)
  /-- A match: copy `len` bytes from `dist` bytes back (30_encoding.md R105). -/
  | copy (dist len : Nat)
  deriving DecidableEq, Repr

/-- The flag of a slot: 1 for a match (30_encoding.md R103). -/
def Slot.flag : Slot → Bool
  | .literal _ => false
  | .copy _ _ => true

/-- The bytes of a slot (30_encoding.md R105, R106). -/
def Slot.payload : Slot → List Byte
  | .literal bytes => bytes
  | .copy dist len => matchBytes dist len

/-- The output after a slot (30_encoding.md R105, R106). -/
def Slot.apply (out : List Byte) : Slot → List Byte
  | .literal bytes => out ++ bytes
  | .copy dist len => copyBack dist out len

/-- The bytes a sequence of slots stands for, after the bytes `out`. -/
def expandFrom (out : List Byte) (slots : List Slot) : List Byte := slots.foldl Slot.apply out

/-- The slots the block emits for an input of `n` bytes, after the bytes `out`: literal runs of min(3, n - |out|)
bytes (41_matchfinder.md R177), matches within the bounds of 41_matchfinder.md R190. -/
def slotsValid (n : Nat) : List Byte → List Slot → Prop
  | _, [] => True
  | out, slot :: slots =>
    (match slot with
     | .literal bytes => out.length < n ∧ bytes.length = min litMax (n - out.length)
     | .copy dist len => 1 ≤ dist ∧ dist ≤ maxDist ∧ dist ≤ out.length ∧ minMatch < len ∧ len ≤ maxLen ∧
         out.length + len ≤ n) ∧
    slotsValid n (slot.apply out) slots

/-- The control byte of slots from slot number `k` on; unused bits are 0 (30_encoding.md R104). -/
def controlFrom (order : CtrlBitOrder) : Nat → List Slot → Byte
  | _, [] => 0
  | k, slot :: slots =>
    (if slot.flag then 1#8 <<< slotBit order k else 0) ||| controlFrom order (k + 1) slots

/-- A group: its control byte and the slots it governs (30_encoding.md R101). -/
def groupBytes (order : CtrlBitOrder) (slots : List Slot) : List Byte :=
  controlFrom order 0 slots :: slots.flatMap Slot.payload

/-- The slots of full group number `g`. -/
def groupOf (slots : List Slot) (g : Nat) : List Slot := (slots.drop (slotsPerGroup * g)).take slotsPerGroup

/-- The full groups of a sequence of slots (30_encoding.md R102). -/
def fullGroups (order : CtrlBitOrder) (slots : List Slot) : List Byte :=
  (List.range (slots.length / slotsPerGroup)).flatMap (fun g => groupBytes order (groupOf slots g))

/-- The slots after the last full group: those of the open group. -/
def openSlots (slots : List Slot) : List Slot := slots.drop (slotsPerGroup * (slots.length / slotsPerGroup))

/-- The stream at the end of a run: the full groups and the trailing one, which is left out only when it
governs no slot and `FLUSH_EMPTY_GROUP` is false (30_encoding.md R102, 41_matchfinder.md R179). -/
def finalStream (cfg : Config) (slots : List Slot) : List Byte :=
  fullGroups cfg.ctrlBitOrder slots ++
    if openSlots slots = [] ∧ cfg.flushEmptyGroup = false then []
    else groupBytes cfg.ctrlBitOrder (openSlots slots)

/-- `OUT[0..OLEN)`. -/
def MF.stream (mf : MF) : List Byte := mf.out.bytes 0 mf.olen.toNat

/-- `IN[0..P)`. -/
def MF.covered (mf : MF) : List Byte := mf.inp.bytes 0 mf.p.toNat

/-- The `len` bytes from `c` and from `p` on agree (41_matchfinder.md R172). -/
def agreeFor (inp : Memory) (c p len : Nat) : Prop := ∀ j, j < len → inp.read (c + j) = inp.read (p + j)

/-! ### What a step decides and writes -/

/-- The bytes of input a decision consumes (41_matchfinder.md R181, `adv`). -/
def Slot.size : Slot → Nat
  | .literal bytes => bytes.length
  | .copy _ len => len

/-- The decision a step takes at P: register P, search, accept a match longer than 3, else a literal run of
min(3, N - P) bytes (41_matchfinder.md R173, R177, R181). -/
def MF.decision (mf : MF) : Slot :=
  let m := (mf.registerSeed mf.p.toNat).search
  if minMatch < m.len then .copy m.dist m.len
  else .literal (mf.inp.bytes mf.p.toNat (min litMax (mf.n.toNat - mf.p.toNat)))

/-- The greatest length and the smallest distance over the window (41_matchfinder.md R171 to R173): a match is the
longest that any of the 65535 positions before P gives, and the nearest of that length; a literal run is taken only
where none gives more than 3 bytes, and holds `IN[P..P+r)`. -/
def MF.BestDecision (mf : MF) : Slot → Prop
  | .copy dist len =>
    1 ≤ dist ∧ dist ≤ maxDist ∧ dist ≤ mf.p.toNat ∧ minMatch < len ∧ len ≤ min maxLen (mf.n.toNat - mf.p.toNat) ∧
      agreeFor mf.inp (mf.p.toNat - dist) mf.p.toNat len ∧
      ∀ c, c < mf.p.toNat → mf.p.toNat - c ≤ maxDist →
        (∀ l, l ≤ min maxLen (mf.n.toNat - mf.p.toNat) → agreeFor mf.inp c mf.p.toNat l → l ≤ len) ∧
        (agreeFor mf.inp c mf.p.toNat len → dist ≤ mf.p.toNat - c)
  | .literal bytes =>
    bytes = mf.inp.bytes mf.p.toNat (min litMax (mf.n.toNat - mf.p.toNat)) ∧
      ∀ c, c < mf.p.toNat → mf.p.toNat - c ≤ maxDist →
        ∀ l, l ≤ min maxLen (mf.n.toNat - mf.p.toNat) → agreeFor mf.inp c mf.p.toNat l → l ≤ minMatch

/-- The control byte with the flag of the decision at slot FILL (30_encoding.md R104, 41_matchfinder.md R176). -/
def MF.ctrlWith (cfg : Config) (mf : MF) (slot : Slot) : Byte :=
  mf.ctrl ||| (if slot.flag then 1#8 <<< slotBit cfg.ctrlBitOrder mf.fill.toNat else 0)

/-- `STAGE[0..SLEN)`. -/
def MF.staged (mf : MF) : List Byte := mf.stage.bytes 0 mf.slen.toNat

/-- The decision fills the open group (41_matchfinder.md R181, "if FILL = 8"). -/
def MF.fillsGroup (mf : MF) : Bool := mf.fill.toNat + 1 = slotsPerGroup

/-- The decision reaches the end of the input (41_matchfinder.md R181, "if P = N"). -/
def MF.reachesEnd (mf : MF) : Bool := mf.p.toNat + mf.decision.size = mf.n.toNat

/-- The bytes a step appends to `OUT` (41_matchfinder.md R178, R179, R181). Every flush writes 1 + SLEN bytes, the
control byte and the staged ones: the open group on a cancellation; the group with the decision when it is the eighth
or the last; and after an eighth that is also the last, the empty group under `FLUSH_EMPTY_GROUP`. -/
def MF.stepOutput (cfg : Config) (mf : MF) : List Byte :=
  if mf.cancelReq then
    if 0 < mf.fill.toNat ∨ cfg.flushEmptyGroup = true then mf.ctrl :: mf.staged else []
  else
    (if mf.fillsGroup || mf.reachesEnd then mf.ctrlWith cfg mf.decision :: (mf.staged ++ mf.decision.payload) else [])
      ++ (if mf.fillsGroup && mf.reachesEnd && cfg.flushEmptyGroup then [0] else [])

/-- The matcher has emitted exactly the decisions `slots` (41_matchfinder.md R181 to R183): they are valid,
TOKENS counts them, and they stand for `IN[0..P)`. While `RUNNING`, `OUT` holds the full groups and the rest is the
open group; in `DONE` and `ABORTED`, `OUT` holds the final stream. -/
structure MF.Emitted (cfg : Config) (mf : MF) (slots : List Slot) : Prop where
  valid : slotsValid mf.n.toNat [] slots
  count : slots.length = mf.tokens.toNat
  covers : expandFrom [] slots = mf.covered
  running_out : mf.st = .running → mf.stream = fullGroups cfg.ctrlBitOrder slots
  running_fill : mf.st = .running → mf.fill.toNat = (openSlots slots).length
  running_ctrl : mf.st = .running → mf.ctrl = controlFrom cfg.ctrlBitOrder 0 (openSlots slots)
  running_stage : mf.st = .running →
    mf.stage.bytes 0 mf.slen.toNat = (openSlots slots).flatMap Slot.payload
  ended_out : mf.st = .done ∨ mf.st = .aborted → mf.stream = finalStream cfg slots

/-- Some sequence of decisions explains the output: trivial before `MF.START` and in `NODATA`. -/
def State.StreamInv (s : State) : Prop :=
  s.mf.st = .running ∨ s.mf.st = .done ∨ s.mf.st = .aborted → ∃ slots, s.mf.Emitted s.cfg slots

/-! ### What the host can see -/

/-- Two memories agree below a length. -/
def Memory.agreeBelow (n : Nat) (m m' : Memory) : Prop := ∀ a, a < n → m.read a = m'.read a

/-- The two states differ at most in the contents that 10_state.md R52 calls unobservable: bytes at and above
LEN, N, SLEN, OLEN. -/
structure State.LooksLike (s t : State) : Prop where
  cfg : s.cfg = t.cfg
  port : s.port = t.port
  sys : s.sys = t.sys
  tc : s.tc = t.tc
  bc : { s.bc with buf := [] } = { t.bc with buf := [] }
  mf : { s.mf with inp := [], stage := [], out := [] } = { t.mf with inp := [], stage := [], out := [] }
  buf : s.bc.buf.agreeBelow s.bc.len.toNat t.bc.buf
  inp : s.mf.inp.agreeBelow s.mf.n.toNat t.mf.inp
  stage : s.mf.stage.agreeBelow s.mf.slen.toNat t.mf.stage
  out : s.mf.out.agreeBelow s.mf.olen.toNat t.mf.out

/-- What a state is but for the port: the block and its configuration. -/
def State.block (s : State) : Config × BC × MF × TC × SYS := (s.cfg, s.bc, s.mf, s.tc, s.sys)

/-! ### What a command came to -/

/-- The one change of the port is that the response `RC`, `VAL` was returned (30_encoding.md R90, R92). -/
def State.Answers (s t : State) (rc : Byte) (val : Word) : Prop :=
  t.port = { s.port with responses := (rc ++ val) :: s.port.responses }

/-- The command was answered `OK` with `val`, and the block is in the state it was in. -/
def State.OnlyAnswers (s t : State) (rc : Byte) (val : Word) : Prop :=
  t.block = s.block ∧ s.Answers t rc val

/-- The command raised the fault `c` and did nothing else (60_exceptions.md R281). -/
def State.Raises (s t : State) (c : Cause) : Prop :=
  t.cfg = s.cfg ∧ t.bc = s.bc ∧ t.mf = s.mf ∧ t.tc = s.tc ∧
    t.sys.faulted = true ∧ t.sys.faultCode = c.code ∧ s.Answers t c.code 0

/-- The reset values of 10_state.md R52; it gives none for the contents of the four memories. -/
structure State.HasResetValues (s : State) : Prop where
  bc_len : s.bc.len = 0
  bc_pos : s.bc.pos = 0
  mf_n : s.mf.n = 0
  mf_p : s.mf.p = 0
  mf_h : s.mf.h = 0
  mf_table : ∀ h, s.mf.table.bucket h = []
  mf_evq : s.mf.evq = []
  mf_ctrl : s.mf.ctrl = 0
  mf_fill : s.mf.fill = 0
  mf_slen : s.mf.slen = 0
  mf_olen : s.mf.olen = 0
  mf_tokens : s.mf.tokens = 0
  mf_state : s.mf.st = .idle
  mf_cancelReq : s.mf.cancelReq = false
  tc_mode : s.tc.mode = .fixed6
  tc_usable : s.tc.usable = List.replicate s.cfg.a5Size true
  tc_arq : s.tc.arq = []
  tc_pkt : s.tc.pkt = List.replicate 8 0
  sys_faulted : s.sys.faulted = false
  sys_faultCode : s.sys.faultCode = 0

/-- The fault a command raises of its own, from the causes of 60_exceptions.md R280 in the order of R288; the
faults of token selections (`TC.NEXT`, `TC.PACKET` with a legal count) are left out. That a write with
POS + n > 2^32 - 1 raises `BC_POS_OVERFLOW` is the model's choice (log 14). -/
def State.ownFault (s : State) : Instr → Option Cause
  | .bcAlloc len => if s.cfg.bufCap < len.toNat then some .bcAllocRange else none
  | .bcSeek bitOffset => if 8 * s.bc.len.toNat < bitOffset.toNat then some .bcSeekRange else none
  | .bcReadBits n =>
    if n.toNat = 0 ∨ 32 < n.toNat then some .bcBadWidth
    else if 2 ^ 32 - 1 < s.bc.pos.toNat + n.toNat then some .bcPosOverflow else none
  | .bcWriteBits n _ =>
    if n.toNat = 0 ∨ 32 < n.toNat then some .bcBadWidth
    else if 2 ^ 32 - 1 < s.bc.pos.toNat + n.toNat then some .bcPosOverflow
    else if 8 * s.bc.len.toNat < s.bc.pos.toNat + n.toNat then some .bcWritePastEnd else none
  | .bcReadByte => if 2 ^ 32 - 1 < s.bc.pos.toNat + 8 then some .bcPosOverflow else none
  | .bcWriteByte _ =>
    if 2 ^ 32 - 1 < s.bc.pos.toNat + 8 then some .bcPosOverflow
    else if 8 * s.bc.len.toNat < s.bc.pos.toNat + 8 then some .bcWritePastEnd else none
  | .mfPut _ =>
    if s.mf.st = .done ∨ s.mf.st = .noData ∨ s.mf.st = .aborted then some .mfBadState
    else if s.mf.n.toNat = s.cfg.inCap then some .mfInOverflow else none
  | .mfInfo sel => if 6 < sel.toNat then some .mfBadSelector else none
  | .mfGet addr => if s.mf.olen.toNat ≤ addr.toNat then some .mfAddrRange else none
  | .tcInit mode => if 1 < mode.toNat then some .tcBadMode else none
  | .tcPacket k => if k.toNat = 0 ∨ 6 < k.toNat then some .tcBadCount else none
  | .tcRdPkt i => if 7 < i.toNat then some .tcBadIndex else none
  | .sysNop | .sysReset | .sysStatus | .mfClear | .mfStart | .mfCancel | .tcNext | .tcRelease => none

/-- Commands executed one after the other, each from the state the one before it left. -/
def execList : List Instr → State → Option State
  | [], s => some s
  | i :: is, s =>
    match exec i s with
    | .next t => execList is t
    | _ => none

/-- Anti-repeat selections one after the other (42_tokencodec.md R228): the indices selected. -/
def TC.selectAll : TC → List Nat → Except Cause (List Nat × TC)
  | tc, [] => .ok ([], tc)
  | tc, v :: vs =>
    match tc.select v with
    | .error c => .error c
    | .ok (idx, tc1) =>
      match TC.selectAll tc1 vs with
      | .error c => .error c
      | .ok (idxs, tc2) => .ok (idx :: idxs, tc2)

end Sys2Proof.Machine
end

