-- ==== Sys2Proof/Certificates/Slice0/Obligations.lean ====
section
/-! DEFINITION. The statements for the provers. Each docstring names the rule of spec/ it formalises; where it
rests on a choice of the model it says so. -/

open Sys2Proof Sys2Proof.Machine

/-! ### Command words -/

/-- A word decodes to a command exactly when it is that command's encoding: no bit of an operand is dropped, and no
second word is accepted for a command (30_encoding.md R91, R94, R95, R97). -/
def Obligations.WordDecodesIffEncoded : Prop :=
  ∀ (w : CmdWord) (i : Instr), decode w = .ok i ↔ w = encode i

/-- The decoder accepts exactly the words the table of 30_encoding.md R94 makes legal (R96). -/
def Obligations.DecoderAcceptsLegalWords : Prop :=
  ∀ w : CmdWord, (∃ i, decode w = .ok i) ↔ (Cmd.ofWord w).legal = true

/-- Words printed in the command rules' examples, and the `MF.GET` word of program P4 of 95_test_vectors.md, decode
to the commands they stand for. -/
def Obligations.ExampleWordsDecode : Prop :=
  decode 0x000000000000 = .ok .sysNop ∧ decode 0x020000000000 = .ok .sysStatus ∧
  decode 0x110000000011 = .ok (.bcSeek 17) ∧ decode 0x13070000000A = .ok (.bcWriteBits 7 10) ∧
  decode 0x15000000004D = .ok (.bcWriteByte 0x4D) ∧ decode 0x214100000000 = .ok (.mfPut 0x41) ∧
  decode 0x240200000000 = .ok (.mfInfo 2) ∧ decode 0x250000000019 = .ok (.mfGet 25) ∧
  decode 0x300100000000 = .ok (.tcInit 1) ∧ decode 0x320400000000 = .ok (.tcPacket 4)

/-- A step runs the decoded command: when the host's turn comes, the step is `exec` of the command its word decodes
to, on the state with that word and that turn taken off the port and nothing else changed (30_encoding.md R90). With
an empty schedule the turn is the host's whenever the engine does not run. -/
def Obligations.StepRunsDecodedCommand : Prop :=
  ∀ (s : State) (w : CmdWord) (ws : List CmdWord) (i : Instr),
    s.port.pending = w :: ws → decode w = .ok i →
    (∀ es, s.port.schedule = .hostCommand :: es →
      step s = exec i { s with port := { s.port with pending := ws, schedule := es } }) ∧
    (s.port.schedule = [] → ¬(s.mf.st = .running ∧ s.sys.faulted = false) →
      step s = exec i { s with port := { s.port with pending := ws } })

/-- An illegal word on the host's turn: in the fault state it is answered `FAULTED`, else it raises `ILLEGAL_CMD`;
either way it has no other effect (30_encoding.md R96, 60_exceptions.md R288 checks 1 and 2). -/
def Obligations.IllegalWordOutcome : Prop :=
  ∀ (s : State) (w : CmdWord), (Cmd.ofWord w).legal = false →
    ∃ t, step (s.withFetchWord 48 w.toNat) = .next t ∧
      (s.sys.faulted = true → s.OnlyAnswers t 0x02 0) ∧
      (s.sys.faulted = false → s.Raises t .illegalCmd)

/-! ### System commands -/

/-- `SYS.NOP` and `SYS.STATUS` execute in every state, running and faulted too, and change nothing (43_system.md
R260, R262). -/
def Obligations.NopAndStatusChangeNothing : Prop :=
  ∀ s : State,
    (∃ t, exec .sysNop s = .next t ∧ s.OnlyAnswers t 0x00 0) ∧
    (∃ t, exec .sysStatus s = .next t ∧ s.OnlyAnswers t 0x00 s.statusWord)

/-- The fields of the status word (10_state.md R48), in every state of the invariant: each at its bits, the reserved
bits 0, FAULT_CODE 0 when FAULTED is 0. -/
def Obligations.StatusWordLayout : Prop :=
  ∀ s : State, s.Inv →
    (s.statusWord.extractLsb' 0 3).toNat =
      (match s.mf.st with | .idle => 0 | .running => 1 | .done => 2 | .noData => 3 | .aborted => 4) ∧
    s.statusWord.getLsbD 3 = s.mf.cancelReq ∧
    (s.statusWord.extractLsb' 4 1).toNat = (match s.tc.mode with | .fixed6 => 0 | .antirep5 => 1) ∧
    s.statusWord.extractLsb' 5 2 = 0 ∧
    s.statusWord.getLsbD 7 = s.sys.faulted ∧
    s.statusWord.extractLsb' 8 8 = s.sys.faultCode ∧
    (s.sys.faulted = false → s.statusWord.extractLsb' 8 8 = 0) ∧
    (s.statusWord.extractLsb' 16 4).toNat = s.tc.arq.length ∧ s.tc.arq.length ≤ 11 ∧
    s.statusWord.extractLsb' 20 4 = s.mf.fill ∧ s.mf.fill.toNat ≤ 7 ∧
    s.statusWord.extractLsb' 24 8 = 0

/-- `SYS.RESET` executes in every state and leaves the reset values of 10_state.md R52 (43_system.md R261), as the
hardware reset input does (70_reset_and_hazards.md R320); neither touches the configuration (R322). The contents of
the memories are not stated: the spec gives none. That the host's port stays is the model's choice (log 3). -/
def Obligations.ResetLeavesResetValues : Prop :=
  (∀ cfg : Config, (State.resetWith cfg).HasResetValues) ∧
  (∀ s : State, ∃ t, exec .sysReset s = .next t ∧ t.HasResetValues ∧ t.cfg = s.cfg ∧ s.Answers t 0x00 0 ∧
    t.statusWord = 0) ∧
  (∀ (s : State) (es : List Event), s.port.schedule = .hardReset :: es →
    ∃ t, step s = .next t ∧ t.HasResetValues ∧ t.cfg = s.cfg ∧ t.port = { s.port with schedule := es })

/-! ### The bit cursor -/

/-- `BIT(k)` (40_bitcursor.md R134): bit 7 - (k mod 8) of byte k div 8 below 8 * LEN, and 0 from there up. -/
def Obligations.BitFunction : Prop :=
  ∀ (b : BC) (k : Nat),
    (k < 8 * b.len.toNat → (b.bit k).toNat = (b.buf.read (k / 8)).toNat / 2 ^ (7 - k % 8) % 2) ∧
    (8 * b.len.toNat ≤ k → b.bit k = false)

/-- `BC.ALLOC len`, len ≤ BUF_CAP (40_bitcursor.md R131): LEN, POS = 0, zeros below len, the bytes from len up not
touched, nothing else changed. -/
def Obligations.BcAllocResult : Prop :=
  ∀ (s : State) (len : Word), s.bc.buf.wf → s.sys.faulted = false → len.toNat ≤ s.cfg.bufCap →
    ∃ t, exec (.bcAlloc len) s = .next t ∧ t.bc.len = len ∧ t.bc.pos = 0 ∧
      (∀ a, a < len.toNat → t.bc.buf.read a = 0) ∧
      (∀ a, len.toNat ≤ a → t.bc.buf.read a = s.bc.buf.read a) ∧
      t.cfg = s.cfg ∧ t.mf = s.mf ∧ t.tc = s.tc ∧ t.sys = s.sys ∧ s.Answers t 0x00 0

/-- `BC.SEEK bitOffset`, bitOffset ≤ 8 * LEN (40_bitcursor.md R132): POS, and nothing else. -/
def Obligations.BcSeekResult : Prop :=
  ∀ (s : State) (bitOffset : Word), s.sys.faulted = false → bitOffset.toNat ≤ 8 * s.bc.len.toNat →
    ∃ t, exec (.bcSeek bitOffset) s = .next t ∧ t.bc.pos = bitOffset ∧
      t.bc.len = s.bc.len ∧ t.bc.buf = s.bc.buf ∧
      t.cfg = s.cfg ∧ t.mf = s.mf ∧ t.tc = s.tc ∧ t.sys = s.sys ∧ s.Answers t 0x00 0

/-- `BC.READBITS n` and `BC.READBYTE` (n = 8) (40_bitcursor.md R135, R137): bit n - 1 - j of VAL is `BIT(POS + j)`,
the bits from n up are 0, POS advances by n, and nothing else changes. -/
def Obligations.BcReadResult : Prop :=
  ∀ (s : State) (i : Instr) (n : Nat),
    ((∃ a, i = .bcReadBits a ∧ a.toNat = n) ∨ (i = .bcReadByte ∧ n = 8)) →
    s.sys.faulted = false → 1 ≤ n → n ≤ 32 → s.bc.pos.toNat + n ≤ 2 ^ 32 - 1 →
    ∃ t val, exec i s = .next t ∧ s.Answers t 0x00 val ∧
      (∀ j, j < n → val.getLsbD (n - 1 - j) = s.bc.bit (s.bc.pos.toNat + j)) ∧
      (∀ j, n ≤ j → val.getLsbD j = false) ∧
      t.bc.pos.toNat = s.bc.pos.toNat + n ∧ t.bc.len = s.bc.len ∧ t.bc.buf = s.bc.buf ∧
      t.cfg = s.cfg ∧ t.mf = s.mf ∧ t.tc = s.tc ∧ t.sys = s.sys

/-- `BC.WRITEBITS n, value` and `BC.WRITEBYTE value` (n = 8) that end inside the buffer (40_bitcursor.md R136, R138;
20_memory.md R69): bit index POS + j becomes bit n - 1 - j of value, every other bit of the buffer and every byte
from LEN up stays, POS advances by n, and nothing else changes. -/
def Obligations.BcWriteResult : Prop :=
  ∀ (s : State) (i : Instr) (n : Nat) (value : Word),
    ((∃ a, i = .bcWriteBits a value ∧ a.toNat = n) ∨ (i = .bcWriteByte value ∧ n = 8)) →
    s.bc.buf.wf → s.sys.faulted = false → 1 ≤ n → n ≤ 32 → s.bc.pos.toNat + n ≤ 8 * s.bc.len.toNat →
    s.bc.pos.toNat + n ≤ 2 ^ 32 - 1 →
    ∃ t, exec i s = .next t ∧
      (∀ j, j < n → t.bc.bit (s.bc.pos.toNat + j) = value.getLsbD (n - 1 - j)) ∧
      (∀ k, k < s.bc.pos.toNat ∨ s.bc.pos.toNat + n ≤ k → t.bc.bit k = s.bc.bit k) ∧
      (∀ a, 8 * (a + 1) ≤ s.bc.pos.toNat ∨ s.bc.pos.toNat + n ≤ 8 * a →
        t.bc.buf.read a = s.bc.buf.read a) ∧
      t.bc.pos.toNat = s.bc.pos.toNat + n ∧ t.bc.len = s.bc.len ∧
      t.cfg = s.cfg ∧ t.mf = s.mf ∧ t.tc = s.tc ∧ t.sys = s.sys ∧ s.Answers t 0x00 0

/-- Write then read (40_bitcursor.md R135, R136; inferred by the spec in R139 a): seek, write n bits, seek back,
read n bits returns the low n bits of the value written. -/
def Obligations.WrittenBitsReadBack : Prop :=
  ∀ (s : State) (o value : Word) (n : Byte), s.Inv → s.sys.faulted = false →
    1 ≤ n.toNat → n.toNat ≤ 32 → o.toNat + n.toNat ≤ 8 * s.bc.len.toNat →
    ∃ t, execList [.bcSeek o, .bcWriteBits n value, .bcSeek o, .bcReadBits n] s = some t ∧
      t.port.responses.head? = some ((0x00 : Byte) ++ BitVec.ofNat 32 (value.toNat % 2 ^ n.toNat))

/-- Splitting (40_bitcursor.md R135; inferred by the spec in R139 b): reading n1 then n2 bits returns v1, v2 with
(v1 << n2) or v2 equal to what one read of n1 + n2 bits from the same start returns, and leaves the cursor at the
same place. -/
def Obligations.SplitReadsJoin : Prop :=
  ∀ (s : State) (n1 n2 : Byte), s.sys.faulted = false → 1 ≤ n1.toNat → 1 ≤ n2.toNat →
    n1.toNat + n2.toNat ≤ 32 → s.bc.pos.toNat + (n1.toNat + n2.toNat) ≤ 2 ^ 32 - 1 →
    ∃ (t u : State) (v1 v2 : Word),
      execList [.bcReadBits n1, .bcReadBits n2] s = some t ∧
      t.port.responses = ((0x00 : Byte) ++ v2) :: ((0x00 : Byte) ++ v1) :: s.port.responses ∧
      execList [.bcReadBits (n1 + n2)] s = some u ∧
      u.port.responses = ((0x00 : Byte) ++ ((v1 <<< n2.toNat) ||| v2)) :: s.port.responses ∧
      t.bc = u.bc

/-- Whole words and reads past the end (40_bitcursor.md R134, R135; inferred by the spec in R139 c, d): with POS = 8
* a and a + 4 ≤ LEN a read of 32 bits returns the four bytes from a, first byte most significant; any read with POS
≥ 8 * LEN returns 0. -/
def Obligations.WordReadsAndReadsPastEnd : Prop :=
  (∀ (s : State) (a : Nat), s.Inv → s.sys.faulted = false → s.bc.pos.toNat = 8 * a → a + 4 ≤ s.bc.len.toNat →
    ∃ t val, exec (.bcReadBits 32) s = .next t ∧ s.Answers t 0x00 val ∧
      val.toNat = (s.bc.buf.read a).toNat * 2 ^ 24 + (s.bc.buf.read (a + 1)).toNat * 2 ^ 16 +
        (s.bc.buf.read (a + 2)).toNat * 2 ^ 8 + (s.bc.buf.read (a + 3)).toNat) ∧
  (∀ (s : State) (n : Byte), s.sys.faulted = false → 1 ≤ n.toNat → n.toNat ≤ 32 →
    s.bc.pos.toNat + n.toNat ≤ 2 ^ 32 - 1 → 8 * s.bc.len.toNat ≤ s.bc.pos.toNat →
    ∃ t, exec (.bcReadBits n) s = .next t ∧ s.Answers t 0x00 0)

/-! ### The matcher's commands -/

/-- `MF.CLEAR` outside `RUNNING` (41_matchfinder.md R162): the registers it names; the contents of `IN`, `OUT` and
`STAGE` are not erased. -/
def Obligations.MfClearResult : Prop :=
  ∀ s : State, s.sys.faulted = false → s.mf.st ≠ .running →
    ∃ t, exec .mfClear s = .next t ∧ t.mf.n = 0 ∧ t.mf.p = 0 ∧ t.mf.h = 0 ∧
      (∀ h, t.mf.table.bucket h = []) ∧ t.mf.evq = [] ∧ t.mf.ctrl = 0 ∧ t.mf.fill = 0 ∧ t.mf.slen = 0 ∧
      t.mf.olen = 0 ∧ t.mf.tokens = 0 ∧ t.mf.cancelReq = false ∧ t.mf.st = .idle ∧
      t.mf.inp = s.mf.inp ∧ t.mf.out = s.mf.out ∧ t.mf.stage = s.mf.stage ∧
      t.cfg = s.cfg ∧ t.bc = s.bc ∧ t.tc = s.tc ∧ t.sys = s.sys ∧ s.Answers t 0x00 0

/-- `MF.PUT byte` in `IDLE` with room left (41_matchfinder.md R163): `IN[N]` becomes the byte, N grows by 1, and
nothing else changes. -/
def Obligations.MfPutResult : Prop :=
  ∀ (s : State) (byte : Byte), s.cfg.wf → s.mf.inp.wf → s.sys.faulted = false → s.mf.st = .idle →
    s.mf.n.toNat < s.cfg.inCap →
    ∃ t, exec (.mfPut byte) s = .next t ∧ t.mf.n.toNat = s.mf.n.toNat + 1 ∧
      t.mf.inp.read s.mf.n.toNat = byte ∧
      (∀ a, a ≠ s.mf.n.toNat → t.mf.inp.read a = s.mf.inp.read a) ∧
      t.mf = { s.mf with inp := t.mf.inp, n := t.mf.n } ∧
      t.cfg = s.cfg ∧ t.bc = s.bc ∧ t.tc = s.tc ∧ t.sys = s.sys ∧ s.Answers t 0x00 0

/-- `MF.START` outside `RUNNING` (41_matchfinder.md R161): the matcher cleared but for its input, and `NODATA` or
`RUNNING`; no decision yet. -/
def Obligations.MfStartResult : Prop :=
  ∀ s : State, s.sys.faulted = false → s.mf.st ≠ .running →
    ∃ t, exec .mfStart s = .next t ∧ t.mf.p = 0 ∧ t.mf.h = 0 ∧
      (∀ h, t.mf.table.bucket h = []) ∧ t.mf.evq = [] ∧ t.mf.ctrl = 0 ∧ t.mf.fill = 0 ∧ t.mf.slen = 0 ∧
      t.mf.olen = 0 ∧ t.mf.tokens = 0 ∧ t.mf.cancelReq = false ∧
      (s.mf.n = 0 → t.mf.st = .noData) ∧ (s.mf.n ≠ 0 → t.mf.st = .running) ∧
      t.mf.n = s.mf.n ∧ t.mf.inp = s.mf.inp ∧ t.mf.out = s.mf.out ∧ t.mf.stage = s.mf.stage ∧
      t.cfg = s.cfg ∧ t.bc = s.bc ∧ t.tc = s.tc ∧ t.sys = s.sys ∧ s.Answers t 0x00 0

/-- `MF.CANCEL` (41_matchfinder.md R185): the request bit in `RUNNING`, nothing in any other state. -/
def Obligations.MfCancelResult : Prop :=
  ∀ s : State, s.sys.faulted = false →
    ∃ t, exec .mfCancel s = .next t ∧
      (s.mf.st = .running → t.mf = { s.mf with cancelReq := true }) ∧ (s.mf.st ≠ .running → t.mf = s.mf) ∧
      t.cfg = s.cfg ∧ t.bc = s.bc ∧ t.tc = s.tc ∧ t.sys = s.sys ∧ s.Answers t 0x00 0

/-- `MF.INFO sel`, sel ≤ 6, in every state but the fault state (41_matchfinder.md R187): the register selected, and
nothing changes. |EVQ| is below 2^32 (10_state.md R31). -/
def Obligations.MfInfoResult : Prop :=
  ∀ (s : State) (sel : Byte), s.sys.faulted = false → s.mf.evq.length < 2 ^ 32 → sel.toNat ≤ 6 →
    ∃ t val, exec (.mfInfo sel) s = .next t ∧ s.OnlyAnswers t 0x00 val ∧
      (sel = 0 → val = s.mf.n) ∧ (sel = 1 → val = s.mf.p) ∧ (sel = 2 → val = s.mf.olen) ∧
      (sel = 3 → val = s.mf.tokens) ∧ (sel = 4 → val.toNat = s.mf.evq.length) ∧
      (sel = 5 → val.toNat = s.mf.h.toNat) ∧
      (sel = 6 → val.toNat =
        match s.mf.st with | .idle => 0 | .running => 1 | .done => 2 | .noData => 3 | .aborted => 4)

/-- `MF.GET addr` outside `RUNNING`, addr < OLEN (41_matchfinder.md R188): the byte, and nothing changes. -/
def Obligations.MfGetResult : Prop :=
  ∀ (s : State) (addr : Word), s.sys.faulted = false → s.mf.st ≠ .running → addr.toNat < s.mf.olen.toNat →
    ∃ t val, exec (.mfGet addr) s = .next t ∧ s.OnlyAnswers t 0x00 val ∧
      val.toNat = (s.mf.out.read addr.toNat).toNat

/-! ### The engine -/

/-- The rolling hash (41_matchfinder.md R165; inferred by the spec in R166, log 7): three updates leave the low 6
bits of the first byte and the other two bytes, whatever the register held; the next update gives the hash of the
next seed; and two seeds have the same hash exactly when they agree in all but the top two bits of the first byte.
-/
def Obligations.HashClosedForm : Prop :=
  (∀ (h0 : HashValue) (b0 b1 b2 : Byte),
    (roll (roll (roll h0 b0) b1) b2).toNat = (b0.toNat % 64) * 2 ^ 16 + b1.toNat * 2 ^ 8 + b2.toNat) ∧
  (∀ (inp : Memory) (q : Nat), roll (hashAt inp q) (inp.read (q + 3)) = hashAt inp (q + 1)) ∧
  (∀ (inp : Memory) (q p : Nat), hashAt inp q = hashAt inp p ↔
    (inp.read q).toNat % 64 = (inp.read p).toNat % 64 ∧ inp.read (q + 1) = inp.read (p + 1) ∧
      inp.read (q + 2) = inp.read (p + 2))

/-- Selection (41_matchfinder.md R171 to R173) over a bucket, most recent first: the length found is the greatest
over the valid candidates, the distance the smallest that reaches it. -/
def Obligations.SearchFindsNearestLongest : Prop :=
  ∀ (inp : Memory) (n p : Nat) (bucket : List Nat), bucket.Pairwise (· > ·) →
    (∀ c ∈ bucket, c < p → p - c ≤ 65535 → ∀ len, len ≤ min 258 (n - p) → agreeFor inp c p len →
      len ≤ (searchBucket inp n p bucket).len) ∧
    (0 < (searchBucket inp n p bucket).len →
      (∃ c ∈ bucket, c < p ∧ p - c ≤ 65535 ∧ p - c = (searchBucket inp n p bucket).dist ∧
        (searchBucket inp n p bucket).len ≤ min 258 (n - p) ∧
        agreeFor inp c p (searchBucket inp n p bucket).len) ∧
      (∀ c ∈ bucket, c < p → p - c ≤ 65535 → agreeFor inp c p (searchBucket inp n p bucket).len →
        (searchBucket inp n p bucket).dist ≤ p - c))

/-- What does not change the result of a search (41_matchfinder.md R173; inferred by the spec in R174): stopping at
the first candidate beyond the window; stopping at a match of the greatest possible length; not searching with fewer
than 4 bytes left, where nothing is accepted. -/
def Obligations.SearchMayStopEarly : Prop :=
  (∀ (inp : Memory) (n p : Nat) (bucket : List Nat), bucket.Pairwise (· > ·) →
    searchBucket inp n p (bucket.takeWhile (fun c => p - c ≤ 65535)) = searchBucket inp n p bucket) ∧
  (∀ (inp : Memory) (n p : Nat) (bucket rest : List Nat),
    (searchBucket inp n p bucket).len = min 258 (n - p) →
    searchBucket inp n p (bucket ++ rest) = searchBucket inp n p bucket) ∧
  (∀ (inp : Memory) (n p : Nat) (bucket : List Nat), n - p < 4 → (searchBucket inp n p bucket).len ≤ 3)

/-- Every match slot the block writes obeys the bounds the spec infers from R171 to R173 in 41_matchfinder.md R190:
a decision is a match when the search's length exceeds 3 (R173), and it is staged with that distance and length
(R176). -/
def Obligations.EmittedMatchBounds : Prop :=
  ∀ (cfg : Config) (mf : MF), 3 < mf.search.len →
    1 ≤ mf.search.dist ∧ mf.search.dist ≤ 65535 ∧ mf.search.dist ≤ mf.p.toNat ∧
    4 ≤ mf.search.len ∧ mf.search.len ≤ 258 ∧ mf.p.toNat + mf.search.len ≤ mf.n.toNat ∧
    (mf.emit cfg mf.search).stage = mf.stage.writeBytes mf.slen.toNat
      [BitVec.ofNat 8 (mf.search.dist / 256), BitVec.ofNat 8 mf.search.dist,
        BitVec.ofNat 8 (mf.search.len - 3)]

/-- A step of the running engine that takes a decision and raises no fault (41_matchfinder.md R171 to R173, R176 to
R181). The decision is the match m.dist, m.len of the search m after P is registered, if 3 < m.len, and else the
literal IN[P..P+r) with r = min(3, N - P); by inference from R167, R168 and R171 to R173, it is the longest match
over the window, the nearest of that length. P advances by its size, TOKENS by 1, and the run ends in `DONE` exactly
when P reaches N. A decision that is neither the eighth of its group nor the last is staged and nothing is flushed;
otherwise `OUT` grows at OLEN by the bytes flushed and the open group is empty. Every other byte of `OUT` and
`STAGE`, the input, the request bit and everything outside the matcher stay; H, TABLE and EVQ are those of the
invariant. -/
def Obligations.EngineDecisionEffects : Prop :=
  ∀ s t : State, s.Inv → s.mf.st = .running → s.sys.faulted = false → s.mf.cancelReq = false →
    s.engineTurn = .next t → t.sys = s.sys →
    (s.mf.decision = let m := (s.mf.registerSeed s.mf.p.toNat).search
      if 3 < m.len then .copy m.dist m.len
      else .literal (s.mf.inp.bytes s.mf.p.toNat (min 3 (s.mf.n.toNat - s.mf.p.toNat)))) ∧
    s.mf.BestDecision s.mf.decision ∧
    t.mf.p.toNat = s.mf.p.toNat + s.mf.decision.size ∧ 1 ≤ s.mf.decision.size ∧ s.mf.decision.size ≤ 258 ∧
    t.mf.p.toNat ≤ s.mf.n.toNat ∧ t.mf.tokens.toNat = s.mf.tokens.toNat + 1 ∧
    (t.mf.p = t.mf.n → t.mf.st = .done) ∧ (t.mf.p ≠ t.mf.n → t.mf.st = .running) ∧
    (s.mf.fill.toNat + 1 < 8 → t.mf.p ≠ t.mf.n →
      t.mf.stream = s.mf.stream ∧ t.mf.out = s.mf.out ∧ t.mf.fill.toNat = s.mf.fill.toNat + 1 ∧
      t.mf.ctrl = s.mf.ctrlWith s.cfg s.mf.decision ∧ t.mf.staged = s.mf.staged ++ s.mf.decision.payload) ∧
    (s.mf.fill.toNat + 1 = 8 ∨ t.mf.p = t.mf.n →
      t.mf.stream = s.mf.stream ++
        (s.mf.ctrlWith s.cfg s.mf.decision :: (s.mf.staged ++ s.mf.decision.payload)) ++
        (if s.mf.fill.toNat + 1 = 8 ∧ t.mf.p = t.mf.n ∧ s.cfg.flushEmptyGroup = true then [0] else []) ∧
      t.mf.fill = 0 ∧ t.mf.ctrl = 0 ∧ t.mf.slen = 0) ∧
    (∀ a, a < s.mf.olen.toNat ∨ t.mf.olen.toNat ≤ a → t.mf.out.read a = s.mf.out.read a) ∧
    (∀ a, a < s.mf.slen.toNat ∨ s.mf.slen.toNat + s.mf.decision.payload.length ≤ a →
      t.mf.stage.read a = s.mf.stage.read a) ∧
    (t.mf.evq = t.mf.tracked ∧ (∀ h, t.mf.table.bucket h = t.mf.trackedOf h) ∧
      (0 < t.mf.registered → t.mf.h = hashAt t.mf.inp (t.mf.registered - 1))) ∧
    t.mf.n = s.mf.n ∧ t.mf.inp = s.mf.inp ∧ t.mf.cancelReq = false ∧
    t.cfg = s.cfg ∧ t.bc = s.bc ∧ t.tc = s.tc ∧ t.port = s.port

/-- A step that sees the cancellation request takes no decision (41_matchfinder.md R178, R179, R181): P, TOKENS, the
input, the hash, the table and the queue stay, and the run ends in `ABORTED` with no open group. `OUT` grows at OLEN
by the open group, its control byte and its SLEN staged bytes, which is left out only when it is empty and
`FLUSH_EMPTY_GROUP` is false; every other byte of `OUT`, and all of `STAGE`, stays. -/
def Obligations.EngineCancellationEffects : Prop :=
  ∀ s t : State, s.Inv → s.mf.st = .running → s.sys.faulted = false → s.mf.cancelReq = true →
    s.engineTurn = .next t → t.sys = s.sys →
    t.mf.st = .aborted ∧ t.mf.p = s.mf.p ∧ t.mf.tokens = s.mf.tokens ∧ t.mf.n = s.mf.n ∧
    t.mf.inp = s.mf.inp ∧ t.mf.h = s.mf.h ∧ t.mf.table = s.mf.table ∧ t.mf.evq = s.mf.evq ∧
    t.mf.cancelReq = true ∧ t.mf.fill = 0 ∧ t.mf.ctrl = 0 ∧ t.mf.slen = 0 ∧ t.mf.stage = s.mf.stage ∧
    (0 < s.mf.fill.toNat ∨ s.cfg.flushEmptyGroup = true →
      t.mf.stream = s.mf.stream ++ (s.mf.ctrl :: s.mf.staged) ∧
      t.mf.olen.toNat = s.mf.olen.toNat + 1 + s.mf.slen.toNat) ∧
    (s.mf.fill = 0 ∧ s.cfg.flushEmptyGroup = false → t.mf.olen = s.mf.olen ∧ t.mf.out = s.mf.out) ∧
    (∀ a, a < s.mf.olen.toNat ∨ t.mf.olen.toNat ≤ a → t.mf.out.read a = s.mf.out.read a) ∧
    t.cfg = s.cfg ∧ t.bc = s.bc ∧ t.tc = s.tc ∧ t.port = s.port

/-- When a flush of the step has OLEN + 1 + SLEN > OUT_CAP (41_matchfinder.md R178), and only then, the step raises
`MF_OUT_OVERFLOW`: the fault state is entered with code 0x21, the whole step is void, no response is returned, and
the engine is disabled (60_exceptions.md R281, R284). The flushes are that of the open group on a cancellation
(R179); that of the group with the decision, where it is the eighth or the last (R181); and, after an eighth that is
also the last, that of the empty group, at the OLEN the one before left. -/
def Obligations.EngineOverflowIsPrecise : Prop :=
  ∀ s : State, s.Inv → s.mf.st = .running → s.sys.faulted = false →
    let overflow : State := { s with sys := { faulted := true, faultCode := 0x21 } }
    (s.mf.cancelReq = true → 0 < s.mf.fill.toNat ∨ s.cfg.flushEmptyGroup = true →
      s.cfg.outCap < s.mf.olen.toNat + 1 + s.mf.slen.toNat → s.engineTurn = .next overflow) ∧
    (s.mf.cancelReq = false → s.mf.fillsGroup = true ∨ s.mf.reachesEnd = true →
      s.cfg.outCap < s.mf.olen.toNat + 1 + (s.mf.slen.toNat + s.mf.decision.payload.length) →
      s.engineTurn = .next overflow) ∧
    (s.mf.cancelReq = false → s.mf.fillsGroup = true → s.mf.reachesEnd = true → s.cfg.flushEmptyGroup = true →
      s.cfg.outCap < s.mf.olen.toNat + 1 + (s.mf.slen.toNat + s.mf.decision.payload.length) + 1 →
      s.engineTurn = .next overflow) ∧
    (s.mf.olen.toNat + (s.mf.stepOutput s.cfg).length ≤ s.cfg.outCap →
      ∃ t, s.engineTurn = .next t ∧ t.sys = s.sys) ∧
    overflow.engineEnabled = false

/-! ### The token encoder -/

/-- `TC.INIT mode`, mode ≤ 1 (42_tokencodec.md R221): the policy, every symbol usable, the FIFO empty; `PKT` and the
cursor not touched. -/
def Obligations.TcInitResult : Prop :=
  ∀ (s : State) (mode : Byte), s.sys.faulted = false → mode.toNat ≤ 1 →
    ∃ t, exec (.tcInit mode) s = .next t ∧ t.tc.mode.code.toNat = mode.toNat ∧
      t.tc.usable = List.replicate s.cfg.a5Size true ∧ t.tc.arq = [] ∧ t.tc.pkt = s.tc.pkt ∧
      t.cfg = s.cfg ∧ t.bc = s.bc ∧ t.mf = s.mf ∧ t.sys = s.sys ∧ s.Answers t 0x00 0

/-- `TC.NEXT` in `FIXED6` (42_tokencodec.md R224 to R226): the code is the entry of `SYM6` at the 6-bit value, first
bit most significant; POS advances by 6; the mapping has no state. -/
def Obligations.TcNextFixedResult : Prop :=
  ∀ s : State, s.cfg.wf → s.sys.faulted = false → s.tc.mode = .fixed6 → s.bc.pos.toNat + 6 ≤ 2 ^ 32 - 1 →
    ∃ (t : State) (v : Nat) (code : Byte), exec .tcNext s = .next t ∧
      v < 64 ∧ (∀ j, j < 6 → v.testBit (5 - j) = s.bc.bit (s.bc.pos.toNat + j)) ∧
      s.cfg.sym6[v]? = some code ∧ s.Answers t 0x00 (code.setWidth 32) ∧
      t.bc.pos.toNat = s.bc.pos.toNat + 6 ∧ t.bc.len = s.bc.len ∧ t.bc.buf = s.bc.buf ∧
      t.cfg = s.cfg ∧ t.mf = s.mf ∧ t.tc = s.tc ∧ t.sys = s.sys

/-- `TC.NEXT` in `ANTIREP5` with more usable symbols than the 5-bit value v (42_tokencodec.md R224, R225, R228,
R231): the symbol with exactly v usable symbols before it is selected and pushed; an FIFO that reaches 12 entries
loses its oldest; USABLE is 0 exactly at the indices in the FIFO; POS advances by 5. -/
def Obligations.TcNextAntirepResult : Prop :=
  ∀ s : State, s.Inv → s.sys.faulted = false → s.tc.mode = .antirep5 → s.bc.pos.toNat + 5 ≤ 2 ^ 32 - 1 →
    ∀ v, v < 32 → (∀ j, j < 5 → v.testBit (4 - j) = s.bc.bit (s.bc.pos.toNat + j)) →
    v < s.tc.usable.count true →
    ∃ (t : State) (idx : Nat) (code : Byte), exec .tcNext s = .next t ∧
      s.tc.usable[idx]? = some true ∧ (s.tc.usable.take idx).count true = v ∧
      s.cfg.alpha5[idx]? = some code ∧ s.Answers t 0x00 (code.setWidth 32) ∧
      (s.tc.arq.length < 11 → t.tc.arq = s.tc.arq ++ [idx]) ∧
      (s.tc.arq.length = 11 → t.tc.arq = (s.tc.arq ++ [idx]).tail) ∧
      (∀ i, i < s.cfg.a5Size → (t.tc.usable[i]? = some false ↔ i ∈ t.tc.arq)) ∧
      t.tc.mode = s.tc.mode ∧ t.tc.pkt = s.tc.pkt ∧
      t.bc.pos.toNat = s.bc.pos.toNat + 5 ∧ t.bc.len = s.bc.len ∧ t.bc.buf = s.bc.buf ∧
      t.cfg = s.cfg ∧ t.mf = s.mf ∧ t.sys = s.sys

/-- The faults of a token selection (42_tokencodec.md R225, R229; 60_exceptions.md R288): `BC_POS_OVERFLOW` first,
in both modes; `TC_TOKEN_RANGE` in `ANTIREP5` when fewer than v + 1 symbols are usable; on a fault nothing else
changes. -/
def Obligations.TcNextFaults : Prop :=
  ∀ s : State, s.sys.faulted = false →
    (s.bc.pos.toNat + (if s.tc.mode = .fixed6 then 6 else 5) > 2 ^ 32 - 1 →
      ∃ t, exec .tcNext s = .next t ∧ s.Raises t .bcPosOverflow) ∧
    (s.tc.mode = .antirep5 → s.bc.pos.toNat + 5 ≤ 2 ^ 32 - 1 →
      s.tc.usable.count true ≤ s.bc.bitsAt s.bc.pos.toNat 5 →
      ∃ t, exec .tcNext s = .next t ∧ s.Raises t .tcTokenRange)

/-- `TC.PACKET k` in `FIXED6`, 1 ≤ k ≤ 6 (42_tokencodec.md R226, R240; 30_encoding.md R117), for a table of the 64
entries of 00_scope.md R8: type 0xFF, the modifier, the codes of the k values in order, zeros; POS advances by 6 *
k; nothing else changes. -/
def Obligations.TcPacketFixedResult : Prop :=
  ∀ (s : State) (k : Byte), s.cfg.wf → s.sys.faulted = false → s.tc.mode = .fixed6 → 1 ≤ k.toNat → k.toNat ≤ 6 →
    s.bc.pos.toNat + 6 * k.toNat ≤ 2 ^ 32 - 1 →
    ∃ t, exec (.tcPacket k) s = .next t ∧ t.tc.pkt.length = 8 ∧
      t.tc.pkt[0]? = some 0xFF ∧ t.tc.pkt[1]? = some s.cfg.pktModifier ∧
      (∀ i, i < k.toNat → ∃ code, s.cfg.sym6[s.bc.bitsAt (s.bc.pos.toNat + 6 * i) 6]? = some code ∧
        t.tc.pkt[2 + i]? = some code) ∧
      (∀ i, k.toNat ≤ i → i < 6 → t.tc.pkt[2 + i]? = some 0x00) ∧
      t.tc = { s.tc with pkt := t.tc.pkt } ∧
      t.bc.pos.toNat = s.bc.pos.toNat + 6 * k.toNat ∧ t.bc.len = s.bc.len ∧ t.bc.buf = s.bc.buf ∧
      t.cfg = s.cfg ∧ t.mf = s.mf ∧ t.sys = s.sys ∧ s.Answers t 0x00 0

/-- `TC.PACKET k` in `ANTIREP5` with A5_SIZE ≥ 43, where no selection faults (42_tokencodec.md R228, R231, R240):
the codes are those of the indices selected for the k 5-bit values in order, which are pairwise different; type,
modifier and zeros as 30_encoding.md R117 has them; the FIFO holds the last 11 indices; POS advances by 5 * k. -/
def Obligations.TcPacketAntirepResult : Prop :=
  ∀ (s : State) (k : Byte), s.Inv → s.sys.faulted = false → s.tc.mode = .antirep5 → 43 ≤ s.cfg.a5Size →
    1 ≤ k.toNat → k.toNat ≤ 6 → s.bc.pos.toNat + 5 * k.toNat ≤ 2 ^ 32 - 1 →
    ∃ (t : State) (idxs : List Nat), exec (.tcPacket k) s = .next t ∧ t.tc.pkt.length = 8 ∧
      t.tc.pkt[0]? = some 0xFF ∧ t.tc.pkt[1]? = some s.cfg.pktModifier ∧
      idxs.length = k.toNat ∧ idxs.Nodup ∧
      s.tc.selectAll ((List.range k.toNat).map (fun j => s.bc.bitsAt (s.bc.pos.toNat + 5 * j) 5)) =
        .ok (idxs, { t.tc with pkt := s.tc.pkt }) ∧
      (∀ i, i < k.toNat → ∃ idx, idxs[i]? = some idx ∧ t.tc.pkt[2 + i]? = s.cfg.alpha5[idx]?) ∧
      (∀ i, k.toNat ≤ i → i < 6 → t.tc.pkt[2 + i]? = some 0x00) ∧
      t.tc.arq = (s.tc.arq ++ idxs).drop (s.tc.arq.length + k.toNat - 11) ∧ t.tc.mode = s.tc.mode ∧
      t.bc.pos.toNat = s.bc.pos.toNat + 5 * k.toNat ∧ t.bc.len = s.bc.len ∧ t.bc.buf = s.bc.buf ∧
      t.cfg = s.cfg ∧ t.mf = s.mf ∧ t.sys = s.sys ∧ s.Answers t 0x00 0

/-- `TC.PACKET k` against k × `TC.NEXT` (42_tokencodec.md R240, R241): where the k commands raise no fault, the
packet holds the k codes they return, in order, and leaves the cursor and the anti-repeat state they leave; where
one of them faults, the packet command raises that fault and has no other effect. -/
def Obligations.TcPacketIsRepeatedNext : Prop :=
  ∀ (s u : State) (k : Byte), s.sys.faulted = false → 1 ≤ k.toNat → k.toNat ≤ 6 →
    execList (List.replicate k.toNat .tcNext) s = some u →
    ∃ t, exec (.tcPacket k) s = .next t ∧
      (u.sys.faulted = false →
        t.cfg = s.cfg ∧ t.bc = u.bc ∧ t.mf = s.mf ∧ t.sys = s.sys ∧ s.Answers t 0x00 0 ∧
        ∃ codes : List Byte, codes.length = k.toNat ∧
          u.port.responses =
            (codes.map (fun c => (0x00 : Byte) ++ c.setWidth 32)).reverse ++ s.port.responses ∧
          t.tc = { u.tc with
            pkt := 0xFF :: s.cfg.pktModifier :: (codes ++ List.replicate (6 - k.toNat) 0x00) }) ∧
      (u.sys.faulted = true → ∃ c : Cause, u.sys.faultCode = c.code ∧ s.Raises t c)

/-- `TC.RELEASE` and `TC.RDPKT i`, i ≤ 7 (42_tokencodec.md R242, R243): the release packet, eight bytes of 0, with
the cursor and the anti-repeat state unchanged; the byte of the packet register, with no side effect. -/
def Obligations.TcReleaseAndReadPacket : Prop :=
  (∀ s : State, s.sys.faulted = false →
    ∃ t, exec .tcRelease s = .next t ∧ t.tc = { s.tc with pkt := [0, 0, 0, 0, 0, 0, 0, 0] } ∧
      t.cfg = s.cfg ∧ t.bc = s.bc ∧ t.mf = s.mf ∧ t.sys = s.sys ∧ s.Answers t 0x00 0) ∧
  (∀ (s : State) (i : Byte), s.Inv → s.sys.faulted = false → i.toNat ≤ 7 →
    ∃ t byte, exec (.tcRdPkt i) s = .next t ∧ s.tc.pkt[i.toNat]? = some byte ∧
      s.OnlyAnswers t 0x00 (byte.setWidth 32))

/-- The anti-repeat property (42_tokencodec.md R228, R231; inferred by the spec in R232): in any 12 consecutive
selections all indices differ, from every state of the invariant; the bound is tight: value 0 selected 13 times from
the initial state gives the indices 0, 1, ..., 11, 0. -/
def Obligations.AntirepeatWindow : Prop :=
  (∀ (cfg : Config) (tc tc' : TC) (vs idxs : List Nat), tc.Inv cfg → tc.selectAll vs = .ok (idxs, tc') →
    (∀ j k a b, j < k → k - j ≤ 11 → idxs[j]? = some a → idxs[k]? = some b → a ≠ b) ∧
    (∀ j a, j + tc.arq.length ≤ 11 → idxs[j]? = some a → a ∉ tc.arq)) ∧
  (∀ (cfg : Config) (tc : TC), 12 ≤ cfg.a5Size →
    ∃ tc', (tc.init cfg .antirep5).selectAll (List.replicate 13 0) = .ok (List.range 12 ++ [0], tc'))

/-- No `TC_TOKEN_RANGE` fault can occur when A5_SIZE ≥ 43; with A5_SIZE = 42 the value 31 faults once 11 symbols are
in the FIFO (42_tokencodec.md R229, R231; inferred by the spec in R236). -/
def Obligations.NoTokenRangeFaultFrom43 : Prop :=
  (∀ (s t : State) (i : Instr), s.Inv → s.sys.faulted = false → 43 ≤ s.cfg.a5Size →
    exec i s = .next t → t.sys.faulted = true → t.sys.faultCode ≠ 0x30) ∧
  (∀ s : State, s.Inv → s.sys.faulted = false → s.cfg.a5Size = 42 → s.tc.mode = .antirep5 →
    s.tc.arq.length = 11 → s.bc.pos.toNat + 5 ≤ 2 ^ 32 - 1 → s.bc.bitsAt s.bc.pos.toNat 5 = 31 →
    ∃ t, exec .tcNext s = .next t ∧ s.Raises t .tcTokenRange)

/-- A receiver can invert the selection (42_tokencodec.md R228; inferred by the spec in R238): the index selected
for v is the one usable symbol with exactly v usable symbols below it. -/
def Obligations.ReceiverRecoversValue : Prop :=
  ∀ (tc tc' : TC) (v idx : Nat), tc.select v = .ok (idx, tc') →
    tc.usable[idx]? = some true ∧ (tc.usable.take idx).count true = v ∧
    ∀ i, tc.usable[i]? = some true → (tc.usable.take i).count true = v → i = idx

/-- The lifetime of the anti-repeat state (42_tokencodec.md R222): a step changes `USABLE` or `ARQ` only when it is
a reset or executes `TC.INIT`, or `TC.NEXT` or `TC.PACKET` in mode `ANTIREP5`; so `BC.ALLOC`, `BC.SEEK` and the
engine leave them. -/
def Obligations.AntirepeatStateLifetime : Prop :=
  ∀ s t : State, step s = .next t → ¬(t.tc.usable = s.tc.usable ∧ t.tc.arq = s.tc.arq) →
    s.nextAction.1 = .reset ∨
      ∃ w i, s.nextAction.1 = .command w ∧ decode w = .ok i ∧
        (i = .sysReset ∨ (∃ m, i = .tcInit m) ∨ (s.tc.mode = .antirep5 ∧ i.takesTokens = true))

/-! ### Faults, refusals, reset -/

/-- The fault a command raises of its own (60_exceptions.md R280, in the order of R288): on the cause the command
raises that fault and does nothing else (R281); without it, a command that takes no token is answered `OK` and the
fault state is not entered. The codes are the 15 of 30_encoding.md R93. That a write with POS + n > 2^32 - 1 raises
`BC_POS_OVERFLOW` and not `BC_WRITE_PAST_END` is the model's choice (log 14). -/
def Obligations.CommandFaults : Prop :=
  (∀ (s : State) (i : Instr), s.sys.faulted = false →
    ¬(s.mf.st = .running ∧ i.refusedWhileRunning = true) →
    (∀ c, s.ownFault i = some c → ∃ t, exec i s = .next t ∧ s.Raises t c) ∧
    (s.ownFault i = none → i.takesTokens = false →
      ∃ t val, exec i s = .next t ∧ t.sys.faulted = false ∧ s.Answers t 0x00 val)) ∧
  (Cause.illegalCmd.code = 0x10 ∧ Cause.bcAllocRange.code = 0x11 ∧ Cause.bcSeekRange.code = 0x12 ∧
    Cause.bcBadWidth.code = 0x13 ∧ Cause.bcWritePastEnd.code = 0x14 ∧ Cause.bcPosOverflow.code = 0x15 ∧
    Cause.mfInOverflow.code = 0x20 ∧ Cause.mfOutOverflow.code = 0x21 ∧ Cause.mfAddrRange.code = 0x22 ∧
    Cause.mfBadSelector.code = 0x23 ∧ Cause.mfBadState.code = 0x24 ∧ Cause.tcTokenRange.code = 0x30 ∧
    Cause.tcBadCount.code = 0x31 ∧ Cause.tcBadMode.code = 0x32 ∧ Cause.tcBadIndex.code = 0x33)

/-- Faults are precise (60_exceptions.md R281): a command word, legal or not, that enters the fault state changes
nothing but the two fault registers, whose code is its response code with VAL = 0; an engine step that enters it
changes nothing but the two fault registers, and there is no response. -/
def Obligations.FaultsArePrecise : Prop :=
  (∀ (s t : State) (w : CmdWord), s.sys.faulted = false → step (s.withFetchWord 48 w.toNat) = .next t →
    t.sys.faulted = true → ∃ c : Cause, s.Raises t c) ∧
  (∀ s t : State, s.sys.faulted = false → s.engineTurn = .next t → t.sys.faulted = true →
    ∃ c : Cause, t = { s with sys := { faulted := true, faultCode := c.code } })

/-- The `FAULTED` refusal (60_exceptions.md R282): in the fault state every command word is answered RC = 0x02, VAL
= 0, and changes nothing, an illegal word too, except the three legal system commands, which execute normally. -/
def Obligations.FaultedBlockRefuses : Prop :=
  ∀ (s : State) (w : CmdWord), s.sys.faulted = true →
    ∃ t, step (s.withFetchWord 48 w.toNat) = .next t ∧
      ((∀ i, decode w = .ok i → i.system = false) → s.OnlyAnswers t 0x02 0) ∧
      (decode w = .ok .sysNop → s.OnlyAnswers t 0x00 0) ∧
      (decode w = .ok .sysStatus → s.OnlyAnswers t 0x00 s.statusWord) ∧
      (decode w = .ok .sysReset → t.HasResetValues ∧ s.Answers t 0x00 0)

/-- Leaving the fault state (60_exceptions.md R283): a step that is neither the hardware reset nor a `SYS.RESET`
changes nothing of a faulted block (the engine takes no step, no command that could fault executes), so FAULT_CODE
holds the first and only fault; either reset clears FAULTED and FAULT_CODE and leaves every register at its reset
value. -/
def Obligations.OnlyResetLeavesFaultState : Prop :=
  ∀ s t : State, s.sys.faulted = true → step s = .next t →
    (s.nextAction.1 = .reset ∨ (∃ w, s.nextAction.1 = .command w ∧ decode w = .ok .sysReset) →
      t.HasResetValues ∧ t.cfg = s.cfg) ∧
    (¬(s.nextAction.1 = .reset ∨ (∃ w, s.nextAction.1 = .command w ∧ decode w = .ok .sysReset)) →
      t.block = s.block)

/-- The `BUSY` refusal (60_exceptions.md R285): while `RUNNING` and not faulted, `MF.START`, `MF.CLEAR`, `MF.PUT`
and `MF.GET` are answered RC = 0x01, VAL = 0, and change nothing; no other command is. -/
def Obligations.BusyRefusals : Prop :=
  ∀ (s : State) (i : Instr), s.sys.faulted = false → s.mf.st = .running →
    ∃ t rc val, exec i s = .next t ∧ s.Answers t rc val ∧
      (i.refusedWhileRunning = true → rc = 0x01 ∧ val = 0 ∧ t.block = s.block) ∧
      (i.refusedWhileRunning = false → rc ≠ 0x01)

/-- Ownership while a compression runs (20_memory.md R76, 41_matchfinder.md R182): no command but a reset changes
anything of the matcher, except that `MF.CANCEL` sets the request bit. -/
def Obligations.RunningMatcherBelongsToEngine : Prop :=
  ∀ (s t : State) (i : Instr), s.mf.st = .running → s.sys.faulted = false → i ≠ .sysReset →
    exec i s = .next t →
    t.mf = s.mf ∨ (i = .mfCancel ∧ t.mf = { s.mf with cancelReq := true })

/-- `BC` and `TC` share nothing with the engine (20_memory.md R75, R76): a command of theirs and an engine step,
neither of which faults, give the same state in either order. -/
def Obligations.CursorAndTokenCommandsCommuteWithEngine : Prop :=
  ∀ (s t1 t u : State) (i : Instr), i.cursorOrToken = true → s.sys.faulted = false →
    exec i s = .next t1 → t1.sys.faulted = false → t1.engineTurn = .next t →
    s.engineTurn = .next u → u.sys.faulted = false → exec i u = .next t

/-- The transitions of `MF_STATE` (41_matchfinder.md R161, R162, R181; the spec's table R184, inferred from them),
by command and by engine step. -/
def Obligations.MfStateTransitions : Prop :=
  (∀ (s t : State) (i : Instr), exec i s = .next t →
    (i = .sysReset → t.mf.st = .idle) ∧
    (i = .mfClear → s.sys.faulted = false → s.mf.st ≠ .running → t.mf.st = .idle) ∧
    (i = .mfStart → s.sys.faulted = false → s.mf.st ≠ .running →
      (s.mf.n = 0 → t.mf.st = .noData) ∧ (s.mf.n ≠ 0 → t.mf.st = .running)) ∧
    (i ≠ .sysReset → i ≠ .mfClear ∧ i ≠ .mfStart ∨ s.sys.faulted = true ∨ s.mf.st = .running →
      t.mf.st = s.mf.st)) ∧
  (∀ s t : State, s.mf.st = .running → s.sys.faulted = false → s.engineTurn = .next t → t.sys = s.sys →
    (s.mf.cancelReq = true → t.mf.st = .aborted) ∧
    (s.mf.cancelReq = false → t.mf.p = t.mf.n → t.mf.st = .done) ∧
    (s.mf.cancelReq = false → t.mf.p ≠ t.mf.n → t.mf.st = .running))

/-- No step changes the configuration, resets among them (70_reset_and_hazards.md R322). -/
def Obligations.ConfigurationNeverChanges : Prop :=
  ∀ s t : State, step s = .next t → t.cfg = s.cfg

/-! ### Invariants and whole runs -/

/-- The invariant holds after reset, for every configuration within the spec's constraints, and for the
configuration of `State.reset` (its capacities and tables are the model's choice, log 4). -/
def Obligations.ResetSatisfiesInvariant : Prop :=
  (∀ cfg : Config, cfg.wf → (State.resetWith cfg).Inv ∧ (State.resetWith cfg).StreamInv) ∧
  State.reset.Inv ∧ State.reset.StreamInv

/-- Every step keeps the invariant: the capacities and ranges of 10_state.md R25 to R36, the table and queue of R32,
the anti-repeat state of R45, and the canonical form of the memories. -/
def Obligations.StepKeepsInvariant : Prop :=
  ∀ s t : State, s.Inv → step s = .next t → t.Inv

/-- From a state of the invariant a step always answers a next state: nothing the host sends and no engine step
stops the model. -/
def Obligations.StepNeverStops : Prop :=
  ∀ s : State, s.Inv → ∃ t, step s = .next t

/-- The invariant gives the properties of `TABLE` and `EVQ` that the spec infers from 41_matchfinder.md R167, R168
and R181 in 10_state.md R32, between two events: (a) the positions in the buckets are those in the queue, each once;
(b) the queue holds consecutive positions, at most 65538; (c) every position is in the bucket of its hash and has a
complete seed; (d) buckets are strictly decreasing, and the oldest tracked position is the last of its bucket. -/
def Obligations.TableAndQueueProperties : Prop :=
  ∀ (cfg : Config) (mf : MF), mf.Inv cfg →
    (∀ q, q ∈ mf.evq ↔ ∃ h, q ∈ mf.table.bucket h) ∧ mf.evq.Nodup ∧ (∀ h, (mf.table.bucket h).Nodup) ∧
    (∀ h h' q, q ∈ mf.table.bucket h → q ∈ mf.table.bucket h' → h = h') ∧
    (∃ lo, mf.evq = List.range' lo mf.evq.length) ∧ mf.evq.length ≤ 65538 ∧
    (∀ h, ∀ q ∈ mf.table.bucket h, (hashAt mf.inp q).toNat = h ∧ q + 3 ≤ mf.n.toNat) ∧
    (∀ h, (mf.table.bucket h).Pairwise (· > ·)) ∧
    (∀ o, mf.evq.head? = some o → (mf.table.bucket (hashAt mf.inp o).toNat).getLast? = some o)

/-- Every step keeps what the output stream means: the decisions emitted so far stand for `IN[0..P)`, `OUT` holds
their full groups, and at the end of a run the whole stream (41_matchfinder.md R181 to R183, 20_memory.md R77).
While a compression runs, a step that is no reset keeps the decisions there are, adding at most the one decided at
P, and keeps `OUT[0..OLEN)`; OLEN grows only in an engine step, by what it flushes. -/
def Obligations.StepKeepsStreamInvariant : Prop :=
  ∀ s t : State, s.Inv → s.StreamInv → step s = .next t →
    t.StreamInv ∧
    (s.mf.st = .running → t.mf.st ≠ .idle →
      (∀ slots, s.mf.Emitted s.cfg slots →
        (t.mf.tokens = s.mf.tokens ∧ t.mf.Emitted t.cfg slots) ∨
        (t.mf.tokens.toNat = s.mf.tokens.toNat + 1 ∧ t.mf.Emitted t.cfg (slots ++ [s.mf.decision]))) ∧
      (∀ a, a < s.mf.olen.toNat → t.mf.out.read a = s.mf.out.read a) ∧
      ((t.mf.olen = s.mf.olen ∧ t.mf.out = s.mf.out) ∨
        (s.nextAction.1 = .engine ∧ t.mf.stream = s.mf.stream ++ s.mf.stepOutput s.cfg)))

/-- The reference decoder reads every stream of valid slots (30_encoding.md R101 to R112): it returns the bytes the
slots stand for, and consumes the whole stream but for a trailing empty group. -/
def Obligations.DecoderReadsFinalStream : Prop :=
  ∀ (cfg : Config) (n : Nat) (slots : List Slot), slotsValid n [] slots →
    decodeStream cfg.ctrlBitOrder (finalStream cfg slots) (expandFrom [] slots).length =
      .ok (expandFrom [] slots,
        if openSlots slots = [] ∧ cfg.flushEmptyGroup = true then (finalStream cfg slots).length - 1
        else (finalStream cfg slots).length)

/-- Round trip (30_encoding.md R110, inferred by the spec in R111; for a cancelled run 41_matchfinder.md R183): in
`DONE` the stream `OUT[0..OLEN)` decodes to the whole input, in `ABORTED` to `IN[0..P)`, and the decoder consumes
all of it but for a trailing empty group. -/
def Obligations.EndedStreamDecodesToInput : Prop :=
  ∀ s : State, s.Inv → s.StreamInv → s.mf.st = .done ∨ s.mf.st = .aborted →
    ∃ used, decodeStream s.cfg.ctrlBitOrder s.mf.stream s.mf.p.toNat =
        .ok (s.mf.inp.bytes 0 s.mf.p.toNat, used) ∧
      (used = s.mf.stream.length ∨ used + 1 = s.mf.stream.length) ∧
      (s.mf.st = .done → s.mf.p = s.mf.n)

/-- Size of the output (41_matchfinder.md R176 to R181; inferred by the spec in R189): at `DONE` OLEN ≤ N +
floor(ceil(N / 3) / 8) + 1, and an engine step raises no `MF_OUT_OVERFLOW` when OUT_CAP is at least this bound for N
= IN_CAP. -/
def Obligations.OutputSizeBound : Prop :=
  ∀ s : State, s.Inv → s.StreamInv →
    (s.mf.st = .done → s.mf.olen.toNat ≤ s.mf.n.toNat + (s.mf.n.toNat + 2) / 3 / 8 + 1) ∧
    (s.mf.st = .running → s.sys.faulted = false →
      s.cfg.inCap + (s.cfg.inCap + 2) / 3 / 8 + 1 ≤ s.cfg.outCap →
      ∃ t, s.engineTurn = .next t ∧ t.sys.faulted = false)

/-- Every compression ends (41_matchfinder.md R181; inferred by the spec in 70_reset_and_hazards.md R340): with
nothing for the host to send, a running, unfaulted block is after at most N - P steps no longer `RUNNING`, or
faulted. -/
def Obligations.CompressionEnds : Prop :=
  ∀ s : State, s.Inv → s.mf.st = .running → s.sys.faulted = false →
    s.port.pending = [] → s.port.schedule = [] →
    ∃ k t, k ≤ s.mf.n.toNat - s.mf.p.toNat ∧ Sys2Proof.core.run k s = .next t ∧
      (t.mf.st ≠ .running ∨ t.sys.faulted = true)

/-- The contents 10_state.md R52 calls unobservable cannot be observed (70_reset_and_hazards.md R320): two states of
the invariant that differ at most in bytes at and above LEN, N, SLEN and OLEN step to two such states, with the same
responses. -/
def Obligations.UnspecifiedContentsNeverShow : Prop :=
  ∀ s t s' : State, s.Inv → t.Inv → s.LooksLike t → step s = .next s' →
    ∃ t', step t = .next t' ∧ s'.LooksLike t'
end

