-- ==== Sys2Proof/Laws/Cells.lean ====
section
/-! SUPPORT. The laws of the sparse cells, and of the memories and the table built on them: a read after a
write, and that every operation keeps the canonical form. -/

namespace Sys2Proof.Machine

section
variable {α : Type} {d : α}

@[simp] theorem cellGet_nil (a : Nat) : cellGet d [] a = d := rfl

theorem cellGet_of_forall_ne {cs : List (Nat × α)} {a : Nat} (h : ∀ c ∈ cs, c.1 ≠ a) :
    cellGet d cs a = d := by
  induction cs with
  | nil => rfl
  | cons c cs ih =>
    have hc : c.1 ≠ a := h c (by simp)
    simp only [cellGet, if_neg hc]
    exact ih fun x hx => h x (by simp [hx])

theorem cellGet_of_mem {cs : List (Nat × α)} (hp : cs.Pairwise (fun x y => x.1 < y.1))
    {c : Nat × α} (hc : c ∈ cs) : cellGet d cs c.1 = c.2 := by
  induction cs with
  | nil => simp at hc
  | cons x cs ih =>
    rw [List.pairwise_cons] at hp
    rcases List.mem_cons.1 hc with rfl | hc'
    · simp [cellGet]
    · have : x.1 ≠ c.1 := Nat.ne_of_lt (hp.1 c hc')
      simp only [cellGet, if_neg this]
      exact ih hp.2 hc'

variable [DecidableEq α]

theorem mem_cellSet {cs : List (Nat × α)} {a : Nat} {x : α} {c : Nat × α} (h : c ∈ cellSet d cs a x) :
    c ∈ cs ∨ (c = (a, x) ∧ x ≠ d) := by
  induction cs with
  | nil =>
    simp only [cellSet] at h
    split at h <;> simp_all
  | cons y cs ih =>
    simp only [cellSet] at h
    split at h
    · rcases List.mem_cons.1 h with rfl | h
      · simp
      · rcases ih h with h | h <;> simp [h]
    · split at h
      · split at h
        · simp [h]
        · rcases List.mem_cons.1 h with rfl | h <;> simp_all
      · split at h
        · exact .inl h
        · rcases List.mem_cons.1 h with rfl | h <;> simp_all

theorem cellsWf_cellSet {cs : List (Nat × α)} (hw : cellsWf d cs) (a : Nat) (x : α) :
    cellsWf d (cellSet d cs a x) := by
  refine ⟨?_, fun c hc => ?_⟩
  · have hp := hw.1
    clear hw
    induction cs with
    | nil => simp only [cellSet]; split <;> simp
    | cons y cs ih =>
      rw [List.pairwise_cons] at hp
      simp only [cellSet]
      split
      · rename_i hlt
        rw [List.pairwise_cons]
        refine ⟨fun z hz => ?_, ih hp.2⟩
        rcases mem_cellSet hz with hz | ⟨rfl, -⟩
        · exact hp.1 z hz
        · exact hlt
      · split
        · rename_i heq
          split
          · exact hp.2
          · rw [List.pairwise_cons]
            refine ⟨fun z hz => ?_, hp.2⟩
            have := hp.1 z hz
            simp only at *
            omega
        · split
          · exact List.pairwise_cons.2 hp
          · rw [List.pairwise_cons]
            refine ⟨fun z hz => ?_, List.pairwise_cons.2 hp⟩
            rcases List.mem_cons.1 hz with rfl | hz
            · simp only at *; omega
            · have := hp.1 z hz
              simp only at *
              omega
  · rcases mem_cellSet hc with hc | ⟨rfl, hne⟩
    · exact hw.2 c hc
    · exact hne

/-- A read after a write: the value written there, and everywhere else what was there before. -/
theorem cellGet_cellSet {cs : List (Nat × α)} (hw : cellsWf d cs) (a : Nat) (x : α) (b : Nat) :
    cellGet d (cellSet d cs a x) b = if b = a then x else cellGet d cs b := by
  have hp := hw.1
  clear hw
  induction cs with
  | nil =>
    simp only [cellSet]
    split
    · rename_i hx; subst hx; simp
    · simp only [cellGet, eq_comm]
  | cons y cs ih =>
    have hp' := hp
    rw [List.pairwise_cons] at hp
    have hafter : ∀ {k : Nat}, k ≤ y.1 → cellGet d cs k = d := fun hk =>
      cellGet_of_forall_ne fun z hz => by have := hp.1 z hz; omega
    simp only [cellSet]
    split
    · rename_i hlt
      by_cases hb : y.1 = b
      · have : b ≠ a := by omega
        simp [cellGet, hb, this]
      · simp only [cellGet, if_neg hb]
        exact ih hp.2
    · split
      · rename_i hge heq
        split
        · rename_i hx
          subst hx
          by_cases hb : b = a
          · subst hb; rw [if_pos rfl]; exact hafter (by omega)
          · have : y.1 ≠ b := by omega
            rw [if_neg hb]; simp [cellGet, this]
        · by_cases hb : b = a
          · subst hb; simp [cellGet]
          · have h1 : y.1 ≠ b := by omega
            have h2 : a ≠ b := by omega
            simp [cellGet, h1, h2, hb]
      · rename_i hge hne
        have hgt : a < y.1 := by omega
        split
        · rename_i hx
          subst hx
          by_cases hb : b = a
          · subst hb
            have : y.1 ≠ b := by omega
            rw [if_pos rfl]
            simp only [cellGet, if_neg this]
            exact hafter (by omega)
          · rw [if_neg hb]
        · by_cases hb : b = a
          · subst hb; simp [cellGet]
          · have h2 : a ≠ b := fun h => hb h.symm
            simp [cellGet, h2, hb]

omit [DecidableEq α] in
/-- Equal contents in canonical form are equal lists. -/
theorem cells_ext {cs ds : List (Nat × α)} (hc : cellsWf d cs) (hd : cellsWf d ds)
    (h : ∀ a, cellGet d cs a = cellGet d ds a) : cs = ds := by
  induction cs generalizing ds with
  | nil =>
    cases ds with
    | nil => rfl
    | cons y ds =>
      have := h y.1
      simp [cellGet] at this
      exact absurd this.symm (hd.2 y (by simp))
  | cons x cs ih =>
    cases ds with
    | nil =>
      have := h x.1
      simp [cellGet] at this
      exact absurd this (hc.2 x (by simp))
    | cons y ds =>
      have hcp := List.pairwise_cons.1 hc.1
      have hdp := List.pairwise_cons.1 hd.1
      have hx := h x.1
      have hy := h y.1
      have hxd := hc.2 x (by simp)
      have hyd := hd.2 y (by simp)
      have hkey : x.1 = y.1 := by
        rcases Nat.lt_trichotomy x.1 y.1 with hlt | heq | hgt
        · exfalso
          have h1 : cellGet d ds x.1 = d := cellGet_of_forall_ne fun z hz => by
            have := hdp.1 z hz; omega
          have h2 : y.1 ≠ x.1 := by omega
          simp [cellGet, h2, h1] at hx
          exact hxd hx
        · exact heq
        · exfalso
          have h1 : cellGet d cs y.1 = d := cellGet_of_forall_ne fun z hz => by
            have := hcp.1 z hz; omega
          have h2 : x.1 ≠ y.1 := by omega
          simp [cellGet, h2, h1] at hy
          exact hyd hy.symm
      have hval : x.2 = y.2 := by simpa [cellGet, hkey] using hx
      have htail : cs = ds := by
        refine ih ⟨hcp.2, fun c hc' => hc.2 c (by simp [hc'])⟩ ⟨hdp.2, fun c hc' => hd.2 c (by simp [hc'])⟩
          fun a => ?_
        by_cases ha : x.1 = a
        · rw [cellGet_of_forall_ne fun z hz => by have := hcp.1 z hz; omega,
            cellGet_of_forall_ne fun z hz => by have := hdp.1 z hz; omega]
        · have := h a
          have ha' : y.1 ≠ a := hkey ▸ ha
          simpa [cellGet, ha, ha'] using this
      rw [htail, Prod.ext hkey hval]

end

/-! ### Byte memories -/

@[simp] theorem Memory.read_nil (a : Nat) : Memory.read [] a = 0 := rfl

theorem Memory.wf_nil : Memory.wf [] := ⟨List.Pairwise.nil, fun _ h => absurd h List.not_mem_nil⟩

theorem Memory.wf_write {m : Memory} (h : m.wf) (a : Nat) (v : Byte) : (m.write a v).wf :=
  cellsWf_cellSet h a v

theorem Memory.read_write {m : Memory} (h : m.wf) (a : Nat) (v : Byte) (b : Nat) :
    (m.write a v).read b = if b = a then v else m.read b := cellGet_cellSet h a v b

theorem Memory.ext_read {m m' : Memory} (h : m.wf) (h' : m'.wf) (he : ∀ a, m.read a = m'.read a) : m = m' :=
  cells_ext h h' he

theorem Memory.wf_writeBytes {m : Memory} (h : m.wf) (a : Nat) (bs : List Byte) : (m.writeBytes a bs).wf := by
  induction bs generalizing m a with
  | nil => exact h
  | cons b bs ih => exact ih (Memory.wf_write h a b) (a + 1)

/-- Consecutive bytes written: each lies where it was put, every other address is left alone. -/
theorem Memory.read_writeBytes {m : Memory} (h : m.wf) (a : Nat) (bs : List Byte) (x : Nat) :
    (m.writeBytes a bs).read x =
      if a ≤ x ∧ x < a + bs.length then bs.getD (x - a) 0 else m.read x := by
  induction bs generalizing m a with
  | nil =>
    have : ¬(a ≤ x ∧ x < a + ([] : List Byte).length) := by simp
    rw [if_neg this, Memory.writeBytes]
  | cons b bs ih =>
    rw [Memory.writeBytes, ih (Memory.wf_write h a b) (a + 1), Memory.read_write h]
    by_cases hx : x = a
    · subst hx
      have : ¬(x + 1 ≤ x ∧ x < x + 1 + bs.length) := by omega
      simp
    · by_cases hin : a + 1 ≤ x ∧ x < a + 1 + bs.length
      · have h2 : a ≤ x ∧ x < a + (b :: bs).length := by simp only [List.length_cons]; omega
        have h3 : x - a = x - (a + 1) + 1 := by omega
        rw [if_pos hin, if_pos h2, h3, List.getD_cons_succ]
      · have h2 : ¬(a ≤ x ∧ x < a + (b :: bs).length) := by simp only [List.length_cons]; omega
        rw [if_neg hin, if_neg hx, if_neg h2]

@[simp] theorem Memory.length_bytes (m : Memory) (a n : Nat) : (m.bytes a n).length = n := by
  simp [Memory.bytes]

theorem Memory.bytes_zero (m : Memory) (a : Nat) : m.bytes a 0 = [] := rfl

theorem Memory.getElem_bytes (m : Memory) (a n j : Nat) (h : j < (m.bytes a n).length) :
    (m.bytes a n)[j] = m.read (a + j) := by
  simp [Memory.bytes]

theorem Memory.bytes_congr {m m' : Memory} {a n : Nat} (h : ∀ x, a ≤ x → x < a + n → m.read x = m'.read x) :
    m.bytes a n = m'.bytes a n := by
  refine List.ext_getElem (by simp) fun j hj _ => ?_
  rw [Memory.getElem_bytes, Memory.getElem_bytes]
  rw [Memory.length_bytes] at hj
  exact h _ (by omega) (by omega)

theorem Memory.bytes_append (m : Memory) (a n k : Nat) :
    m.bytes a (n + k) = m.bytes a n ++ m.bytes (a + n) k := by
  refine List.ext_getElem (by simp) fun j hj _ => ?_
  rw [Memory.getElem_bytes, List.getElem_append]
  simp only [Memory.length_bytes]
  split
  · rw [Memory.getElem_bytes]
  · rw [Memory.getElem_bytes]
    congr 1
    omega

theorem Memory.wf_zeroFill {m : Memory} (h : m.wf) (n : Nat) : (m.zeroFill n).wf :=
  ⟨h.1.filter _, fun c hc => h.2 c (List.mem_filter.1 hc).1⟩

/-- A zero fill: 0 below the length, and from there up what was there before. -/
theorem Memory.read_zeroFill {m : Memory} (h : m.wf) (n a : Nat) :
    (m.zeroFill n).read a = if a < n then 0 else m.read a := by
  split
  · refine cellGet_of_forall_ne fun c hc => ?_
    have := (List.mem_filter.1 hc).2
    simp only [decide_eq_true_eq] at this
    omega
  · rename_i hn
    have hp := h.1
    clear h
    unfold Memory.zeroFill Memory.read
    induction m with
    | nil => rfl
    | cons c m ih =>
      rw [List.pairwise_cons] at hp
      by_cases hc : n ≤ c.1
      · simp only [List.filter_cons, hc, decide_true, if_true, cellGet]
        split
        · rfl
        · exact ih hp.2
      · have : c.1 ≠ a := by omega
        simp only [List.filter_cons, hc, decide_false, cellGet, if_neg this]
        exact ih hp.2

/-! ### The table -/

@[simp] theorem Table.bucket_nil (h : Nat) : Table.bucket [] h = [] := rfl

theorem Table.wf_nil : Table.wf [] := ⟨List.Pairwise.nil, fun _ h => absurd h List.not_mem_nil⟩

theorem Table.wf_put {t : Table} (hw : t.wf) (h : Nat) (ps : List Nat) : (t.put h ps).wf :=
  cellsWf_cellSet hw h ps

theorem Table.bucket_put {t : Table} (hw : t.wf) (h : Nat) (ps : List Nat) (k : Nat) :
    (t.put h ps).bucket k = if k = h then ps else t.bucket k := cellGet_cellSet hw h ps k

end Sys2Proof.Machine
end

