-- ==== Sys2Proof/Laws/State.lean ====
section
/-! SUPPORT. One lemma per field per update of the state, true by rfl, so that no proof unfolds a record
update. -/

namespace Sys2Proof.Machine

variable (s : State) (rc : Byte) (val : Word) (c : Cause) (cfg : Config)

@[simp] theorem State.respond_cfg : (s.respond rc val).cfg = s.cfg := rfl
@[simp] theorem State.respond_bc : (s.respond rc val).bc = s.bc := rfl
@[simp] theorem State.respond_mf : (s.respond rc val).mf = s.mf := rfl
@[simp] theorem State.respond_tc : (s.respond rc val).tc = s.tc := rfl
@[simp] theorem State.respond_sys : (s.respond rc val).sys = s.sys := rfl
@[simp] theorem State.respond_pending : (s.respond rc val).port.pending = s.port.pending := rfl
@[simp] theorem State.respond_schedule : (s.respond rc val).port.schedule = s.port.schedule := rfl
@[simp] theorem State.respond_turn : (s.respond rc val).port.turn = s.port.turn := rfl
@[simp] theorem State.respond_responses : (s.respond rc val).port.responses = rspWord rc val :: s.port.responses := rfl
@[simp] theorem State.enterFault_cfg : (s.enterFault c).cfg = s.cfg := rfl
@[simp] theorem State.enterFault_bc : (s.enterFault c).bc = s.bc := rfl
@[simp] theorem State.enterFault_mf : (s.enterFault c).mf = s.mf := rfl
@[simp] theorem State.enterFault_tc : (s.enterFault c).tc = s.tc := rfl
@[simp] theorem State.enterFault_port : (s.enterFault c).port = s.port := rfl
@[simp] theorem State.enterFault_faulted : (s.enterFault c).sys.faulted = true := rfl
@[simp] theorem State.enterFault_faultCode : (s.enterFault c).sys.faultCode = c.code := rfl
@[simp] theorem State.raiseFault_cfg : (s.raiseFault c).cfg = s.cfg := rfl
@[simp] theorem State.raiseFault_bc : (s.raiseFault c).bc = s.bc := rfl
@[simp] theorem State.raiseFault_mf : (s.raiseFault c).mf = s.mf := rfl
@[simp] theorem State.raiseFault_tc : (s.raiseFault c).tc = s.tc := rfl
@[simp] theorem State.raiseFault_faulted : (s.raiseFault c).sys.faulted = true := rfl
@[simp] theorem State.raiseFault_faultCode : (s.raiseFault c).sys.faultCode = c.code := rfl
@[simp] theorem State.raiseFault_pending : (s.raiseFault c).port.pending = s.port.pending := rfl
@[simp] theorem State.raiseFault_schedule : (s.raiseFault c).port.schedule = s.port.schedule := rfl
@[simp] theorem State.raiseFault_turn : (s.raiseFault c).port.turn = s.port.turn := rfl
@[simp] theorem State.raiseFault_responses : (s.raiseFault c).port.responses = rspWord c.code 0 :: s.port.responses := rfl
@[simp] theorem State.resetBlock_cfg : s.resetBlock.cfg = s.cfg := rfl
@[simp] theorem State.resetBlock_port : s.resetBlock.port = s.port := rfl
@[simp] theorem State.resetBlock_bc : s.resetBlock.bc = BC.reset := rfl
@[simp] theorem State.resetBlock_mf : s.resetBlock.mf = MF.reset := rfl
@[simp] theorem State.resetBlock_tc : s.resetBlock.tc = TC.reset s.cfg := rfl
@[simp] theorem State.resetBlock_sys : s.resetBlock.sys = SYS.reset := rfl
@[simp] theorem State.resetWith_cfg : (State.resetWith cfg).cfg = cfg := rfl
@[simp] theorem State.resetWith_bc : (State.resetWith cfg).bc = BC.reset := rfl
@[simp] theorem State.resetWith_mf : (State.resetWith cfg).mf = MF.reset := rfl
@[simp] theorem State.resetWith_tc : (State.resetWith cfg).tc = TC.reset cfg := rfl
@[simp] theorem State.resetWith_sys : (State.resetWith cfg).sys = SYS.reset := rfl
@[simp] theorem State.resetWith_port : (State.resetWith cfg).port = Port.reset := rfl
@[simp] theorem State.withFetchWord_cfg (nbits w : Nat) : (s.withFetchWord nbits w).cfg = s.cfg := rfl
@[simp] theorem State.withFetchWord_bc (nbits w : Nat) : (s.withFetchWord nbits w).bc = s.bc := rfl
@[simp] theorem State.withFetchWord_mf (nbits w : Nat) : (s.withFetchWord nbits w).mf = s.mf := rfl
@[simp] theorem State.withFetchWord_tc (nbits w : Nat) : (s.withFetchWord nbits w).tc = s.tc := rfl
@[simp] theorem State.withFetchWord_sys (nbits w : Nat) : (s.withFetchWord nbits w).sys = s.sys := rfl

/-! ### The cursor -/

@[simp] theorem BC.advance_buf (b : BC) (n : Nat) : (b.advance n).buf = b.buf := rfl
@[simp] theorem BC.advance_len (b : BC) (n : Nat) : (b.advance n).len = b.len := rfl
@[simp] theorem BC.advance_pos (b : BC) (n : Nat) : (b.advance n).pos = b.pos + BitVec.ofNat 32 n := rfl

/-! ### The matcher -/

@[simp] theorem MF.insert_inp (m : MF) (q : Nat) : (m.insert q).inp = m.inp := rfl
@[simp] theorem MF.insert_n (m : MF) (q : Nat) : (m.insert q).n = m.n := rfl
@[simp] theorem MF.insert_p (m : MF) (q : Nat) : (m.insert q).p = m.p := rfl
@[simp] theorem MF.insert_h (m : MF) (q : Nat) : (m.insert q).h = hashAt m.inp q := rfl
@[simp] theorem MF.insert_table (m : MF) (q : Nat) : (m.insert q).table = m.table.put (hashAt m.inp q).toNat (q :: m.table.bucket (hashAt m.inp q).toNat) := rfl
@[simp] theorem MF.insert_evq (m : MF) (q : Nat) : (m.insert q).evq = m.evq ++ [q] := rfl
@[simp] theorem MF.insert_ctrl (m : MF) (q : Nat) : (m.insert q).ctrl = m.ctrl := rfl
@[simp] theorem MF.insert_fill (m : MF) (q : Nat) : (m.insert q).fill = m.fill := rfl
@[simp] theorem MF.insert_stage (m : MF) (q : Nat) : (m.insert q).stage = m.stage := rfl
@[simp] theorem MF.insert_slen (m : MF) (q : Nat) : (m.insert q).slen = m.slen := rfl
@[simp] theorem MF.insert_out (m : MF) (q : Nat) : (m.insert q).out = m.out := rfl
@[simp] theorem MF.insert_olen (m : MF) (q : Nat) : (m.insert q).olen = m.olen := rfl
@[simp] theorem MF.insert_tokens (m : MF) (q : Nat) : (m.insert q).tokens = m.tokens := rfl
@[simp] theorem MF.insert_st (m : MF) (q : Nat) : (m.insert q).st = m.st := rfl
@[simp] theorem MF.insert_cancelReq (m : MF) (q : Nat) : (m.insert q).cancelReq = m.cancelReq := rfl
@[simp] theorem MF.stageSlot_inp (m : MF) (bs : List Byte) : (m.stageSlot bs).inp = m.inp := rfl
@[simp] theorem MF.stageSlot_n (m : MF) (bs : List Byte) : (m.stageSlot bs).n = m.n := rfl
@[simp] theorem MF.stageSlot_p (m : MF) (bs : List Byte) : (m.stageSlot bs).p = m.p := rfl
@[simp] theorem MF.stageSlot_h (m : MF) (bs : List Byte) : (m.stageSlot bs).h = m.h := rfl
@[simp] theorem MF.stageSlot_table (m : MF) (bs : List Byte) : (m.stageSlot bs).table = m.table := rfl
@[simp] theorem MF.stageSlot_evq (m : MF) (bs : List Byte) : (m.stageSlot bs).evq = m.evq := rfl
@[simp] theorem MF.stageSlot_ctrl (m : MF) (bs : List Byte) : (m.stageSlot bs).ctrl = m.ctrl := rfl
@[simp] theorem MF.stageSlot_fill (m : MF) (bs : List Byte) : (m.stageSlot bs).fill = m.fill + 1 := rfl
@[simp] theorem MF.stageSlot_stage (m : MF) (bs : List Byte) : (m.stageSlot bs).stage = m.stage.writeBytes m.slen.toNat bs := rfl
@[simp] theorem MF.stageSlot_slen (m : MF) (bs : List Byte) : (m.stageSlot bs).slen = m.slen + BitVec.ofNat 5 bs.length := rfl
@[simp] theorem MF.stageSlot_out (m : MF) (bs : List Byte) : (m.stageSlot bs).out = m.out := rfl
@[simp] theorem MF.stageSlot_olen (m : MF) (bs : List Byte) : (m.stageSlot bs).olen = m.olen := rfl
@[simp] theorem MF.stageSlot_tokens (m : MF) (bs : List Byte) : (m.stageSlot bs).tokens = m.tokens := rfl
@[simp] theorem MF.stageSlot_st (m : MF) (bs : List Byte) : (m.stageSlot bs).st = m.st := rfl
@[simp] theorem MF.stageSlot_cancelReq (m : MF) (bs : List Byte) : (m.stageSlot bs).cancelReq = m.cancelReq := rfl
@[simp] theorem MF.emitMatch_inp (m : MF) (d l : Nat) : (m.emitMatch cfg d l).inp = m.inp := rfl
@[simp] theorem MF.emitMatch_n (m : MF) (d l : Nat) : (m.emitMatch cfg d l).n = m.n := rfl
@[simp] theorem MF.emitMatch_p (m : MF) (d l : Nat) : (m.emitMatch cfg d l).p = m.p := rfl
@[simp] theorem MF.emitMatch_h (m : MF) (d l : Nat) : (m.emitMatch cfg d l).h = m.h := rfl
@[simp] theorem MF.emitMatch_table (m : MF) (d l : Nat) : (m.emitMatch cfg d l).table = m.table := rfl
@[simp] theorem MF.emitMatch_evq (m : MF) (d l : Nat) : (m.emitMatch cfg d l).evq = m.evq := rfl
@[simp] theorem MF.emitMatch_ctrl (m : MF) (d l : Nat) : (m.emitMatch cfg d l).ctrl = m.ctrl ||| (1#8 <<< slotBit cfg.ctrlBitOrder m.fill.toNat) := rfl
@[simp] theorem MF.emitMatch_fill (m : MF) (d l : Nat) : (m.emitMatch cfg d l).fill = m.fill + 1 := rfl
@[simp] theorem MF.emitMatch_stage (m : MF) (d l : Nat) : (m.emitMatch cfg d l).stage = m.stage.writeBytes m.slen.toNat (matchBytes d l) := rfl
@[simp] theorem MF.emitMatch_slen (m : MF) (d l : Nat) : (m.emitMatch cfg d l).slen = m.slen + 3 := rfl
@[simp] theorem MF.emitMatch_out (m : MF) (d l : Nat) : (m.emitMatch cfg d l).out = m.out := rfl
@[simp] theorem MF.emitMatch_olen (m : MF) (d l : Nat) : (m.emitMatch cfg d l).olen = m.olen := rfl
@[simp] theorem MF.emitMatch_tokens (m : MF) (d l : Nat) : (m.emitMatch cfg d l).tokens = m.tokens := rfl
@[simp] theorem MF.emitMatch_st (m : MF) (d l : Nat) : (m.emitMatch cfg d l).st = m.st := rfl
@[simp] theorem MF.emitMatch_cancelReq (m : MF) (d l : Nat) : (m.emitMatch cfg d l).cancelReq = m.cancelReq := rfl
@[simp] theorem MF.emitLiteral_inp (m : MF) (r : Nat) : (m.emitLiteral r).inp = m.inp := rfl
@[simp] theorem MF.emitLiteral_n (m : MF) (r : Nat) : (m.emitLiteral r).n = m.n := rfl
@[simp] theorem MF.emitLiteral_p (m : MF) (r : Nat) : (m.emitLiteral r).p = m.p := rfl
@[simp] theorem MF.emitLiteral_h (m : MF) (r : Nat) : (m.emitLiteral r).h = m.h := rfl
@[simp] theorem MF.emitLiteral_table (m : MF) (r : Nat) : (m.emitLiteral r).table = m.table := rfl
@[simp] theorem MF.emitLiteral_evq (m : MF) (r : Nat) : (m.emitLiteral r).evq = m.evq := rfl
@[simp] theorem MF.emitLiteral_ctrl (m : MF) (r : Nat) : (m.emitLiteral r).ctrl = m.ctrl := rfl
@[simp] theorem MF.emitLiteral_fill (m : MF) (r : Nat) : (m.emitLiteral r).fill = m.fill + 1 := rfl
@[simp] theorem MF.emitLiteral_stage (m : MF) (r : Nat) : (m.emitLiteral r).stage = m.stage.writeBytes m.slen.toNat (m.inp.bytes m.p.toNat r) := rfl
@[simp] theorem MF.emitLiteral_slen (m : MF) (r : Nat) : (m.emitLiteral r).slen = m.slen + BitVec.ofNat 5 (m.inp.bytes m.p.toNat r).length := rfl
@[simp] theorem MF.emitLiteral_out (m : MF) (r : Nat) : (m.emitLiteral r).out = m.out := rfl
@[simp] theorem MF.emitLiteral_olen (m : MF) (r : Nat) : (m.emitLiteral r).olen = m.olen := rfl
@[simp] theorem MF.emitLiteral_tokens (m : MF) (r : Nat) : (m.emitLiteral r).tokens = m.tokens := rfl
@[simp] theorem MF.emitLiteral_st (m : MF) (r : Nat) : (m.emitLiteral r).st = m.st := rfl
@[simp] theorem MF.emitLiteral_cancelReq (m : MF) (r : Nat) : (m.emitLiteral r).cancelReq = m.cancelReq := rfl
@[simp] theorem MF.clearRun_inp (m : MF) : (m.clearRun).inp = m.inp := rfl
@[simp] theorem MF.clearRun_n (m : MF) : (m.clearRun).n = m.n := rfl
@[simp] theorem MF.clearRun_p (m : MF) : (m.clearRun).p = 0 := rfl
@[simp] theorem MF.clearRun_h (m : MF) : (m.clearRun).h = 0 := rfl
@[simp] theorem MF.clearRun_table (m : MF) : (m.clearRun).table = [] := rfl
@[simp] theorem MF.clearRun_evq (m : MF) : (m.clearRun).evq = [] := rfl
@[simp] theorem MF.clearRun_ctrl (m : MF) : (m.clearRun).ctrl = 0 := rfl
@[simp] theorem MF.clearRun_fill (m : MF) : (m.clearRun).fill = 0 := rfl
@[simp] theorem MF.clearRun_stage (m : MF) : (m.clearRun).stage = m.stage := rfl
@[simp] theorem MF.clearRun_slen (m : MF) : (m.clearRun).slen = 0 := rfl
@[simp] theorem MF.clearRun_out (m : MF) : (m.clearRun).out = m.out := rfl
@[simp] theorem MF.clearRun_olen (m : MF) : (m.clearRun).olen = 0 := rfl
@[simp] theorem MF.clearRun_tokens (m : MF) : (m.clearRun).tokens = 0 := rfl
@[simp] theorem MF.clearRun_st (m : MF) : (m.clearRun).st = m.st := rfl
@[simp] theorem MF.clearRun_cancelReq (m : MF) : (m.clearRun).cancelReq = false := rfl

/-! ### The token encoder -/

@[simp] theorem TC.markUsed_mode (t : TC) (i : Nat) : (t.markUsed i).mode = t.mode := rfl
@[simp] theorem TC.markUsed_usable (t : TC) (i : Nat) : (t.markUsed i).usable = t.usable.set i false := rfl
@[simp] theorem TC.markUsed_arq (t : TC) (i : Nat) : (t.markUsed i).arq = t.arq ++ [i] := rfl
@[simp] theorem TC.markUsed_pkt (t : TC) (i : Nat) : (t.markUsed i).pkt = t.pkt := rfl
@[simp] theorem TC.init_mode (t : TC) (md : TcMode) : (t.init cfg md).mode = md := rfl
@[simp] theorem TC.init_usable (t : TC) (md : TcMode) : (t.init cfg md).usable = List.replicate cfg.a5Size true := rfl
@[simp] theorem TC.init_arq (t : TC) (md : TcMode) : (t.init cfg md).arq = [] := rfl
@[simp] theorem TC.init_pkt (t : TC) (md : TcMode) : (t.init cfg md).pkt = t.pkt := rfl

end Sys2Proof.Machine
end

