-- ==== Sys2Proof/Laws/Cursor.lean ====
section
/-! SUPPORT. The laws of the bit cursor: what a read gives, what a write can do, and when the checks pass
(40_bitcursor.md R133 to R136). -/

namespace Sys2Proof.Machine

/-- The checks pass exactly when the width is 1 to 32 and the cursor does not overflow. -/
theorem BC.check_eq_none {b : BC} {n : Nat} :
    b.check n = none ↔ 1 ≤ n ∧ n ≤ 32 ∧ b.pos.toNat + n ≤ 4294967295 := by
  unfold BC.check
  simp only [bitsMax, wordMax]
  split
  · simp; omega
  · split <;> simp <;> omega

/-- Everything the checks can answer. -/
theorem BC.check_cases (b : BC) (n : Nat) :
    (b.check n = some .bcBadWidth ∧ (n = 0 ∨ 32 < n)) ∨
    (b.check n = some .bcPosOverflow ∧ 1 ≤ n ∧ n ≤ 32 ∧ 4294967295 < b.pos.toNat + n) ∨
    (b.check n = none ∧ 1 ≤ n ∧ n ≤ 32 ∧ b.pos.toNat + n ≤ 4294967295) := by
  unfold BC.check
  simp only [bitsMax, wordMax]
  split
  · simp_all
  · split <;> simp <;> omega

/-- The loop in terms of the value gathered from 0. -/
theorem BC.gather_eq (b : BC) (k n v : Nat) : b.gather k n v = v * 2 ^ n + b.bitsAt k n := by
  unfold BC.bitsAt
  induction n generalizing k v with
  | zero => simp [BC.gather]
  | succ n ih =>
    rw [BC.gather, BC.gather, ih, ih (k + 1) (2 * 0 + (b.bit k).toNat)]
    rw [Nat.pow_succ]
    ring

@[simp] theorem BC.bitsAt_zero (b : BC) (k : Nat) : b.bitsAt k 0 = 0 := rfl

/-- The first bit read is the most significant one. -/
theorem BC.bitsAt_succ (b : BC) (k n : Nat) :
    b.bitsAt k (n + 1) = (b.bit k).toNat * 2 ^ n + b.bitsAt (k + 1) n := by
  rw [BC.bitsAt, BC.gather, BC.gather_eq]
  simp

theorem BC.bitsAt_lt (b : BC) (k n : Nat) : b.bitsAt k n < 2 ^ n := by
  induction n generalizing k with
  | zero => simp
  | succ n ih =>
    rw [BC.bitsAt_succ, Nat.pow_succ]
    have := ih (k + 1)
    have hb : (b.bit k).toNat ≤ 1 := Bool.toNat_le _
    nlinarith

/-- Reads one after the other are one read (40_bitcursor.md R139 b is this with the widths' sum at most 32). -/
theorem BC.bitsAt_add (b : BC) (k n m : Nat) :
    b.bitsAt k (n + m) = b.bitsAt k n * 2 ^ m + b.bitsAt (k + n) m := by
  induction n generalizing k with
  | zero => simp
  | succ n ih =>
    rw [show n + 1 + m = (n + m) + 1 by omega, BC.bitsAt_succ, BC.bitsAt_succ, ih (k + 1),
      show k + 1 + n = k + (n + 1) by omega, Nat.pow_add]
    ring

/-- A read depends on the bits only. -/
theorem BC.bitsAt_congr {b b' : BC} {k n : Nat} (h : ∀ i, k ≤ i → i < k + n → b.bit i = b'.bit i) :
    b.bitsAt k n = b'.bitsAt k n := by
  induction n generalizing k with
  | zero => rfl
  | succ n ih =>
    rw [BC.bitsAt_succ, BC.bitsAt_succ, h k (by omega) (by omega),
      ih fun i h1 h2 => h i (by omega) (by omega)]

/-- A read answers exactly when the checks pass, with the bits and the cursor advanced. -/
theorem BC.readBits_eq_ok {b : BC} {n : Nat} {r : Nat × BC} :
    b.readBits n = .ok r ↔ b.check n = none ∧ r = (b.bitsAt b.pos.toNat n, b.advance n) := by
  unfold BC.readBits
  split <;> rename_i h <;> simp [h, eq_comm]

theorem BC.readBits_eq_error {b : BC} {n : Nat} {c : Cause} :
    b.readBits n = .error c ↔ b.check n = some c := by
  unfold BC.readBits
  split <;> rename_i h <;> simp [h]

/-- A write answers exactly when the checks pass and it ends inside the buffer. -/
theorem BC.writeBits_eq_ok {b b' : BC} {n : Nat} {v : Word} :
    b.writeBits n v = .ok b' ↔
      b.check n = none ∧ b.pos.toNat + n ≤ 8 * b.len.toNat ∧
        b' = { b with buf := b.buf.scatter v b.pos.toNat n }.advance n := by
  unfold BC.writeBits
  split
  · rename_i h; simp [h]
  · rename_i h
    split
    · simp [h]; omega
    · rename_i h2
      simp only [Except.ok.injEq, h, true_and]
      exact ⟨fun he => ⟨by omega, he.symm⟩, fun he => he.2.symm⟩

theorem BC.writeBits_eq_error {b : BC} {n : Nat} {v : Word} {c : Cause} :
    b.writeBits n v = .error c ↔
      b.check n = some c ∨ (b.check n = none ∧ 8 * b.len.toNat < b.pos.toNat + n ∧ c = .bcWritePastEnd) := by
  unfold BC.writeBits
  split
  · rename_i h; simp [h]
  · rename_i h
    split
    · rename_i h2; simp [h, h2, eq_comm]
    · rename_i h2; simp [h]; omega

/-- One bit written: that bit of that byte, and nothing else (20_memory.md R69). -/
theorem Memory.read_writeBit {m : Memory} (h : m.wf) (k : Nat) (bit : Bool) (a : Nat) :
    (m.writeBit k bit).read a =
      if a = k / 8 then
        ((m.read (k / 8) &&& (0xFF#8 ^^^ (1#8 <<< (7 - k % 8)))) ||| (if bit then 1#8 <<< (7 - k % 8) else 0))
      else m.read a := Memory.read_write h _ _ _

theorem Memory.wf_writeBit {m : Memory} (h : m.wf) (k : Nat) (bit : Bool) : (m.writeBit k bit).wf :=
  Memory.wf_write h _ _

theorem Memory.wf_scatter {m : Memory} (h : m.wf) (v : Word) (k n : Nat) : (m.scatter v k n).wf := by
  induction n generalizing m k with
  | zero => exact h
  | succ n ih => exact ih (Memory.wf_writeBit h _ _) _

/-- The bit of a byte that a one-bit write leaves. -/
theorem Memory.getLsbD_writeBit {m : Memory} (h : m.wf) (k : Nat) (bit : Bool) (j : Nat) :
    ((m.writeBit k bit).read (j / 8)).getLsbD (7 - j % 8) =
      if j = k then bit else (m.read (j / 8)).getLsbD (7 - j % 8) := by
  rw [Memory.read_writeBit h]
  by_cases hq : j / 8 = k / 8
  · rw [if_pos hq, ← hq]
    generalize m.read (j / 8) = x
    have hj : 7 - j % 8 < 8 := by omega
    have hk : 7 - k % 8 < 8 := by omega
    have hjk : j = k ↔ 7 - j % 8 = 7 - k % 8 := by omega
    rw [if_congr hjk rfl rfl]
    generalize 7 - j % 8 = p at hj ⊢
    generalize 7 - k % 8 = q at hk ⊢
    clear hjk hq
    interval_cases p <;> interval_cases q <;> cases bit <;> simp
  · have : j ≠ k := fun e => hq (by rw [e])
    rw [if_neg hq, if_neg this]

end Sys2Proof.Machine
end

