-- ==== Sys2Proof/Laws/Matcher.lean ====
section
/-! SUPPORT. What each operation of the engine can do, said once (41_matchfinder.md R165 to R181). -/

namespace Sys2Proof.Machine

variable {cfg : Config} {mf mf' : MF}

/-! ### Registration touches only H, TABLE and EVQ -/

/-- Registration changes at most the hash, the table and the queue. -/
theorem MF.register_eq (mf : MF) (q : Nat) :
    ∃ t e, mf.register q = { mf with h := hashAt mf.inp q, table := t, evq := e } := by
  unfold MF.register
  simp only
  split
  · unfold MF.evict
    split <;> exact ⟨_, _, rfl⟩
  · exact ⟨_, _, rfl⟩

theorem MF.registerSeed_eq (mf : MF) (q : Nat) :
    ∃ h t e, mf.registerSeed q = { mf with h := h, table := t, evq := e } := by
  unfold MF.registerSeed
  split
  · obtain ⟨t, e, he⟩ := mf.register_eq q
    exact ⟨_, _, _, he⟩
  · exact ⟨_, _, _, rfl⟩

theorem MF.registerRun_eq (mf : MF) (q k : Nat) :
    ∃ h t e, mf.registerRun q k = { mf with h := h, table := t, evq := e } := by
  induction k generalizing mf q with
  | zero => exact ⟨_, _, _, rfl⟩
  | succ k ih =>
    obtain ⟨h1, t1, e1, he1⟩ := mf.registerSeed_eq q
    obtain ⟨h2, t2, e2, he2⟩ := ih (mf.registerSeed q) (q + 1)
    exact ⟨h2, t2, e2, by rw [MF.registerRun, he2, he1]⟩

theorem MF.register_table_wf (hw : mf.table.wf) (q : Nat) : (mf.register q).table.wf := by
  unfold MF.register
  simp only
  split
  · unfold MF.evict
    split
    · exact Table.wf_put hw _ _
    · exact Table.wf_put (Table.wf_put hw _ _) _ _
  · exact Table.wf_put hw _ _

theorem MF.registerSeed_table_wf (hw : mf.table.wf) (q : Nat) : (mf.registerSeed q).table.wf := by
  unfold MF.registerSeed
  split
  · exact MF.register_table_wf hw q
  · exact hw

theorem MF.registerRun_table_wf (hw : mf.table.wf) (q k : Nat) : (mf.registerRun q k).table.wf := by
  induction k generalizing mf q with
  | zero => exact hw
  | succ k ih => exact ih (MF.registerSeed_table_wf hw q) (q + 1)

/-! ### Search -/

theorem validCandidate_iff {p c : Nat} : validCandidate p c = true ↔ c < p ∧ p - c ≤ 65535 := by
  simp [validCandidate]

theorem equalRun_le (inp : Memory) (c p lim : Nat) : equalRun inp c p lim ≤ lim := by
  induction lim generalizing c p with
  | zero => simp [equalRun]
  | succ lim ih =>
    rw [equalRun]
    split
    · have := ih (c + 1) (p + 1); omega
    · omega

/-- The bytes a match covers agree. -/
theorem equalRun_agree (inp : Memory) (c p lim j : Nat) (h : j < equalRun inp c p lim) :
    inp.read (c + j) = inp.read (p + j) := by
  induction lim generalizing c p j with
  | zero => simp [equalRun] at h
  | succ lim ih =>
    rw [equalRun] at h
    split at h
    · rename_i he
      cases j with
      | zero => exact he
      | succ j =>
        have := ih (c + 1) (p + 1) j (by omega)
        rwa [show c + 1 + j = c + (j + 1) by omega, show p + 1 + j = p + (j + 1) by omega] at this
    · omega

/-- A match stops only at its limit or at a mismatch. -/
theorem equalRun_maximal (inp : Memory) (c p lim : Nat) (h : equalRun inp c p lim < lim) :
    inp.read (c + equalRun inp c p lim) ≠ inp.read (p + equalRun inp c p lim) := by
  induction lim generalizing c p with
  | zero => omega
  | succ lim ih =>
    rw [equalRun] at h ⊢
    split
    · rename_i he
      rw [if_pos he] at h
      have := ih (c + 1) (p + 1) (by omega)
      rwa [show c + 1 + equalRun inp (c + 1) (p + 1) lim = c + (equalRun inp (c + 1) (p + 1) lim + 1) by omega,
        show p + 1 + equalRun inp (c + 1) (p + 1) lim = p + (equalRun inp (c + 1) (p + 1) lim + 1) by omega]
        at this
    · rename_i he
      simpa using he

/-- The best match over a bucket comes from a valid candidate of the bucket, or is still the empty one. -/
theorem searchBucket_cases (inp : Memory) (n p : Nat) (bucket : List Nat) :
    searchBucket inp n p bucket = ⟨0, 0⟩ ∨
      ∃ c ∈ bucket, c < p ∧ p - c ≤ 65535 ∧ searchBucket inp n p bucket = ⟨matchLen inp n c p, p - c⟩ := by
  unfold searchBucket
  suffices h : ∀ best : Match, bucket.foldl (considerCandidate inp n p) best = best ∨
      ∃ c ∈ bucket, c < p ∧ p - c ≤ 65535 ∧
        bucket.foldl (considerCandidate inp n p) best = ⟨matchLen inp n c p, p - c⟩ from h _
  induction bucket with
  | nil => exact fun _ => .inl rfl
  | cons c cs ih =>
    intro best
    rw [List.foldl_cons]
    rcases ih (considerCandidate inp n p best c) with h | ⟨x, hx, h1, h2, h3⟩
    · rw [h]
      unfold considerCandidate
      split
      · rename_i hv
        split
        · have := validCandidate_iff.1 hv
          exact .inr ⟨c, by simp, this.1, this.2, rfl⟩
        · exact .inl rfl
      · exact .inl rfl
    · exact .inr ⟨x, by simp [hx], h1, h2, h3⟩

/-! ### Emission and flushing -/

@[simp] theorem length_matchBytes (d l : Nat) : (matchBytes d l).length = 3 := rfl

/-- A flush answers exactly when the group fits in `OUT`. -/
theorem MF.flushGroup_eq_ok :
    mf.flushGroup cfg = .ok mf' ↔
      mf.olen.toNat + 1 + mf.slen.toNat ≤ cfg.outCap ∧
        mf' = { mf with
          out := mf.out.writeBytes mf.olen.toNat (mf.ctrl :: mf.stage.bytes 0 mf.slen.toNat)
          olen := mf.olen + 1 + mf.slen.setWidth 32, ctrl := 0, fill := 0, slen := 0 } := by
  unfold MF.flushGroup
  split
  · simp; omega
  · simp only [Except.ok.injEq]
    exact ⟨fun h => ⟨by omega, h.symm⟩, fun h => h.2.symm⟩

theorem MF.flushGroup_eq_error {c : Cause} :
    mf.flushGroup cfg = .error c ↔ cfg.outCap < mf.olen.toNat + 1 + mf.slen.toNat ∧ c = .mfOutOverflow := by
  unfold MF.flushGroup
  split
  · rename_i h; simp [h, eq_comm]
  · rename_i h; simp [h]

/-- The final flush flushes the open group, or leaves an empty one alone. -/
theorem MF.flushFinal_cases (cfg : Config) (mf : MF) :
    (mf.flushFinal cfg = mf.flushGroup cfg ∧ (0 < mf.fill.toNat ∨ cfg.flushEmptyGroup = true)) ∨
    (mf.flushFinal cfg = .ok mf ∧ mf.fill.toNat = 0 ∧ cfg.flushEmptyGroup = false) := by
  unfold MF.flushFinal
  split
  · rename_i h; exact .inl ⟨rfl, h⟩
  · rename_i h; simp only [not_or, Bool.not_eq_true] at h; exact .inr ⟨rfl, by omega, h.2⟩

/-- An engine step raises nothing but `MF_OUT_OVERFLOW` (41_matchfinder.md R181, "Faults: `MF_OUT_OVERFLOW`
only"). -/
theorem MF.flushFinal_error {c : Cause} (h : mf.flushFinal cfg = .error c) : c = .mfOutOverflow := by
  rcases mf.flushFinal_cases cfg with ⟨he, -⟩ | ⟨he, -⟩
  · rw [he] at h; exact (MF.flushGroup_eq_error.1 h).2
  · rw [he] at h; exact absurd h (by simp)

/-- Everything the end of a step can answer. -/
theorem MF.closeStep_eq_ok (h : mf.closeStep cfg = .ok mf') :
    ∃ mf1, (if mf.fill.toNat = slotsPerGroup then mf.flushGroup cfg else .ok mf) = .ok mf1 ∧
      ((mf1.p ≠ mf1.n ∧ mf' = mf1) ∨
       (mf1.p = mf1.n ∧ ∃ mf2, mf1.flushFinal cfg = .ok mf2 ∧ mf' = { mf2 with st := .done })) := by
  unfold MF.closeStep at h
  split at h
  · exact absurd h (by simp)
  · rename_i mf1 h1
    refine ⟨mf1, h1, ?_⟩
    split at h
    · rename_i hp
      split at h
      · exact absurd h (by simp)
      · rename_i mf2 h2
        exact .inr ⟨hp, mf2, h2, by simpa using h.symm⟩
    · rename_i hp
      exact .inl ⟨hp, by simpa using h.symm⟩

theorem MF.closeStep_error {c : Cause} (h : mf.closeStep cfg = .error c) : c = .mfOutOverflow := by
  unfold MF.closeStep at h
  split at h
  · rename_i c' h1
    split at h1
    · have := (MF.flushGroup_eq_error.1 h1).2
      simp_all
    · simp at h1
  · split at h
    · split at h
      · rename_i c' h2
        have := MF.flushFinal_error h2
        simp_all
      · simp at h
    · simp at h

/-- Everything a step that sees the cancellation request can answer. -/
theorem MF.cancelStep_eq_ok (h : mf.cancelStep cfg = .ok mf') :
    ∃ mf1, mf.flushFinal cfg = .ok mf1 ∧ mf' = { mf1 with st := .aborted } := by
  unfold MF.cancelStep at h
  split at h
  · exact absurd h (by simp)
  · rename_i mf1 h1
    exact ⟨mf1, h1, by simpa using h.symm⟩

/-- An engine step either ends the run on a cancellation request or takes one decision. -/
theorem MF.engineStep_eq_ok (h : mf.engineStep cfg = .ok mf') :
    (mf.cancelReq = true ∧ mf.cancelStep cfg = .ok mf') ∨
    (mf.cancelReq = false ∧ (mf.decideOnce cfg).closeStep cfg = .ok mf') := by
  unfold MF.engineStep at h
  split at h
  · rename_i hc; exact .inl ⟨hc, h⟩
  · rename_i hc; exact .inr ⟨by simpa using hc, h⟩

theorem MF.engineStep_error {c : Cause} (h : mf.engineStep cfg = .error c) : c = .mfOutOverflow := by
  unfold MF.engineStep at h
  split at h
  · unfold MF.cancelStep at h
    split at h
    · rename_i c' h1
      have := MF.flushFinal_error h1
      simp_all
    · simp at h
  · exact MF.closeStep_error h

/-! ### The decision of a step -/

@[simp] theorem Slot.size_literal (bytes : List Byte) : (Slot.literal bytes).size = bytes.length := rfl
@[simp] theorem Slot.size_copy (dist len : Nat) : (Slot.copy dist len).size = len := rfl
@[simp] theorem Slot.payload_literal (bytes : List Byte) : (Slot.literal bytes).payload = bytes := rfl
@[simp] theorem Slot.payload_copy (dist len : Nat) : (Slot.copy dist len).payload = matchBytes dist len := rfl
@[simp] theorem Slot.flag_literal (bytes : List Byte) : (Slot.literal bytes).flag = false := rfl
@[simp] theorem Slot.flag_copy (dist len : Nat) : (Slot.copy dist len).flag = true := rfl

/-- What one decision does but for H, TABLE and EVQ: the slot is staged, its flag recorded, P and TOKENS grow. -/
theorem MF.decideOnce_eq (cfg : Config) (mf : MF) :
    ∃ h t e, mf.decideOnce cfg =
      { mf.stageSlot mf.decision.payload with
        ctrl := mf.ctrlWith cfg mf.decision, h := h, table := t, evq := e
        p := mf.p + BitVec.ofNat 32 mf.decision.size, tokens := mf.tokens + 1 } := by
  obtain ⟨h0, t0, e0, hs⟩ := mf.registerSeed_eq mf.p.toNat
  unfold MF.decideOnce
  simp only
  obtain ⟨h1, t1, e1, hr⟩ := MF.registerRun_eq
    ((mf.registerSeed mf.p.toNat).emit cfg (mf.registerSeed mf.p.toNat).search) (mf.p.toNat + 1)
    ((mf.registerSeed mf.p.toNat).consumed (mf.registerSeed mf.p.toNat).search - 1)
  refine ⟨h1, t1, e1, ?_⟩
  rw [hr]
  unfold MF.emit MF.consumed MF.ctrlWith MF.decision
  generalize (mf.registerSeed mf.p.toNat).search = m
  rw [hs]
  by_cases hm : minMatch < m.len
  · simp [hm, MF.emitMatch, MF.stageSlot]
  · simp [hm, MF.emitLiteral, MF.stageSlot]

/-! ### The engine's turn -/

/-- Everything the engine's turn can answer. -/
theorem State.engineTurn_cases (s : State) :
    (s.mf.stepReady = false ∧ s.engineTurn = .fault .engineOutsideRun) ∨
    (s.mf.stepReady = true ∧ ∃ mf', s.mf.engineStep s.cfg = .ok mf' ∧ s.engineTurn = .next { s with mf := mf' }) ∨
    (s.mf.stepReady = true ∧ s.mf.engineStep s.cfg = .error .mfOutOverflow ∧
      s.engineTurn = .next (s.enterFault .mfOutOverflow)) := by
  unfold State.engineTurn
  split
  · rename_i hr
    split
    · rename_i mf' h; exact .inr (.inl ⟨hr, mf', h, rfl⟩)
    · rename_i c h
      obtain rfl := MF.engineStep_error h
      exact .inr (.inr ⟨hr, h, rfl⟩)
  · rename_i hr; exact .inl ⟨by simpa using hr, rfl⟩

end Sys2Proof.Machine
end

