-- ==== Sys2Proof/Laws/PerInstr.lean ====
section
/-! SUPPORT. Statements about every command as syntax, one lemma per constructor. -/

namespace Sys2Proof

/-- The fields of every command are a legal command word's (30_encoding.md R94, R96). -/
def Laws.LegalFields.Statement (i : Instr) : Prop := i.toCmd.legal = true

theorem Laws.LegalFields.sysNop : Laws.LegalFields.Statement .sysNop := rfl
theorem Laws.LegalFields.sysReset : Laws.LegalFields.Statement .sysReset := rfl
theorem Laws.LegalFields.sysStatus : Laws.LegalFields.Statement .sysStatus := rfl
theorem Laws.LegalFields.bcAlloc (len : Word) : Laws.LegalFields.Statement (.bcAlloc len) := rfl
theorem Laws.LegalFields.bcSeek (bitOffset : Word) : Laws.LegalFields.Statement (.bcSeek bitOffset) := rfl
theorem Laws.LegalFields.bcReadBits (n : Byte) : Laws.LegalFields.Statement (.bcReadBits n) := rfl
theorem Laws.LegalFields.bcWriteBits (n : Byte) (value : Word) :
    Laws.LegalFields.Statement (.bcWriteBits n value) := rfl
theorem Laws.LegalFields.bcReadByte : Laws.LegalFields.Statement .bcReadByte := rfl
theorem Laws.LegalFields.bcWriteByte (value : Word) : Laws.LegalFields.Statement (.bcWriteByte value) := rfl
theorem Laws.LegalFields.mfClear : Laws.LegalFields.Statement .mfClear := rfl
theorem Laws.LegalFields.mfPut (byte : Byte) : Laws.LegalFields.Statement (.mfPut byte) := rfl
theorem Laws.LegalFields.mfStart : Laws.LegalFields.Statement .mfStart := rfl
theorem Laws.LegalFields.mfCancel : Laws.LegalFields.Statement .mfCancel := rfl
theorem Laws.LegalFields.mfInfo (sel : Byte) : Laws.LegalFields.Statement (.mfInfo sel) := rfl
theorem Laws.LegalFields.mfGet (addr : Word) : Laws.LegalFields.Statement (.mfGet addr) := rfl
theorem Laws.LegalFields.tcInit (mode : Byte) : Laws.LegalFields.Statement (.tcInit mode) := rfl
theorem Laws.LegalFields.tcNext : Laws.LegalFields.Statement .tcNext := rfl
theorem Laws.LegalFields.tcPacket (k : Byte) : Laws.LegalFields.Statement (.tcPacket k) := rfl
theorem Laws.LegalFields.tcRelease : Laws.LegalFields.Statement .tcRelease := rfl
theorem Laws.LegalFields.tcRdPkt (i : Byte) : Laws.LegalFields.Statement (.tcRdPkt i) := rfl

end Sys2Proof
end

