-- ==== Sys2Proof/Laws/Step.lean ====
section
/-! SUPPORT. What a command's answer and a step can be, said once. -/

namespace Sys2Proof.Machine

/-! ### The answer to a command -/

@[simp] theorem State.answer_done (s t : State) (val : Word) : s.answer (.done t val) = t.respond 0x00 val := rfl
@[simp] theorem State.answer_busy (s : State) : s.answer .busy = s.respond 0x01 0 := rfl
@[simp] theorem State.answer_raise (s : State) (c : Cause) : s.answer (.raise c) = s.raiseFault c := rfl

/-- In the fault state a command is answered `FAULTED`. -/
theorem State.serve_faulted {s : State} (h : s.sys.faulted = true) (r : Reply) :
    s.serve r = s.respond 0x02 0 := by
  simp [State.serve, h]

theorem State.serve_unfaulted {s : State} (h : s.sys.faulted = false) (r : Reply) :
    s.serve r = s.answer r := by
  simp [State.serve, h]

theorem State.unlessRunning_running {s : State} (h : s.mf.st = .running) (r : Reply) :
    s.unlessRunning r = .busy := by
  simp [State.unlessRunning, h]

theorem State.unlessRunning_idle {s : State} (h : s.mf.st ≠ .running) (r : Reply) :
    s.unlessRunning r = r := by
  simp [State.unlessRunning, h]

/-! ### The next event -/

theorem State.engineEnabled_iff {s : State} :
    s.engineEnabled = true ↔ s.mf.st = .running ∧ s.sys.faulted = false := by
  simp [State.engineEnabled]

/-- The host's turn changes only what it has still to send. -/
theorem State.hostAction_cases (s : State) :
    (s.port.pending = [] ∧ s.hostAction = (.idle, s)) ∨
    ∃ w ws, s.port.pending = w :: ws ∧
      s.hostAction = (.command w, { s with port := { s.port with pending := ws } }) := by
  unfold State.hostAction
  split
  · rename_i h; exact .inl ⟨h, rfl⟩
  · rename_i w ws h; exact .inr ⟨w, ws, h, rfl⟩

/-- The next event as the schedule, the host and the engine give it: the block itself is not touched, and an
engine step comes only while the engine is enabled. -/
theorem State.nextAction_cases (s : State) :
    ∃ p, (s.nextAction).2 = { s with port := p } ∧ p.responses = s.port.responses ∧
      (s.nextAction.1 = .engine → s.engineEnabled = true) := by
  have host : ∀ t : State, (∃ p, t = { s with port := p } ∧ p.responses = s.port.responses) →
      ∃ p, t.hostAction.2 = { s with port := p } ∧ p.responses = s.port.responses ∧
        t.hostAction.1 ≠ .engine := by
    rintro _ ⟨p, rfl, hp⟩
    rcases State.hostAction_cases { s with port := p } with ⟨-, h⟩ | ⟨w, ws, -, h⟩
    · exact ⟨p, by rw [h], hp, by rw [h]; simp⟩
    · refine ⟨{ p with pending := ws }, by rw [h], hp, by rw [h]; simp⟩
  have engine : ∀ t : State, (∃ p, t = { s with port := p } ∧ p.responses = s.port.responses) →
      ∃ p, t.engineAction.2 = { s with port := p } ∧ p.responses = s.port.responses ∧
        (t.engineAction.1 = .engine → s.engineEnabled = true) := by
    intro t ht
    unfold State.engineAction
    split
    · rename_i he
      obtain ⟨p, rfl, hp⟩ := ht
      exact ⟨p, rfl, hp, fun _ => he⟩
    · obtain ⟨p, h1, h2, h3⟩ := host t ht
      exact ⟨p, h1, h2, fun h => absurd h h3⟩
  have weaken : ∀ t : State, (∃ p, t = { s with port := p } ∧ p.responses = s.port.responses) →
      ∃ p, t.hostAction.2 = { s with port := p } ∧ p.responses = s.port.responses ∧
        (t.hostAction.1 = .engine → s.engineEnabled = true) := fun t ht => by
    obtain ⟨p, h1, h2, h3⟩ := host t ht
    exact ⟨p, h1, h2, fun h => absurd h h3⟩
  unfold State.nextAction
  split
  · exact ⟨_, rfl, rfl, by simp⟩
  · simp only
    split
    · exact engine _ ⟨_, rfl, rfl⟩
    · exact weaken _ ⟨_, rfl, rfl⟩
  · exact engine _ ⟨_, rfl, rfl⟩
  · split
    · simp only
      split
      · exact engine _ ⟨_, rfl, rfl⟩
      · exact weaken _ ⟨_, rfl, rfl⟩
    · exact engine _ ⟨s.port, rfl, rfl⟩

/-- Everything a step can be. -/
theorem step_cases {s t : State} (h : step s = .next t) :
    ∃ u, (∃ p, u = { s with port := p } ∧ p.responses = s.port.responses) ∧
      ((s.nextAction = (.idle, u) ∧ t = u) ∨
       (s.nextAction = (.reset, u) ∧ t = u.resetBlock) ∨
       (s.nextAction = (.engine, u) ∧ s.engineEnabled = true ∧ u.engineTurn = .next t) ∨
       (∃ w i, s.nextAction = (.command w, u) ∧ decode w = .ok i ∧ exec i u = .next t) ∨
       (∃ w e, s.nextAction = (.command w, u) ∧ decode w = .error e ∧ t = u.illegalWord)) := by
  obtain ⟨p, hp, hr, he⟩ := s.nextAction_cases
  refine ⟨s.nextAction.2, ⟨p, hp, hr⟩, ?_⟩
  unfold step at h
  split at h
  · rename_i u hu; rw [hu]; exact .inl ⟨rfl, by simpa using h.symm⟩
  · rename_i u hu; rw [hu]; exact .inr (.inl ⟨rfl, by simpa using h.symm⟩)
  · rename_i u hu; rw [hu] at he ⊢; exact .inr (.inr (.inl ⟨rfl, he rfl, h⟩))
  · rename_i w u hu
    rw [hu]
    split at h
    · rename_i i hi; exact .inr (.inr (.inr (.inl ⟨w, i, rfl, hi, h⟩)))
    · rename_i e hd; exact .inr (.inr (.inr (.inr ⟨w, e, rfl, hd, by simpa using h.symm⟩)))

end Sys2Proof.Machine
end

