-- ==== Sys2Proof/Laws/TokenCodec.lean ====
section
/-! SUPPORT. The laws of the token encoder: what a selection, a symbol and a run of symbols can do
(42_tokencodec.md R225 to R241). -/

namespace Sys2Proof.Machine

variable {cfg : Config}

/-- The index selected is that of a usable symbol. -/
theorem nthUsable_usable {us : List Bool} {v i : Nat} (h : nthUsable us v = some i) : us[i]? = some true := by
  induction us generalizing v i with
  | nil => simp [nthUsable] at h
  | cons u us ih =>
    cases u with
    | false =>
      simp only [nthUsable, Option.map_eq_some_iff] at h
      obtain ⟨j, hj, rfl⟩ := h
      simpa using ih hj
    | true =>
      cases v with
      | zero => simp only [nthUsable, Option.some.injEq] at h; subst h; simp
      | succ v =>
        simp only [nthUsable, Option.map_eq_some_iff] at h
        obtain ⟨j, hj, rfl⟩ := h
        simpa using ih hj

/-- A selection finds its symbol exactly when more than `v` are usable (42_tokencodec.md R229). -/
theorem nthUsable_isSome {us : List Bool} {v : Nat} : (nthUsable us v).isSome ↔ v < us.count true := by
  induction us generalizing v with
  | nil => simp [nthUsable]
  | cons u us ih =>
    cases u with
    | false => simp [nthUsable, ih]
    | true =>
      cases v with
      | zero => simp [nthUsable]
      | succ v => simp [nthUsable, ih]

/-- Restoration either pops the oldest entry of a full FIFO or does nothing; mode and packet stay. -/
theorem TC.restoreOldest_cases (tc : TC) :
    (tc.arq.length = 12 ∧
      tc.restoreOldest = { tc with usable := tc.usable.set (tc.arq.headD 0) true, arq := tc.arq.tail }) ∨
    (tc.arq.length ≠ 12 ∧ tc.restoreOldest = tc) := by
  unfold TC.restoreOldest
  simp only [arDepth]
  split
  · rename_i h; exact .inl ⟨h, rfl⟩
  · rename_i h; exact .inr ⟨h, rfl⟩

@[simp] theorem TC.restoreOldest_mode (tc : TC) : tc.restoreOldest.mode = tc.mode := by
  rcases tc.restoreOldest_cases with ⟨-, h⟩ | ⟨-, h⟩ <;> rw [h]

@[simp] theorem TC.restoreOldest_pkt (tc : TC) : tc.restoreOldest.pkt = tc.pkt := by
  rcases tc.restoreOldest_cases with ⟨-, h⟩ | ⟨-, h⟩ <;> rw [h]

theorem TC.select_eq_ok {tc tc' : TC} {v i : Nat} :
    tc.select v = .ok (i, tc') ↔ nthUsable tc.usable v = some i ∧ tc' = (tc.markUsed i).restoreOldest := by
  unfold TC.select
  split <;> rename_i h
  · simp [h]
  · simp only [Except.ok.injEq, Prod.mk.injEq, h, Option.some.injEq]
    constructor
    · rintro ⟨rfl, rfl⟩; exact ⟨rfl, rfl⟩
    · rintro ⟨rfl, rfl⟩; exact ⟨rfl, rfl⟩

theorem TC.select_eq_error {tc : TC} {v : Nat} {c : Cause} :
    tc.select v = .error c ↔ tc.usable.count true ≤ v ∧ c = .tcTokenRange := by
  unfold TC.select
  split <;> rename_i h
  · have : ¬v < tc.usable.count true := by rw [← nthUsable_isSome, h]; simp
    simp only [Except.error.injEq]
    exact ⟨fun e => ⟨by omega, e.symm⟩, fun e => e.2.symm⟩
  · have : v < tc.usable.count true := by rw [← nthUsable_isSome, h]; simp
    simp; omega

/-- Everything one symbol can answer (42_tokencodec.md R225). -/
theorem TokenState.next_eq_ok {ts ts' : TokenState} {code : Byte} (h : ts.next cfg = .ok (code, ts')) :
    (ts.tc.mode = .fixed6 ∧ ts.bc.check 6 = none ∧ code = cfg.sym6.getD (ts.bc.bitsAt ts.bc.pos.toNat 6) 0 ∧
      ts' = { bc := ts.bc.advance 6, tc := ts.tc }) ∨
    (ts.tc.mode = .antirep5 ∧ ts.bc.check 5 = none ∧
      ∃ idx, nthUsable ts.tc.usable (ts.bc.bitsAt ts.bc.pos.toNat 5) = some idx ∧ code = cfg.alpha5.getD idx 0 ∧
        ts' = { bc := ts.bc.advance 5, tc := (ts.tc.markUsed idx).restoreOldest }) := by
  unfold TokenState.next at h
  split at h
  · rename_i hm
    unfold TokenState.nextFixed at h
    split at h
    · exact absurd h (by simp)
    · rename_i v bc hr
      obtain ⟨hc, he⟩ := BC.readBits_eq_ok.1 hr
      simp only [Prod.mk.injEq, w6] at he
      obtain ⟨rfl, rfl⟩ := he
      simp only [Except.ok.injEq, Prod.mk.injEq] at h
      exact .inl ⟨hm, hc, h.1.symm, h.2.symm⟩
  · rename_i hm
    unfold TokenState.nextAntirep at h
    split at h
    · exact absurd h (by simp)
    · rename_i v bc hr
      obtain ⟨hc, he⟩ := BC.readBits_eq_ok.1 hr
      simp only [Prod.mk.injEq, w5] at he
      obtain ⟨rfl, rfl⟩ := he
      split at h
      · exact absurd h (by simp)
      · rename_i idx tc hs
        obtain ⟨hn, rfl⟩ := TC.select_eq_ok.1 hs
        simp only [Except.ok.injEq, Prod.mk.injEq] at h
        exact .inr ⟨hm, hc, idx, hn, h.1.symm, h.2.symm⟩

/-- A run of `k` symbols gives `k` codes. -/
theorem TokenState.length_take {ts ts' : TokenState} {k : Nat} {codes : List Byte}
    (h : ts.take cfg k = .ok (codes, ts')) : codes.length = k := by
  induction k generalizing ts codes ts' with
  | zero =>
    simp only [TokenState.take, Except.ok.injEq, Prod.mk.injEq] at h
    rw [← h.1]; rfl
  | succ k ih =>
    unfold TokenState.take at h
    split at h
    · exact absurd h (by simp)
    · split at h
      · exact absurd h (by simp)
      · rename_i codes' ts2 h2
        simp only [Except.ok.injEq, Prod.mk.injEq] at h
        obtain ⟨rfl, rfl⟩ := h
        rw [List.length_cons, ih h2]

/-- A stream packet of at most 6 codes has 8 bytes (30_encoding.md R117). -/
theorem length_streamPacket {codes : List Byte} (h : codes.length ≤ 6) :
    (streamPacket cfg codes).length = 8 := by
  simp only [streamPacket, List.length_cons, List.length_append, List.length_replicate, pktSyms]
  omega

end Sys2Proof.Machine
end

