-- ==== Sys2Proof/Machine/Pseudo.lean ====
section
/-! DEFINITION. The pseudo-commands (30_encoding.md R99): sequences of commands the host sends, no encodings.
Where an expansion polls (`MF.COMPRESS` repeats `SYS.STATUS`) or uses a value read (`MF.READOUT`), the number of
polls and the value are arguments (log 12). -/

namespace Sys2Proof.Machine

/-- `MF.COMPRESS B`, with `polls` repetitions of `SYS.STATUS`. -/
def pseudoCompress (bytes : List Byte) (polls : Nat) : List Instr :=
  .mfClear :: bytes.map .mfPut ++ .mfStart :: List.replicate polls .sysStatus

/-- `MF.READOUT`, for the `OLEN` that its first command returns. -/
def pseudoReadout (olen : Nat) : List Instr :=
  .mfInfo 2 :: (List.range olen).map (fun i => .mfGet (BitVec.ofNat 32 i))

/-- `BC.LOAD B, cap`. -/
def pseudoLoad (bytes : List Byte) (cap : Word) : List Instr :=
  .bcAlloc cap :: bytes.map (fun b => .bcWriteByte (b.setWidth 32)) ++ [.bcSeek 0]

/-- One packet of `TC.SENDCHUNK` and the release packet after it, each read out (30_encoding.md R119). -/
def pseudoPacket (k : Nat) : List Instr :=
  let readPacket := (List.range pktBytes).map (fun i => Instr.tcRdPkt (BitVec.ofNat 8 i))
  .tcPacket (BitVec.ofNat 8 k) :: readPacket ++ .tcRelease :: readPacket

/-- The number of token values in `n` bytes, ceil(8 * n / w) (30_encoding.md R114). -/
def tokenCount (mode : TcMode) (n : Nat) : Nat :=
  match mode with
  | .fixed6 => (8 * n + (w6 - 1)) / w6
  | .antirep5 => (8 * n + (w5 - 1)) / w5

/-- `TC.SENDCHUNK n` in a mode. -/
def pseudoSendChunk (mode : TcMode) (n : Nat) : List Instr :=
  let g := tokenCount mode n
  (List.replicate (g / pktSyms) (pseudoPacket pktSyms)).flatten
    ++ if g % pktSyms = 0 then [] else pseudoPacket (g % pktSyms)

end Sys2Proof.Machine
end

