-- ==== Sys2Proof/Tests/Slice0.lean ====
section
/-! SUPPORT. Tests. Expected words, responses and values are from the examples of the rules and from the vectors of
95_test_vectors.md, or computed by hand from the rule named. -/

namespace Sys2Proof.Tests

open Sys2Proof Sys2Proof.Machine

/-! ### Well-formedness: each check refuses an ill-formed term -/

theorem test_legal_refuses_unassigned_op : (Cmd.mk 0x03 0 0).legal = false := by decide
theorem test_legal_refuses_nonzero_a : (Cmd.mk 0x11 1 0).legal = false := by decide
theorem test_legal_refuses_nonzero_v : (Cmd.mk 0x21 0 1).legal = false := by decide
theorem test_legal_accepts_both_fields : (Cmd.mk 0x13 7 0x0A).legal = true := by decide

theorem test_wellFormed_refuses_read_0 : (Instr.bcReadBits 0).wellFormed = false := by decide
theorem test_wellFormed_refuses_read_33 : (Instr.bcReadBits 33).wellFormed = false := by decide
theorem test_wellFormed_refuses_write_0 : (Instr.bcWriteBits 0 1).wellFormed = false := by decide
theorem test_wellFormed_refuses_write_33 : (Instr.bcWriteBits 33 1).wellFormed = false := by decide
theorem test_wellFormed_refuses_sel_7 : (Instr.mfInfo 7).wellFormed = false := by decide
theorem test_wellFormed_refuses_mode_2 : (Instr.tcInit 2).wellFormed = false := by decide
theorem test_wellFormed_refuses_packet_0 : (Instr.tcPacket 0).wellFormed = false := by decide
theorem test_wellFormed_refuses_packet_7 : (Instr.tcPacket 7).wellFormed = false := by decide
theorem test_wellFormed_refuses_index_8 : (Instr.tcRdPkt 8).wellFormed = false := by decide
theorem test_wellFormed_accepts_limits :
    ([.bcReadBits 1, .bcReadBits 32, .bcWriteBits 32 0, .mfInfo 6, .tcInit 1, .tcPacket 1, .tcPacket 6, .tcRdPkt 7] :
      List Instr).all Instr.wellFormed = true := by decide

/-! ### Decoding: words written out from 30_encoding.md R91, R94 and the rules' examples -/

theorem test_decode_sysNop : decode 0x000000000000 = .ok .sysNop := rfl
theorem test_decode_sysReset : decode 0x010000000000 = .ok .sysReset := rfl
theorem test_decode_sysStatus : decode 0x020000000000 = .ok .sysStatus := rfl
theorem test_decode_bcAlloc : decode 0x100000000003 = .ok (.bcAlloc 3) := rfl
theorem test_decode_bcSeek : decode 0x110000000011 = .ok (.bcSeek 17) := rfl
theorem test_decode_bcReadBits : decode 0x120300000000 = .ok (.bcReadBits 3) := rfl
theorem test_decode_bcWriteBits : decode 0x1305FFFFFFF5 = .ok (.bcWriteBits 5 0xFFFFFFF5) := rfl
theorem test_decode_bcReadByte : decode 0x140000000000 = .ok .bcReadByte := rfl
theorem test_decode_bcWriteByte : decode 0x15000000004D = .ok (.bcWriteByte 0x4D) := rfl
theorem test_decode_mfClear : decode 0x200000000000 = .ok .mfClear := rfl
theorem test_decode_mfPut : decode 0x214100000000 = .ok (.mfPut 0x41) := rfl
theorem test_decode_mfStart : decode 0x220000000000 = .ok .mfStart := rfl
theorem test_decode_mfCancel : decode 0x230000000000 = .ok .mfCancel := rfl
theorem test_decode_mfInfo : decode 0x240200000000 = .ok (.mfInfo 2) := rfl
theorem test_decode_mfGet : decode 0x250000000006 = .ok (.mfGet 6) := rfl
theorem test_decode_tcInit : decode 0x300100000000 = .ok (.tcInit 1) := rfl
theorem test_decode_tcNext : decode 0x310000000000 = .ok .tcNext := rfl
theorem test_decode_tcPacket : decode 0x320400000000 = .ok (.tcPacket 4) := rfl
theorem test_decode_tcRelease : decode 0x330000000000 = .ok .tcRelease := rfl
theorem test_decode_tcRdPkt : decode 0x340200000000 = .ok (.tcRdPkt 2) := rfl

/-- Vectors S3, B16 and S8: an unassigned opcode, and fields that must be 0. -/
theorem test_decode_refuses_opcode : decode 0x030000000000 = .error .unassignedOpcode := rfl
theorem test_decode_refuses_a : decode 0x110100000000 = .error .nonzeroA := rfl
theorem test_decode_refuses_v : decode 0x210000000001 = .error .nonzeroV := rfl
/-- The ranges of unassigned opcodes of 30_encoding.md R96, at their ends. -/
theorem test_decode_refuses_opcode_ranges :
    ([0x03, 0x0F, 0x16, 0x1F, 0x26, 0x2F, 0x35, 0xFF] : List Nat).all
      (fun op => (decodeTableWord 48 (op * 2 ^ 40)).isNone) = true := by decide

theorem test_tableWord : decodeTableWord 48 0x132040414141 = some (.bcWriteBits 32 0x40414141) := rfl

/-! ### States for the tests below -/

/-- The buffer holds `bytes`, with the cursor at `pos`. -/
def bufState (bytes : List Byte) (pos : Word) : State :=
  { State.reset with bc := { buf := Memory.writeBytes [] 0 bytes, len := BitVec.ofNat 32 bytes.length, pos := pos } }

/-- The input holds `bytes`, nothing started. -/
def inputState (bytes : List Byte) : State :=
  { State.reset with mf :=
    { MF.reset with inp := Memory.writeBytes [] 0 bytes, n := BitVec.ofNat 32 bytes.length } }

/-- Ten bytes 0x41 (vector M1). -/
def tenA : List Byte := List.replicate 10 0x41

/-- Just after `MF.START` on `bytes`. -/
def startedState (bytes : List Byte) : State :=
  { inputState bytes with mf := { (inputState bytes).mf with st := .running } }

/-- A cancellation request in `RUNNING`. -/
def cancelState (bytes : List Byte) : State :=
  { startedState bytes with mf := { (startedState bytes).mf with cancelReq := true } }

/-- Vector X2: ten bytes, the request seen by the first step. The one byte of output is 0. -/
def abortedState : State :=
  { cancelState tenA with mf := { (cancelState tenA).mf with st := .aborted, olen := 1 } }

/-- Vector M5: `DONE` on "QR", with the stream 00 51 52. -/
def doneState : State :=
  { inputState [0x51, 0x52] with mf :=
    { (inputState [0x51, 0x52]).mf with
      p := 2, out := [(1, 0x51), (2, 0x52)], olen := 3, tokens := 1, st := .done } }

/-- `s` in the fault state with the code of `c`. -/
def faultedState (c : Cause) (s : State) : State := s.enterFault c

/-- `ANTIREP5` after `TC.INIT mode=1`, over the buffer `bytes`. -/
def antirepState (bytes : List Byte) (pos : Word) : State :=
  { bufState bytes pos with tc := (TC.reset Config.example).init Config.example .antirep5 }

/-- `TC.INIT mode=1` and 11 selections of value 31 under an alphabet of `size` symbols: indices 31 to 41 (vectors T6,
T9), over 7 bytes of ones and with POS = 0. -/
def fullFifoState (size : Nat) : State :=
  let cfg := { Config.example with alpha5 := (List.range size).map (fun i => BitVec.ofNat 8 (128 + i)) }
  { State.resetWith cfg with
    bc := { buf := Memory.writeBytes [] 0 (List.replicate 7 0xFF), len := 7, pos := 0 }
    tc := { mode := .antirep5, usable := (List.range size).map (fun i => i < 31 || 41 < i)
            arq := List.range' 31 11, pkt := List.replicate 8 0 } }

/-- What a command does to `s`, seen through `f`. -/
def seen {α : Type} (f : State → α) (i : Instr) (s : State) : Option α :=
  match exec i s with
  | .next t => some (f t)
  | _ => none

/-- The response to a command. -/
def answer (i : Instr) (s : State) : Option RspWord := (seen (fun t => t.port.responses.head?) i s).join

/-- What one engine step does to `s`, seen through `f`. -/
def stepped {α : Type} (f : State → α) (s : State) : Option α :=
  match s.engineTurn with
  | .next t => some (f t)
  | _ => none

/-! ### One step of each command -/

theorem test_nop_answers_ok : answer .sysNop (startedState tenA) = some 0 := by decide
theorem test_nop_in_fault_state : answer .sysNop (faultedState .mfAddrRange State.reset) = some 0 := by decide
theorem test_reset_clears : seen (fun t => (t.mf.n, t.mf.st, t.sys.faulted)) .sysReset
    (faultedState .mfOutOverflow (startedState tenA)) = some (0, .idle, false) := by decide
/-- Vector S6. -/
theorem test_status_after_seek_fault : answer .sysStatus (faultedState .bcSeekRange State.reset) =
    some 0x0000001280 := by decide
/-- 43_system.md R262, the example's ANTIREP5 with three selections in `DONE`. -/
theorem test_status_fields : answer .sysStatus
    { doneState with tc := { doneState.tc with mode := .antirep5, arq := [0, 1, 2] } } = some 0x0000030012 := by
  decide
theorem test_alloc_zero_fills : seen (fun t => (t.bc.len, t.bc.pos, t.bc.buf)) (.bcAlloc 3)
    (bufState [0xA5, 0x3C, 0xF0, 0x11] 9) = some (3, 0, [(3, 0x11)]) := by decide
theorem test_alloc_over_capacity : answer (.bcAlloc 0x20000000) State.reset = some 0x1100000000 := by decide
/-- Vector B7. -/
theorem test_seek_to_end : seen (fun t => t.bc.pos) (.bcSeek 24) (bufState [1, 2, 3] 0) = some 24 := by decide
theorem test_seek_past_end : answer (.bcSeek 25) (bufState [1, 2, 3] 0) = some 0x1200000000 := by decide
/-- Vector B1, the fourth read. -/
theorem test_read_past_end : answer (.bcReadBits 10) (bufState [0xA5, 0x3C, 0xF0] 17) = some 896 := by decide
/-- Vector B15. -/
theorem test_read_pos_overflow : answer (.bcReadBits 1) (bufState [] 0xFFFFFFFF) = some 0x1500000000 := by decide
/-- Vector B2. -/
theorem test_write_bits : seen (fun t => (t.bc.buf, t.bc.pos)) (.bcWriteBits 7 0x0A) (bufState [0xFF, 0xFF] 3) =
    some ([(0, 0xE2), (1, 0xBF)], 10) := by decide
/-- Vector B5. -/
theorem test_write_past_end : seen (fun t => (t.bc, t.sys.faultCode)) (.bcWriteBits 7 0) (bufState [1, 2] 10) =
    some ((bufState [1, 2] 10).bc, 0x14) := by decide
/-- Vector B12. -/
theorem test_read_byte_unaligned : answer .bcReadByte (bufState [0xA5, 0x3C, 0xF0] 4) = some 0x53 := by decide
/-- 40_bitcursor.md R138 at bit 4: only the low 8 bits are written. -/
theorem test_write_byte_unaligned : seen (fun t => t.bc.buf) (.bcWriteByte 0xABCD) (bufState [0xFF, 0xFF] 4) =
    some [(0, 0xFC), (1, 0xDF)] := by decide
theorem test_clear_keeps_memories : seen (fun t => (t.mf.n, t.mf.olen, t.mf.st, t.mf.out)) .mfClear doneState =
    some (0, 0, .idle, [(1, 0x51), (2, 0x52)]) := by decide
/-- Vector S7. -/
theorem test_clear_busy : answer .mfClear (startedState tenA) = some 0x0100000000 := by decide
theorem test_put_appends : seen (fun t => (t.mf.n, t.mf.inp)) (.mfPut 0x42) (inputState [0x41]) =
    some (2, [(0, 0x41), (1, 0x42)]) := by decide
/-- Vector S9. -/
theorem test_put_in_done : answer (.mfPut 0) doneState = some 0x2400000000 := by decide
/-- Vector M2. -/
theorem test_start_no_data : seen (fun t => (t.mf.st, t.mf.olen)) .mfStart State.reset = some (.noData, 0) := by
  decide
theorem test_start_from_done : seen (fun t => (t.mf.st, t.mf.p, t.mf.tokens, t.mf.olen)) .mfStart doneState =
    some (.running, 0, 0, 0) := by decide
/-- Vector X4. -/
theorem test_cancel_in_done : seen (fun t => t.mf.cancelReq) .mfCancel doneState = some false := by decide
theorem test_cancel_in_running : seen (fun t => t.mf.cancelReq) .mfCancel (startedState tenA) = some true := by
  decide
theorem test_info_olen : answer (.mfInfo 2) doneState = some 3 := by decide
/-- Vector S12. -/
theorem test_info_bad_selector : answer (.mfInfo 7) doneState = some 0x2300000000 := by decide
theorem test_get_last_byte : answer (.mfGet 2) doneState = some 0x52 := by decide
theorem test_get_past_end : answer (.mfGet 3) doneState = some 0x2200000000 := by decide
theorem test_init_keeps_packet : seen (fun t => (t.tc.mode, t.tc.arq, t.tc.pkt)) (.tcInit 0)
    { fullFifoState 45 with tc := { (fullFifoState 45).tc with pkt := List.replicate 8 7 } } =
    some (.fixed6, [], List.replicate 8 7) := by decide
/-- Vector T13. -/
theorem test_init_bad_mode : answer (.tcInit 2) State.reset = some 0x3200000000 := by decide
/-- Vector T2, the first symbol. -/
theorem test_next_fixed : answer .tcNext (bufState [0x4D, 0x61, 0x6E] 0) = some 0x53 := by decide
/-- Vector T9, the 12th command: nothing but the fault state changes. -/
theorem test_next_token_range : seen (fun t => (t.sys.faultCode, t.bc.pos, t.tc.arq)) .tcNext (fullFifoState 42) =
    some (0x30, 0, List.range' 31 11) := by decide
/-- Vector K1. -/
theorem test_packet_fixed : seen (fun t => (t.tc.pkt, t.bc.pos)) (.tcPacket 4) (bufState [0x4D, 0x61, 0x6E] 0) =
    some ([0xFF, 0x00, 0x53, 0x56, 0x45, 0x6E, 0x00, 0x00], 24) := by decide
/-- Vector K5: a later selection's fault voids the whole command. -/
theorem test_packet_void : seen (fun t => (t.sys.faultCode, t.bc.pos, t.tc)) (.tcPacket 6)
    { fullFifoState 42 with tc := { (fullFifoState 42).tc with
        usable := (List.range 42).map (fun i => i < 31 || 39 < i), arq := List.range' 31 9 } } =
    some (0x30, 0, { (fullFifoState 42).tc with
        usable := (List.range 42).map (fun i => i < 31 || 39 < i), arq := List.range' 31 9 }) := by decide
theorem test_release : seen (fun t => t.tc.pkt) .tcRelease
    { State.reset with tc := { State.reset.tc with pkt := [0xFF, 0, 0x53, 0x56, 0x45, 0x6E, 0, 0] } } =
    some [0, 0, 0, 0, 0, 0, 0, 0] := by decide
/-- 42_tokencodec.md R243's example. -/
theorem test_rdpkt : answer (.tcRdPkt 2)
    { State.reset with tc := { State.reset.tc with pkt := [0xFF, 0, 0x53, 0x56, 0x45, 0x6E, 0, 0] } } =
    some 0x53 := by decide
/-- Vector K6. -/
theorem test_rdpkt_bad_index : answer (.tcRdPkt 8) State.reset = some 0x3300000000 := by decide

/-! ### The engine, the hash, the decoder and the step -/

/-- Vectors H1 and H2. -/
theorem test_hash_abc_then_d : roll (roll (roll (roll 0 0x61) 0x62) 0x63) 0x64 = 0x226364 := by decide
theorem test_hash_collision : hashAt [(1, 0x11), (2, 0x22)] 0 = hashAt [(0, 0x40), (1, 0x11), (2, 0x22)] 0 := by
  decide
/-- Vector M1, the first decision. -/
theorem test_engine_literal : stepped (fun t => (t.mf.p, t.mf.tokens, t.mf.fill, t.mf.ctrl)) (startedState tenA) =
    some (3, 1, 1, 0) := by decide
/-- Vector M5. -/
theorem test_engine_done : stepped (fun t => t.mf) (startedState [0x51, 0x52]) =
    some { doneState.mf with stage := [(0, 0x51), (1, 0x52)] } := by decide
/-- Vector X2. -/
theorem test_engine_cancelled : stepped (fun t => t.mf) (cancelState tenA) = some abortedState.mf := by decide
/-- 41_matchfinder.md R178 with OUT_CAP = 1: the step is void. -/
theorem test_engine_overflow :
    let s := { startedState [0x51, 0x52] with cfg := { Config.example with outCap := 1 } }
    stepped (fun t => (t.mf, t.sys.faultCode)) s = some (s.mf, 0x21) := by decide
/-- Vectors D1, D3, D5 and D13. -/
theorem test_decoder_reads_m1 : (decodeStream .msbFirst [0x40, 0x41, 0x41, 0x41, 0x00, 0x01, 0x04] 10).toOption =
    some (tenA, 7) := by decide
theorem test_decoder_overrun : decodeStream .msbFirst [0x40, 0x41, 0x41, 0x41, 0x00, 0x01, 0x04] 9 =
    .error .overrun := rfl
theorem test_decoder_bad_distance : decodeStream .msbFirst [0x40, 0x41, 0x41, 0x41, 0x00, 0x00, 0x04] 10 =
    .error .badDistance := rfl
theorem test_decoder_trailing_group : (decodeStream .msbFirst [0x40, 0x41, 0x41, 0x41, 0x00, 0x01, 0x04, 0x00] 10).toOption =
    some (tenA, 7) := by decide
/-- 30_encoding.md R114: 7 bytes are 10 tokens of 6 bits (vector K4). -/
theorem test_send_chunk_tokens : tokenCount .fixed6 7 = 10 := by decide

/-- The first step after reset runs the command placed on the port. -/
theorem test_step_runs_word : step (State.reset.withFetchWord 48 0x110000000001) = exec (.bcSeek 1) State.reset :=
  rfl
/-- Vector S4: an illegal word in the fault state. -/
theorem test_step_illegal_in_fault_state :
    step ((faultedState .mfAddrRange State.reset).withFetchWord 48 0x030000000000) =
      .next ((faultedState .mfAddrRange State.reset).respond 0x02 0) := rfl

/-! ### Witnesses: concrete states and operands that meet the hypotheses of a statement together -/

/-- The parts of `MF.Inv` that are decided by evaluation. -/
abbrev checks (cfg : Config) (mf : MF) : Prop :=
  (mf.inp.wf ∧ mf.stage.wf ∧ mf.out.wf ∧ mf.n.toNat ≤ cfg.inCap ∧ mf.p.toNat ≤ mf.n.toNat ∧
    mf.olen.toNat ≤ cfg.outCap ∧ (mf.st = .running → mf.p.toNat < mf.n.toNat) ∧ mf.fill.toNat < slotsPerGroup) ∧
  (mf.slen.toNat ≤ 3 * mf.fill.toNat ∧
    (∀ k, k < slotsPerGroup → mf.fill.toNat ≤ k → mf.ctrl.getLsbD (slotBit cfg.ctrlBitOrder k) = false) ∧
    mf.tokens.toNat ≤ mf.p.toNat) ∧
  (mf.st = .idle → mf.p = 0 ∧ mf.fill = 0 ∧ mf.olen = 0 ∧ mf.tokens = 0 ∧ mf.cancelReq = false) ∧
  (mf.st = .noData → mf.n = 0 ∧ mf.fill = 0 ∧ mf.olen = 0 ∧ mf.cancelReq = false) ∧
  (mf.st = .done → mf.p = mf.n ∧ 0 < mf.n.toNat ∧ mf.fill = 0) ∧
  (mf.st = .aborted → mf.cancelReq = true ∧ mf.p.toNat < mf.n.toNat ∧ mf.fill = 0)

/-- The invariant of a matcher that tracks no position. -/
theorem mfInv_of_untracked {cfg : Config} {mf : MF} (hr : mf.registered = 0) (he : mf.evq = [])
    (ht : mf.table = []) (h : checks cfg mf) : mf.Inv cfg := by
  obtain ⟨⟨h1, h2, h3, h4, h5, h6, h7, h8⟩, ⟨h9, h10, h11⟩, h12, h13, h14, h15⟩ := h
  have htr : mf.tracked = [] := by simp [MF.tracked, hr]
  exact
    { inp_wf := h1, stage_wf := h2, out_wf := h3, table_wf := by rw [ht]; decide, n_le := h4, p_le := h5
      olen_le := h6, running_p_lt := h7, fill_lt := h8, slen_le := h9, ctrl_unused := fun k a b => h10 k b a
      tokens_le := h11, evq_eq := by rw [he, htr]
      bucket_eq := fun h => by simp [ht, MF.trackedOf, htr, Table.bucket]
      h_eq := fun h => by omega
      idle_clear := h12, noData_clear := h13, done_end := h14, aborted_end := h15 }

/-- The invariant of a state whose matcher tracks no position. -/
theorem inv_of_untracked {s : State} (hc : s.cfg.wf) (hb : s.bc.buf.wf ∧ s.bc.len.toNat ≤ s.cfg.bufCap)
    (hr : s.mf.registered = 0) (he : s.mf.evq = []) (ht : s.mf.table = []) (hm : checks s.cfg s.mf)
    (hk : (s.tc.usable.length = s.cfg.a5Size ∧ s.tc.arq.length < arDepth ∧ s.tc.arq.Nodup) ∧
      (∀ i ∈ s.tc.arq, i < s.cfg.a5Size) ∧
      (∀ i, i < s.cfg.a5Size → (s.tc.usable[i]? = some false ↔ i ∈ s.tc.arq)) ∧ s.tc.pkt.length = pktBytes)
    (hy : s.sys.faulted = false ∧ s.sys.faultCode = 0) : s.Inv where
  cfg_wf := hc
  bc := ⟨hb.1, hb.2⟩
  mf := mfInv_of_untracked hr he ht hm
  tc := ⟨hk.1.1, hk.1.2.1, hk.1.2.2, hk.2.1, hk.2.2.1, hk.2.2.2⟩
  sys := ⟨fun _ => hy.2, fun h => by simp [hy.1] at h⟩

/-- The invariant outlives a fault. -/
theorem inv_faulted {s : State} (h : s.Inv) (c : Cause) : (faultedState c s).Inv where
  cfg_wf := h.cfg_wf
  bc := h.bc
  mf := h.mf
  tc := h.tc
  sys := ⟨fun h => Bool.noConfusion h, fun _ => ⟨c, rfl⟩⟩

theorem test_inv_bufState : (bufState [0xA5, 0x3C, 0xF0, 0x0F] 0).Inv :=
  inv_of_untracked (by decide) (by decide) (by decide) rfl rfl (by decide) (by decide) (by decide)
theorem test_inv_startedState : (startedState tenA).Inv :=
  inv_of_untracked (by decide) (by decide) (by decide) rfl rfl (by decide) (by decide) (by decide)
theorem test_inv_cancelState : (cancelState tenA).Inv :=
  inv_of_untracked (by decide) (by decide) (by decide) rfl rfl (by decide) (by decide) (by decide)
theorem test_inv_abortedState : abortedState.Inv :=
  inv_of_untracked (by decide) (by decide) (by decide) rfl rfl (by decide) (by decide) (by decide)
theorem test_inv_doneState : doneState.Inv :=
  inv_of_untracked (by decide) (by decide) (by decide) rfl rfl (by decide) (by decide) (by decide)
theorem test_inv_antirepState : (antirepState [0x12, 0x34] 0).Inv :=
  inv_of_untracked (by decide) (by decide) (by decide) rfl rfl (by decide) (by decide) (by decide)
theorem test_inv_fullFifoState42 : (fullFifoState 42).Inv :=
  inv_of_untracked (by decide) (by decide) (by decide) rfl rfl (by decide) (by decide) (by decide)
theorem test_inv_fullFifoState43 : (fullFifoState 43).Inv :=
  inv_of_untracked (by decide) (by decide) (by decide) rfl rfl (by decide) (by decide) (by decide)

theorem test_streamInv_startedState : (startedState tenA).StreamInv := fun _ => ⟨[], trivial, rfl, rfl,
  fun _ => rfl, fun _ => rfl, fun _ => rfl, fun _ => rfl, by decide⟩
theorem test_streamInv_abortedState : abortedState.StreamInv := fun _ => ⟨[], trivial, rfl, rfl,
  by decide, by decide, by decide, by decide, fun _ => rfl⟩
theorem test_streamInv_doneState : doneState.StreamInv := fun _ => ⟨[.literal [0x51, 0x52]], ⟨by decide, trivial⟩, rfl,
  rfl, by decide, by decide, by decide, by decide, fun _ => rfl⟩

/-- After the first decision on ten bytes 0x41: positions 0, 1, 2 are tracked (vector M1). -/
def trackingState : State :=
  { startedState tenA with mf := { (startedState tenA).mf with
      p := 3, h := 0x014141, table := [(0x014141, [2, 1, 0])], evq := [0, 1, 2], fill := 1
      stage := [(0, 0x41), (1, 0x41), (2, 0x41)], slen := 3, tokens := 1 } }

theorem test_engine_reaches_trackingState : stepped (fun t => t.mf) (startedState tenA) = some trackingState.mf := by
  decide

/-- Vector M1, the second decision: the match M(3, 1, 7), and the stream 40 41 41 41 00 01 04. -/
theorem test_engine_match : stepped (fun t => (t.mf.out, t.mf.olen, t.mf.p, t.mf.tokens, t.mf.st)) trackingState =
    some ([(0, 0x40), (1, 0x41), (2, 0x41), (3, 0x41), (5, 0x01), (6, 0x04)], 7, 10, 2, .done) := by decide
theorem test_decision_m1 : trackingState.mf.decision = .copy 1 7 ∧
    trackingState.mf.stepOutput trackingState.cfg = [0x40, 0x41, 0x41, 0x41, 0x00, 0x01, 0x04] := by decide

theorem test_inv_trackingState : trackingState.Inv where
  cfg_wf := by decide
  bc := ⟨by decide, by decide⟩
  tc := ⟨by decide, by decide, by decide, by decide, by decide, by decide⟩
  sys := ⟨fun _ => rfl, fun h => Bool.noConfusion h⟩
  mf :=
    { inp_wf := by decide, stage_wf := by decide, out_wf := by decide, table_wf := by decide, n_le := by decide
      p_le := by decide, olen_le := by decide, running_p_lt := by decide, fill_lt := by decide, slen_le := by decide
      ctrl_unused := by
        have h : ∀ k, k < slotsPerGroup → trackingState.mf.fill.toNat ≤ k →
          trackingState.mf.ctrl.getLsbD (slotBit trackingState.cfg.ctrlBitOrder k) = false := by decide
        exact fun k a b => h k b a
      tokens_le := by decide, evq_eq := by decide
      bucket_eq := fun h => by
        have ht : trackingState.mf.tracked = [0, 1, 2] := by decide
        have h0 : (hashAt trackingState.mf.inp 0).toNat = 0x014141 := by decide
        have h1 : (hashAt trackingState.mf.inp 1).toNat = 0x014141 := by decide
        have h2 : (hashAt trackingState.mf.inp 2).toNat = 0x014141 := by decide
        have hb : trackingState.mf.table.bucket h = if 0x014141 = h then [2, 1, 0] else [] := rfl
        rw [hb, MF.trackedOf, ht]
        by_cases e : 0x014141 = h <;> simp [h0, h1, h2, e]
      h_eq := by decide, idle_clear := by decide, noData_clear := by decide, done_end := by decide
      aborted_end := by decide }

theorem test_streamInv_trackingState : trackingState.StreamInv := fun _ =>
  ⟨[.literal [0x41, 0x41, 0x41]], ⟨by decide, trivial⟩, by decide, by decide, by decide, by decide, by decide,
    by decide, by decide⟩

/-- Under `FLUSH_EMPTY_GROUP = false`. -/
def noFlush (s : State) : State := { s with cfg := { Config.example with flushEmptyGroup := false } }

theorem test_inv_noFlush_cancelState : (noFlush (cancelState tenA)).Inv :=
  inv_of_untracked (by decide) (by decide) (by decide) rfl rfl (by decide) (by decide) (by decide)
theorem test_inv_startedQR : (startedState [0x51, 0x52]).Inv :=
  inv_of_untracked (by decide) (by decide) (by decide) rfl rfl (by decide) (by decide) (by decide)

/-- `s` with the output memory of `cap` bytes. -/
def outCapState (cap : Nat) (s : State) : State := { s with cfg := { s.cfg with outCap := cap } }

/-- At P = 0 with 7 slots in the open group, none of them with a byte; no run reaches it, and the invariant admits
it. -/
def seventhState (bytes : List Byte) : State :=
  { startedState bytes with mf := { (startedState bytes).mf with fill := 7 } }

/-- One byte of output, and a cancellation request. -/
def cancelFullState : State :=
  outCapState 1 { cancelState tenA with mf := { (cancelState tenA).mf with olen := 1 } }

theorem test_inv_outCap1 : (outCapState 1 (startedState [0x51, 0x52])).Inv :=
  inv_of_untracked (by decide) (by decide) (by decide) rfl rfl (by decide) (by decide) (by decide)
theorem test_inv_outCap3 : (outCapState 3 (startedState [0x51, 0x52])).Inv :=
  inv_of_untracked (by decide) (by decide) (by decide) rfl rfl (by decide) (by decide) (by decide)
theorem test_inv_seventh10 : (seventhState tenA).Inv :=
  inv_of_untracked (by decide) (by decide) (by decide) rfl rfl (by decide) (by decide) (by decide)
theorem test_inv_seventhLast : (seventhState [1, 2, 3]).Inv :=
  inv_of_untracked (by decide) (by decide) (by decide) rfl rfl (by decide) (by decide) (by decide)
theorem test_inv_seventh3 : (outCapState 4 (seventhState [1, 2, 3])).Inv :=
  inv_of_untracked (by decide) (by decide) (by decide) rfl rfl (by decide) (by decide) (by decide)
theorem test_inv_cancelFullState : cancelFullState.Inv :=
  inv_of_untracked (by decide) (by decide) (by decide) rfl rfl (by decide) (by decide) (by decide)

/-- Eight literal runs of zeros, one group flushed: 25 bytes of 0. -/
def zerosState : State :=
  { State.reset with mf := { MF.reset with
      n := 30, p := 24, table := [(0, (List.range 24).reverse)], evq := List.range 24, olen := 25, tokens := 8
      st := .running } }

theorem test_inv_zerosState : zerosState.Inv where
  cfg_wf := by decide
  bc := ⟨by decide, by decide⟩
  tc := ⟨by decide, by decide, by decide, by decide, by decide, by decide⟩
  sys := ⟨fun _ => rfl, fun h => Bool.noConfusion h⟩
  mf :=
    { inp_wf := by decide, stage_wf := by decide, out_wf := by decide, table_wf := by decide, n_le := by decide
      p_le := by decide, olen_le := by decide, running_p_lt := by decide, fill_lt := by decide, slen_le := by decide
      ctrl_unused := fun k _ _ => by simp [zerosState, MF.reset]
      tokens_le := by decide, evq_eq := by decide
      bucket_eq := fun h => by
        have ht : zerosState.mf.tracked = List.range 24 := by decide
        have h0 : ∀ q, (hashAt zerosState.mf.inp q).toNat = 0 := fun _ => by
          change (roll (roll (roll 0 0) 0) 0).toNat = 0; decide
        have hb : zerosState.mf.table.bucket h = if 0 = h then (List.range 24).reverse else [] := rfl
        rw [hb, MF.trackedOf, ht]
        by_cases e : 0 = h <;> simp [h0, e]
      h_eq := by decide, idle_clear := by decide, noData_clear := by decide, done_end := by decide
      aborted_end := by decide }

theorem test_emitted_zerosState : zerosState.mf.Emitted zerosState.cfg (List.replicate 8 (.literal [0, 0, 0])) where
  valid := by repeat' first | exact trivial | refine ⟨by decide, ?_⟩
  count := by decide
  covers := by decide
  running_out := fun _ => by decide
  running_fill := by decide
  running_ctrl := by decide
  running_stage := by decide
  ended_out := by decide

/-- The port of `s` with words to send and a schedule. -/
def onPort (s : State) (words : List CmdWord) (events : List Event) : State :=
  { s with port := { s.port with pending := words, schedule := events } }

/-- Two symbols' worth of room before POS overflows. -/
def nearOverflow (pos : Word) : State := { State.reset with bc := { State.reset.bc with pos := pos } }

/-! Command words. -/

theorem test_witness_StepRunsDecodedCommand :
    (let s := onPort (startedState tenA) [0x110000000001] [.hostCommand]
     s.port.pending = 0x110000000001 :: [] ∧ decode 0x110000000001 = .ok (.bcSeek 1) ∧
       s.port.schedule = .hostCommand :: []) ∧
    (let s := onPort State.reset [0x110000000001] []
     s.port.pending = 0x110000000001 :: [] ∧ decode 0x110000000001 = .ok (.bcSeek 1) ∧
       s.port.schedule = [] ∧ ¬(s.mf.st = .running ∧ s.sys.faulted = false)) := by
  refine ⟨⟨rfl, rfl, rfl⟩, rfl, rfl, rfl, by decide⟩
theorem test_witness_IllegalWordOutcome : (Cmd.ofWord 0x030000000000).legal = false ∧
    (faultedState .mfAddrRange State.reset).sys.faulted = true ∧ State.reset.sys.faulted = false := by decide
theorem test_witness_StatusWordLayout : (fullFifoState 43).Inv ∧ (fullFifoState 43).sys.faulted = false ∧
    (fullFifoState 43).tc.arq.length = 11 := ⟨test_inv_fullFifoState43, rfl, rfl⟩
theorem test_witness_ResetLeavesResetValues :
    (onPort (startedState tenA) [] [.hardReset]).port.schedule = .hardReset :: [] := rfl

/-! The bit cursor. -/

theorem test_witness_BitFunction : 31 < 8 * (bufState [1, 2, 3, 4] 0).bc.len.toNat ∧
    8 * (bufState [1, 2, 3, 4] 0).bc.len.toNat ≤ 32 := by decide
theorem test_witness_BcAllocResult : (bufState [1, 2] 3).bc.buf.wf ∧ (bufState [1, 2] 3).sys.faulted = false ∧
    (0x1FFFFFFF : Word).toNat ≤ (bufState [1, 2] 3).cfg.bufCap := by decide
theorem test_witness_BcSeekResult : (bufState [1, 2, 3] 0).sys.faulted = false ∧
    (24 : Word).toNat ≤ 8 * (bufState [1, 2, 3] 0).bc.len.toNat := by decide
theorem test_witness_BcReadResult :
    (let s := nearOverflow 0xFFFFFFDF
     (∃ a, Instr.bcReadBits 32 = .bcReadBits a ∧ a.toNat = 32) ∧ s.sys.faulted = false ∧ 1 ≤ 32 ∧ 32 ≤ 32 ∧
       s.bc.pos.toNat + 32 ≤ 2 ^ 32 - 1) ∧
    ((Instr.bcReadByte = .bcReadByte ∧ 8 = 8) ∧ (bufState [1] 4).bc.pos.toNat + 8 ≤ 2 ^ 32 - 1) :=
  ⟨⟨⟨32, rfl, rfl⟩, by decide⟩, by decide⟩
theorem test_witness_BcWriteResult :
    (let s := bufState [1, 2, 3, 4] 0
     (∃ a, Instr.bcWriteBits 32 5 = .bcWriteBits a 5 ∧ a.toNat = 32) ∧ s.bc.buf.wf ∧ s.sys.faulted = false ∧
       s.bc.pos.toNat + 32 ≤ 8 * s.bc.len.toNat ∧ s.bc.pos.toNat + 32 ≤ 2 ^ 32 - 1) ∧
    (let s := bufState [1, 2] 8
     (Instr.bcWriteByte 5 = .bcWriteByte 5 ∧ 8 = 8) ∧ s.bc.buf.wf ∧ s.sys.faulted = false ∧
       s.bc.pos.toNat + 8 ≤ 8 * s.bc.len.toNat) := ⟨⟨⟨32, rfl, rfl⟩, by decide⟩, by decide⟩
theorem test_witness_WrittenBitsReadBack : (bufState [0xA5, 0x3C, 0xF0, 0x0F] 0).Inv ∧
    (0 : Word).toNat + (32 : Byte).toNat ≤ 8 * (bufState [0xA5, 0x3C, 0xF0, 0x0F] 0).bc.len.toNat :=
  ⟨test_inv_bufState, by decide⟩
theorem test_witness_SplitReadsJoin : (1 : Byte).toNat + (31 : Byte).toNat ≤ 32 ∧
    (nearOverflow 0xFFFFFFDF).bc.pos.toNat + ((1 : Byte).toNat + (31 : Byte).toNat) ≤ 2 ^ 32 - 1 ∧
    (nearOverflow 0xFFFFFFDF).sys.faulted = false := by decide
theorem test_witness_WordReadsAndReadsPastEnd :
    ((bufState [0xA5, 0x3C, 0xF0, 0x0F] 0).Inv ∧ (bufState [0xA5, 0x3C, 0xF0, 0x0F] 0).bc.pos.toNat = 8 * 0 ∧
      0 + 4 ≤ (bufState [0xA5, 0x3C, 0xF0, 0x0F] 0).bc.len.toNat) ∧
    (8 * (bufState [1] 8).bc.len.toNat ≤ (bufState [1] 8).bc.pos.toNat ∧
      (bufState [1] 8).bc.pos.toNat + (32 : Byte).toNat ≤ 2 ^ 32 - 1 ∧ (bufState [1] 8).sys.faulted = false) :=
  ⟨⟨test_inv_bufState, rfl, by decide⟩, by decide⟩

/-! The matcher's commands. -/

theorem test_witness_MfClearResult : doneState.sys.faulted = false ∧ doneState.mf.st ≠ .running := by decide
theorem test_witness_MfPutResult :
    let s := { inputState [0x41] with cfg := { Config.example with inCap := 2 } }
    s.cfg.wf ∧ s.mf.inp.wf ∧ s.sys.faulted = false ∧ s.mf.st = .idle ∧ s.mf.n.toNat < s.cfg.inCap := by decide
theorem test_witness_MfStartResult :
    (State.reset.sys.faulted = false ∧ State.reset.mf.st ≠ .running ∧ State.reset.mf.n = 0) ∧
    (doneState.sys.faulted = false ∧ doneState.mf.st ≠ .running ∧ doneState.mf.n ≠ 0) := by decide
theorem test_witness_MfCancelResult : ((startedState tenA).sys.faulted = false ∧ (startedState tenA).mf.st = .running) ∧
    (doneState.sys.faulted = false ∧ doneState.mf.st ≠ .running) := by decide
theorem test_witness_MfInfoResult : trackingState.sys.faulted = false ∧ trackingState.mf.evq.length < 2 ^ 32 ∧
    (0 : Byte).toNat ≤ 6 ∧ (6 : Byte).toNat ≤ 6 := by decide
theorem test_witness_MfGetResult : doneState.sys.faulted = false ∧ doneState.mf.st ≠ .running ∧
    (2 : Word).toNat < doneState.mf.olen.toNat := by decide

/-! The engine. The empty memory reads 0 everywhere. -/

/-- The greatest distance and the greatest length. -/
theorem test_witness_SearchFindsNearestLongest : List.Pairwise (· > ·) [0] ∧ 0 < 65535 ∧ 65535 - 0 ≤ 65535 ∧
    258 ≤ min 258 (65793 - 65535) ∧ agreeFor [] 0 65535 258 ∧ 0 < (searchBucket [] 65793 65535 [0]).len :=
  ⟨by decide, by decide, by decide, by decide, fun _ _ => rfl, by decide +kernel⟩
theorem test_witness_SearchMayStopEarly : List.Pairwise (· > ·) [1, 0] ∧
    [1, 0].takeWhile (fun c => 65536 - c ≤ 65535) = [1] ∧
    (searchBucket [] 300 1 [0]).len = min 258 (300 - 1) ∧ 5 - 2 < 4 := by decide +kernel
theorem test_witness_EmittedMatchBounds : 3 < trackingState.mf.search.len := by decide
theorem test_witness_EngineDecisionEffects :
    (∃ t, (startedState tenA).Inv ∧ (startedState tenA).mf.st = .running ∧
      (startedState tenA).sys.faulted = false ∧ (startedState tenA).mf.cancelReq = false ∧
      (startedState tenA).engineTurn = .next t ∧ t.sys = (startedState tenA).sys ∧
      (startedState tenA).mf.fill.toNat + 1 < 8 ∧ t.mf.p ≠ t.mf.n) ∧
    (∃ t, (startedState [0x51, 0x52]).Inv ∧ (startedState [0x51, 0x52]).mf.st = .running ∧
      (startedState [0x51, 0x52]).sys.faulted = false ∧ (startedState [0x51, 0x52]).mf.cancelReq = false ∧
      (startedState [0x51, 0x52]).engineTurn = .next t ∧ t.sys = (startedState [0x51, 0x52]).sys ∧
      t.mf.p = t.mf.n) ∧
    (∃ t, (seventhState tenA).Inv ∧ (seventhState tenA).mf.st = .running ∧
      (seventhState tenA).sys.faulted = false ∧ (seventhState tenA).mf.cancelReq = false ∧
      (seventhState tenA).engineTurn = .next t ∧ t.sys = (seventhState tenA).sys ∧
      (seventhState tenA).mf.fill.toNat + 1 = 8 ∧ t.mf.p ≠ t.mf.n) ∧
    (∃ t, (seventhState [1, 2, 3]).Inv ∧ (seventhState [1, 2, 3]).mf.st = .running ∧
      (seventhState [1, 2, 3]).sys.faulted = false ∧ (seventhState [1, 2, 3]).mf.cancelReq = false ∧
      (seventhState [1, 2, 3]).engineTurn = .next t ∧ t.sys = (seventhState [1, 2, 3]).sys ∧
      (seventhState [1, 2, 3]).mf.fill.toNat + 1 = 8 ∧ t.mf.p = t.mf.n ∧
      (seventhState [1, 2, 3]).cfg.flushEmptyGroup = true ∧ 0 < t.mf.registered) :=
  ⟨⟨trackingState, test_inv_startedState, rfl, rfl, rfl, rfl, rfl, by decide, by decide⟩,
    ⟨_, test_inv_startedQR, rfl, rfl, rfl, rfl, rfl, by decide⟩,
    ⟨_, test_inv_seventh10, rfl, rfl, rfl, rfl, rfl, by decide, by decide⟩,
    ⟨_, test_inv_seventhLast, rfl, rfl, rfl, rfl, rfl, by decide, by decide, rfl, by decide⟩⟩
theorem test_witness_EngineCancellationEffects :
    (∃ t, (cancelState tenA).Inv ∧ (cancelState tenA).mf.st = .running ∧ (cancelState tenA).sys.faulted = false ∧
      (cancelState tenA).mf.cancelReq = true ∧ (cancelState tenA).engineTurn = .next t ∧
      t.sys = (cancelState tenA).sys ∧ (cancelState tenA).cfg.flushEmptyGroup = true) ∧
    (∃ t, (noFlush (cancelState tenA)).Inv ∧ (noFlush (cancelState tenA)).mf.st = .running ∧
      (noFlush (cancelState tenA)).engineTurn = .next t ∧ t.sys = (noFlush (cancelState tenA)).sys ∧
      (noFlush (cancelState tenA)).mf.fill = 0 ∧ (noFlush (cancelState tenA)).cfg.flushEmptyGroup = false) :=
  ⟨⟨_, test_inv_cancelState, rfl, rfl, rfl, rfl, rfl, rfl⟩, ⟨_, test_inv_noFlush_cancelState, rfl, rfl, rfl, rfl, rfl⟩⟩

/-- A step that faults, at OUT_CAP = 1. -/
def overflowState : State := outCapState 1 (startedState [0x51, 0x52])

/-- The flush on a cancellation, that of the last decision, that of the empty group after an eighth that is the last
(at OUT_CAP = 4 the first flush fits), and a flush that just fits. -/
theorem test_witness_EngineOverflowIsPrecise :
    (cancelFullState.Inv ∧ cancelFullState.mf.st = .running ∧ cancelFullState.sys.faulted = false ∧
      cancelFullState.mf.cancelReq = true ∧ cancelFullState.cfg.flushEmptyGroup = true ∧
      cancelFullState.cfg.outCap < cancelFullState.mf.olen.toNat + 1 + cancelFullState.mf.slen.toNat) ∧
    (overflowState.Inv ∧ overflowState.mf.st = .running ∧ overflowState.sys.faulted = false ∧
      overflowState.mf.cancelReq = false ∧ overflowState.mf.reachesEnd = true ∧ overflowState.cfg.outCap <
        overflowState.mf.olen.toNat + 1 + (overflowState.mf.slen.toNat + overflowState.mf.decision.payload.length)) ∧
    (let s := outCapState 4 (seventhState [1, 2, 3])
     s.Inv ∧ s.mf.st = .running ∧ s.sys.faulted = false ∧ s.mf.cancelReq = false ∧ s.mf.fillsGroup = true ∧
      s.mf.reachesEnd = true ∧ s.cfg.flushEmptyGroup = true ∧
      s.mf.olen.toNat + 1 + (s.mf.slen.toNat + s.mf.decision.payload.length) = s.cfg.outCap) ∧
    (let s := outCapState 3 (startedState [0x51, 0x52])
     s.Inv ∧ s.mf.st = .running ∧ s.sys.faulted = false ∧
      s.mf.olen.toNat + (s.mf.stepOutput s.cfg).length = s.cfg.outCap) :=
  ⟨⟨test_inv_cancelFullState, by decide⟩, ⟨test_inv_outCap1, by decide⟩, ⟨test_inv_seventh3, by decide⟩,
    test_inv_outCap3, by decide⟩

/-! The token encoder. -/

theorem test_witness_TcInitResult : State.reset.sys.faulted = false ∧ (0 : Byte).toNat ≤ 1 ∧ (1 : Byte).toNat ≤ 1 := by
  decide
theorem test_witness_TcNextFixedResult : (nearOverflow 0xFFFFFFF9).cfg.wf ∧
    (nearOverflow 0xFFFFFFF9).sys.faulted = false ∧ (nearOverflow 0xFFFFFFF9).tc.mode = .fixed6 ∧
    (nearOverflow 0xFFFFFFF9).bc.pos.toNat + 6 ≤ 2 ^ 32 - 1 := by decide
theorem test_witness_TcNextAntirepResult :
    ((antirepState [0x12, 0x34] 0).Inv ∧ (antirepState [0x12, 0x34] 0).tc.mode = .antirep5 ∧
      (∀ j, j < 5 → (2 : Nat).testBit (4 - j) = (antirepState [0x12, 0x34] 0).bc.bit (0 + j)) ∧
      2 < (antirepState [0x12, 0x34] 0).tc.usable.count true ∧ (antirepState [0x12, 0x34] 0).tc.arq.length < 11) ∧
    ((fullFifoState 43).Inv ∧ (fullFifoState 43).tc.mode = .antirep5 ∧
      (∀ j, j < 5 → (31 : Nat).testBit (4 - j) = (fullFifoState 43).bc.bit (0 + j)) ∧
      31 < (fullFifoState 43).tc.usable.count true ∧ (fullFifoState 43).tc.arq.length = 11) :=
  ⟨⟨test_inv_antirepState, by decide⟩, test_inv_fullFifoState43, by decide⟩
theorem test_witness_TcNextFaults :
    ((nearOverflow 0xFFFFFFFA).sys.faulted = false ∧ (nearOverflow 0xFFFFFFFA).bc.pos.toNat +
      (if (nearOverflow 0xFFFFFFFA).tc.mode = .fixed6 then 6 else 5) > 2 ^ 32 - 1) ∧
    ((fullFifoState 42).tc.mode = .antirep5 ∧ (fullFifoState 42).bc.pos.toNat + 5 ≤ 2 ^ 32 - 1 ∧
      (fullFifoState 42).tc.usable.count true ≤ (fullFifoState 42).bc.bitsAt (fullFifoState 42).bc.pos.toNat 5) := by
  decide
theorem test_witness_TcPacketFixedResult : (nearOverflow 0xFFFFFFDB).cfg.wf ∧
    (nearOverflow 0xFFFFFFDB).sys.faulted = false ∧
    (nearOverflow 0xFFFFFFDB).tc.mode = .fixed6 ∧ 1 ≤ (6 : Byte).toNat ∧ (6 : Byte).toNat ≤ 6 ∧
    (nearOverflow 0xFFFFFFDB).bc.pos.toNat + 6 * (6 : Byte).toNat ≤ 2 ^ 32 - 1 := by decide
theorem test_witness_TcPacketAntirepResult : (fullFifoState 43).Inv ∧ (fullFifoState 43).sys.faulted = false ∧
    (fullFifoState 43).tc.mode = .antirep5 ∧ 43 ≤ (fullFifoState 43).cfg.a5Size ∧
    (fullFifoState 43).bc.pos.toNat + 5 * (6 : Byte).toNat ≤ 2 ^ 32 - 1 :=
  ⟨test_inv_fullFifoState43, by decide⟩
theorem test_witness_TcPacketIsRepeatedNext :
    (∃ u, execList (List.replicate (2 : Byte).toNat .tcNext) (bufState [0x4D, 0x61] 0) = some u ∧
      (bufState [0x4D, 0x61] 0).sys.faulted = false ∧ u.sys.faulted = false) ∧
    (∃ u, execList (List.replicate (2 : Byte).toNat .tcNext) (nearOverflow 0xFFFFFFF9) = some u ∧
      (nearOverflow 0xFFFFFFF9).sys.faulted = false ∧ u.sys.faulted = true) :=
  ⟨⟨_, rfl, rfl, rfl⟩, ⟨_, rfl, rfl, rfl⟩⟩
theorem test_witness_TcReleaseAndReadPacket : (fullFifoState 43).Inv ∧ (fullFifoState 43).sys.faulted = false ∧
    (7 : Byte).toNat ≤ 7 := ⟨test_inv_fullFifoState43, by decide⟩
/-- Twelve selections of value 0, from a full FIFO and from an empty one: the two ends of a window. -/
theorem test_witness_AntirepeatWindow :
    (∃ tc' idxs, (fullFifoState 43).tc.Inv (fullFifoState 43).cfg ∧
      (fullFifoState 43).tc.selectAll (List.replicate 12 0) = .ok (idxs, tc') ∧ idxs[0]? = some 0 ∧
      idxs[11]? = some 11) ∧
    (∃ tc' idxs, (antirepState [0x12, 0x34] 0).tc.Inv Config.example ∧
      (antirepState [0x12, 0x34] 0).tc.selectAll (List.replicate 12 0) = .ok (idxs, tc') ∧ idxs[11]? = some 11) ∧
    12 ≤ Config.a5Size { Config.example with alpha5 := List.replicate 12 1 } :=
  ⟨⟨_, _, test_inv_fullFifoState43.tc, rfl, rfl, rfl⟩, ⟨_, _, test_inv_antirepState.tc, rfl, rfl⟩, by decide⟩
theorem test_witness_NoTokenRangeFaultFrom43 :
    (∃ t, (fullFifoState 43).Inv ∧ (fullFifoState 43).sys.faulted = false ∧ 43 ≤ (fullFifoState 43).cfg.a5Size ∧
      exec (.tcPacket 7) (fullFifoState 43) = .next t ∧ t.sys.faulted = true) ∧
    ((fullFifoState 42).Inv ∧ (fullFifoState 42).sys.faulted = false ∧ (fullFifoState 42).cfg.a5Size = 42 ∧
      (fullFifoState 42).tc.mode = .antirep5 ∧ (fullFifoState 42).tc.arq.length = 11 ∧
      (fullFifoState 42).bc.pos.toNat + 5 ≤ 2 ^ 32 - 1 ∧
      (fullFifoState 42).bc.bitsAt (fullFifoState 42).bc.pos.toNat 5 = 31) :=
  ⟨⟨_, test_inv_fullFifoState43, rfl, by decide, rfl, rfl⟩, test_inv_fullFifoState42, by decide⟩
theorem test_witness_ReceiverRecoversValue : ∃ tc', (fullFifoState 43).tc.select 31 = .ok (42, tc') := ⟨_, rfl⟩
theorem test_witness_AntirepeatStateLifetime :
    let s := onPort (fullFifoState 43) [0x310000000000] [.hostCommand]
    ∃ t, step s = .next t ∧ ¬(t.tc.usable = s.tc.usable ∧ t.tc.arq = s.tc.arq) := ⟨_, rfl, by decide⟩

/-! Faults, refusals, reset. -/

theorem test_witness_CommandFaults :
    (doneState.sys.faulted = false ∧ ¬(doneState.mf.st = .running ∧ (Instr.mfGet 3).refusedWhileRunning = true) ∧
      doneState.ownFault (.mfGet 3) = some .mfAddrRange) ∧
    (doneState.ownFault (.mfGet 2) = none ∧ (Instr.mfGet 2).takesTokens = false) := by decide
theorem test_witness_FaultsArePrecise :
    (∃ t, doneState.sys.faulted = false ∧ step (doneState.withFetchWord 48 (0x250000000003 : CmdWord).toNat) = .next t ∧
      t.sys.faulted = true) ∧
    (∃ t, overflowState.sys.faulted = false ∧ overflowState.engineTurn = .next t ∧ t.sys.faulted = true) :=
  ⟨⟨_, rfl, rfl, rfl⟩, ⟨_, rfl, rfl, rfl⟩⟩
theorem test_witness_FaultedBlockRefuses : (faultedState .mfOutOverflow (startedState tenA)).sys.faulted = true ∧
    (∀ i, decode 0x010000000001 = .ok i → i.system = false) ∧
    (∀ i, decode 0x100000000003 = .ok i → i.system = false) ∧ decode 0x000000000000 = .ok .sysNop ∧
    decode 0x020000000000 = .ok .sysStatus ∧ decode 0x010000000000 = .ok .sysReset := by
  refine ⟨rfl, fun i h => ?_, fun i h => ?_, rfl, rfl, rfl⟩
  · have e : decode 0x010000000001 = .error .nonzeroV := rfl
    rw [e] at h; cases h
  · have e : decode 0x100000000003 = .ok (.bcAlloc 3) := rfl
    rw [e] at h; cases h; rfl
theorem test_witness_OnlyResetLeavesFaultState :
    (let s := onPort (faultedState .mfOutOverflow (startedState tenA)) [] [.hardReset]
     ∃ t, s.sys.faulted = true ∧ step s = .next t ∧ s.nextAction.1 = .reset) ∧
    (let s := onPort (faultedState .mfOutOverflow (startedState tenA)) [0x010000000000] []
     ∃ t, s.sys.faulted = true ∧ step s = .next t ∧ s.nextAction.1 = .command 0x010000000000 ∧
       decode 0x010000000000 = .ok .sysReset) ∧
    (let s := onPort (faultedState .mfOutOverflow (startedState tenA)) [0x230000000000] []
     ∃ t, s.sys.faulted = true ∧ step s = .next t ∧ s.nextAction.1 = .command 0x230000000000) :=
  ⟨⟨_, rfl, rfl, rfl⟩, ⟨_, rfl, rfl, rfl, rfl⟩, ⟨_, rfl, rfl, rfl⟩⟩
theorem test_witness_BusyRefusals : (startedState tenA).sys.faulted = false ∧ (startedState tenA).mf.st = .running ∧
    (Instr.mfGet 0).refusedWhileRunning = true ∧ (Instr.mfInfo 7).refusedWhileRunning = false := by decide
theorem test_witness_RunningMatcherBelongsToEngine : ∃ t, (startedState tenA).mf.st = .running ∧
    (startedState tenA).sys.faulted = false ∧ Instr.mfCancel ≠ .sysReset ∧
    exec .mfCancel (startedState tenA) = .next t := ⟨_, rfl, rfl, by decide, rfl⟩
theorem test_witness_CursorAndTokenCommandsCommuteWithEngine : ∃ t1 t u, Instr.bcReadByte.cursorOrToken = true ∧
    (startedState tenA).sys.faulted = false ∧ exec .bcReadByte (startedState tenA) = .next t1 ∧
    t1.sys.faulted = false ∧ t1.engineTurn = .next t ∧ (startedState tenA).engineTurn = .next u ∧
    u.sys.faulted = false := ⟨_, _, _, rfl, rfl, rfl, rfl, rfl, rfl, rfl⟩
theorem test_witness_MfStateTransitions :
    (∃ t, exec .sysReset (startedState tenA) = .next t) ∧
    (∃ t, exec .mfClear doneState = .next t ∧ doneState.sys.faulted = false ∧ doneState.mf.st ≠ .running) ∧
    (∃ t, exec .mfStart State.reset = .next t ∧ State.reset.mf.st ≠ .running ∧ State.reset.mf.n = 0) ∧
    (∃ t, exec .mfStart doneState = .next t ∧ doneState.mf.n ≠ 0) ∧
    (∃ t, exec .mfStart (startedState tenA) = .next t ∧ (startedState tenA).mf.st = .running) ∧
    (∃ t, (cancelState tenA).engineTurn = .next t ∧ t.sys = (cancelState tenA).sys ∧
      (cancelState tenA).mf.cancelReq = true) ∧
    (∃ t, (startedState [0x51, 0x52]).engineTurn = .next t ∧ t.sys = (startedState [0x51, 0x52]).sys ∧
      t.mf.p = t.mf.n) ∧
    (∃ t, (startedState tenA).engineTurn = .next t ∧ t.sys = (startedState tenA).sys ∧ t.mf.p ≠ t.mf.n) :=
  ⟨⟨_, rfl⟩, ⟨_, rfl, rfl, by decide⟩, ⟨_, rfl, by decide, rfl⟩, ⟨_, rfl, by decide⟩, ⟨_, rfl, rfl⟩, ⟨_, rfl, rfl, rfl⟩,
    ⟨_, rfl, rfl, by decide⟩, ⟨trackingState, rfl, rfl, by decide⟩⟩
theorem test_witness_ConfigurationNeverChanges : ∃ t, step (onPort doneState [] [.hardReset]) = .next t := ⟨_, rfl⟩

/-! Invariants and whole runs. -/

theorem test_witness_ResetSatisfiesInvariant : Config.wf
    { Config.example with inCap := 1, outCap := 1, bufCap := 1, alpha5 := [] } := by decide
theorem test_witness_StepKeepsInvariant : ∃ t, (startedState tenA).Inv ∧ step (startedState tenA) = .next t :=
  ⟨trackingState, test_inv_startedState, rfl⟩
theorem test_witness_StepNeverStops : trackingState.Inv := test_inv_trackingState
theorem test_witness_TableAndQueueProperties : trackingState.mf.Inv trackingState.cfg ∧
    trackingState.mf.evq.head? = some 0 := ⟨test_inv_trackingState.mf, rfl⟩
theorem test_witness_StepKeepsStreamInvariant : ∃ t, zerosState.Inv ∧ zerosState.StreamInv ∧
    step zerosState = .next t ∧ zerosState.mf.st = .running ∧ t.mf.st ≠ .idle ∧
    zerosState.mf.Emitted zerosState.cfg (List.replicate 8 (.literal [0, 0, 0])) ∧ 24 < zerosState.mf.olen.toNat :=
  ⟨_, test_inv_zerosState, fun _ => ⟨_, test_emitted_zerosState⟩, rfl, rfl, by decide, test_emitted_zerosState,
    by decide⟩
/-- The decisions of vector M1. -/
theorem test_witness_DecoderReadsFinalStream : slotsValid 10 [] [.literal [0x41, 0x41, 0x41], .copy 1 7] :=
  ⟨by decide, by decide, trivial⟩
theorem test_witness_EndedStreamDecodesToInput :
    (doneState.Inv ∧ doneState.StreamInv ∧ doneState.mf.st = .done) ∧
    (abortedState.Inv ∧ abortedState.StreamInv ∧ abortedState.mf.st = .aborted) :=
  ⟨⟨test_inv_doneState, test_streamInv_doneState, rfl⟩, test_inv_abortedState, test_streamInv_abortedState, rfl⟩
theorem test_witness_OutputSizeBound :
    (doneState.Inv ∧ doneState.StreamInv ∧ doneState.mf.st = .done) ∧
    (trackingState.Inv ∧ trackingState.StreamInv ∧ trackingState.mf.st = .running ∧
      trackingState.sys.faulted = false ∧
      trackingState.cfg.inCap + (trackingState.cfg.inCap + 2) / 3 / 8 + 1 ≤ trackingState.cfg.outCap) :=
  ⟨⟨test_inv_doneState, test_streamInv_doneState, rfl⟩, test_inv_trackingState, test_streamInv_trackingState, rfl, rfl,
    by decide⟩
theorem test_witness_CompressionEnds : trackingState.Inv ∧ trackingState.mf.st = .running ∧
    trackingState.sys.faulted = false ∧ trackingState.port.pending = [] ∧ trackingState.port.schedule = [] :=
  ⟨test_inv_trackingState, rfl, rfl, rfl, rfl⟩
/-- Two states that differ at a byte above LEN and at one above OLEN. -/
theorem test_witness_UnspecifiedContentsNeverShow :
    let t : State := { doneState with
      bc := { doneState.bc with buf := [(0, 7)] }, mf := { doneState.mf with out := doneState.mf.out ++ [(3, 9)] } }
    ∃ s', doneState.Inv ∧ t.Inv ∧ doneState.LooksLike t ∧ doneState ≠ t ∧ step doneState = .next s' := by
  refine ⟨_, test_inv_doneState, inv_of_untracked (by decide) (by decide) (by decide) rfl rfl (by decide) (by decide)
    (by decide), ⟨rfl, rfl, rfl, rfl, rfl, rfl, ?_, ?_, ?_, ?_⟩, by decide, rfl⟩
  · intro a h; exact absurd h (Nat.not_lt_zero a)
  · intro a _; rfl
  · intro a h; exact absurd h (Nat.not_lt_zero a)
  · have h : ∀ a, a < 3 → doneState.mf.out.read a = Memory.read (doneState.mf.out ++ [(3, 9)]) a := by decide
    exact h

end Sys2Proof.Tests
end

section
/-! PROOFS. `TC.PACKET` (42_tokencodec.md R226, R240; 30_encoding.md R117): the codes of a run of symbols, the
bytes of the packet, and the command that answers `OK`. -/

namespace Sys2Proof.Machine

variable {cfg : Config}

/-! ### The cursor -/

/-- Within the range of 40_bitcursor.md R133 the cursor does not wrap. -/
theorem BC.toNat_pos_advance {b : BC} {n : Nat} (h : b.pos.toNat + n ≤ 4294967295) :
    (b.advance n).pos.toNat = b.pos.toNat + n := by
  rw [BC.advance_pos, BitVec.toNat_add, BitVec.toNat_ofNat]
  omega

@[simp] theorem BC.advance_zero (b : BC) : b.advance 0 = b := by
  simp [BC.advance]

theorem BC.advance_advance (b : BC) (m n : Nat) : (b.advance m).advance n = b.advance (m + n) := by
  simp [BC.advance, BitVec.ofNat_add, BitVec.add_assoc]

/-- The bits of the buffer do not depend on the cursor. -/
@[simp] theorem BC.bitsAt_advance (b : BC) (m k n : Nat) : (b.advance m).bitsAt k n = b.bitsAt k n :=
  BC.bitsAt_congr fun _ _ _ => rfl

/-! ### Runs of the fixed 6-bit policy -/

/-- The codes of the `k` 6-bit values at the cursor, in order (42_tokencodec.md R226). -/
def fixedCodes (cfg : Config) (b : BC) (k : Nat) : List Byte :=
  (List.range k).map fun i => cfg.sym6.getD (b.bitsAt (b.pos.toNat + 6 * i) 6) 0

@[simp] theorem length_fixedCodes (cfg : Config) (b : BC) (k : Nat) : (fixedCodes cfg b k).length = k := by
  simp [fixedCodes]

/-- Each code is the table's entry at its value, which the table has: 6 bits stay below its 64 entries. -/
theorem fixedCodes_entry (hs : cfg.sym6.length = 64) (b : BC) {k i : Nat} (hi : i < k) :
    ∃ code, cfg.sym6[b.bitsAt (b.pos.toNat + 6 * i) 6]? = some code ∧
      (fixedCodes cfg b k)[i]? = some code := by
  have hv : b.bitsAt (b.pos.toNat + 6 * i) 6 < cfg.sym6.length := hs ▸ b.bitsAt_lt _ 6
  exact ⟨_, List.getElem?_eq_getElem hv, by simp [fixedCodes, hi, hv]⟩

theorem fixedCodes_succ {b : BC} (h : b.pos.toNat + 6 ≤ 4294967295) (k : Nat) :
    fixedCodes cfg b (k + 1) =
      cfg.sym6.getD (b.bitsAt b.pos.toNat 6) 0 :: fixedCodes cfg (b.advance 6) k := by
  have hshift (i : Nat) : b.pos.toNat + 6 * (i + 1) = b.pos.toNat + 6 + 6 * i := by omega
  simp only [fixedCodes, List.range_succ_eq_map, List.map_cons, List.map_map, Function.comp_def,
    Nat.succ_eq_add_one, hshift, BC.bitsAt_advance, BC.toNat_pos_advance h, Nat.mul_zero, Nat.add_zero]

/-- One symbol of `FIXED6` never faults where the cursor does not overflow. -/
theorem TokenState.next_of_fixed6 {ts : TokenState} (hm : ts.tc.mode = .fixed6)
    (hp : ts.bc.pos.toNat + 6 ≤ 4294967295) :
    ts.next cfg =
      .ok (cfg.sym6.getD (ts.bc.bitsAt ts.bc.pos.toNat 6) 0, { ts with bc := ts.bc.advance 6 }) := by
  have hr : ts.bc.readBits 6 = .ok (ts.bc.bitsAt ts.bc.pos.toNat 6, ts.bc.advance 6) :=
    BC.readBits_eq_ok.2 ⟨BC.check_eq_none.2 ⟨by decide, by decide, hp⟩, rfl⟩
  simp [TokenState.next, hm, TokenState.nextFixed, hr]

/-- A run of `FIXED6` gives the codes of its values and moves nothing but the cursor. -/
theorem TokenState.take_of_fixed6 {ts : TokenState} {k : Nat} (hm : ts.tc.mode = .fixed6)
    (hp : ts.bc.pos.toNat + 6 * k ≤ 4294967295) :
    ts.take cfg k = .ok (fixedCodes cfg ts.bc k, { ts with bc := ts.bc.advance (6 * k) }) := by
  induction k generalizing ts with
  | zero => simp [TokenState.take, fixedCodes]
  | succ k ih =>
    have hp6 : ts.bc.pos.toNat + 6 ≤ 4294967295 := by omega
    have hrest := ih (ts := { ts with bc := ts.bc.advance 6 }) hm
      (by rw [BC.toNat_pos_advance hp6]; omega)
    rw [TokenState.take, TokenState.next_of_fixed6 hm hp6]
    simp only [hrest, fixedCodes_succ hp6, BC.advance_advance, Nat.mul_succ, Nat.add_comm]

/-! ### The bytes of a stream packet -/

theorem streamPacket_type (cfg : Config) (codes : List Byte) :
    (streamPacket cfg codes)[0]? = some 0xFF := rfl

theorem streamPacket_modifier (cfg : Config) (codes : List Byte) :
    (streamPacket cfg codes)[1]? = some cfg.pktModifier := rfl

theorem streamPacket_payload (cfg : Config) (codes : List Byte) (i : Nat) :
    (streamPacket cfg codes)[2 + i]? = (codes ++ List.replicate (6 - codes.length) 0)[i]? := by
  simp [streamPacket, Nat.add_comm 2 i]

/-- The codes stand from byte 2 on. -/
theorem streamPacket_code {codes : List Byte} {i : Nat} (hi : i < codes.length) :
    (streamPacket cfg codes)[2 + i]? = codes[i]? := by
  rw [streamPacket_payload, List.getElem?_append_left hi]

/-- The bytes past the codes are 0. -/
theorem streamPacket_padding {codes : List Byte} {i : Nat} (hlo : codes.length ≤ i) (hhi : i < 6) :
    (streamPacket cfg codes)[2 + i]? = some 0x00 := by
  rw [streamPacket_payload, List.getElem?_append_right hlo, List.getElem?_replicate_of_lt (by omega)]

/-! ### The command -/

/-- `TC.PACKET k` with a legal count whose run of symbols does not fault (42_tokencodec.md R240). -/
theorem exec_tcPacket_of_take {s : State} {k : Byte} {codes : List Byte} {ts : TokenState}
    (hf : s.sys.faulted = false) (hlo : 1 ≤ k.toNat) (hhi : k.toNat ≤ 6)
    (ht : TokenState.take s.cfg { bc := s.bc, tc := s.tc } k.toNat = .ok (codes, ts)) :
    exec (.tcPacket k) s = .next (State.respond
      { s with bc := ts.bc, tc := { ts.tc with pkt := streamPacket s.cfg codes } } 0x00 0) := by
  have hcount : ¬(k.toNat = 0 ∨ pktSyms < k.toNat) := by simp only [pktSyms]; omega
  rw [exec, execTcPacket, State.serve_unfaulted hf, if_neg hcount, ht]
  rfl

/-- Settles O34: the run of `FIXED6` values gives the packet's codes, and the packet's layout does the rest. -/
theorem tcPacketFixedResult : Obligations.TcPacketFixedResult := by
  intro s k hwf hf hm hlo hhi hp
  obtain ⟨-, -, -, hsym, -⟩ := hwf
  have htake := TokenState.take_of_fixed6 (cfg := s.cfg) (ts := ⟨s.bc, s.tc⟩) hm hp
  refine ⟨_, exec_tcPacket_of_take hf hlo hhi htake, length_streamPacket (by simpa using hhi),
    streamPacket_type .., streamPacket_modifier .., fun i hi => ?code,
    fun i hki hi => streamPacket_padding (by simpa using hki) hi, rfl,
    BC.toNat_pos_advance hp, rfl, rfl, rfl, rfl, rfl, rfl⟩
  case code =>
    obtain ⟨code, hentry, hcode⟩ := fixedCodes_entry hsym s.bc hi
    exact ⟨code, hentry, (streamPacket_code (by simpa using hi)).trans hcode⟩

end Sys2Proof.Machine
end

section
/-! PROOFS. What a command can do to the block and what a step can do, said once for every command; and the
statements on the configuration, the resets, the status word and `MF.INFO` (10_state.md R48, R52; 41_matchfinder.md
R187; 70_reset_and_hazards.md R320, R322). -/

namespace Sys2Proof.Machine

/-! ### What a command leaves -/

/-- `P` holds of the state an executed command leaves; a refusal and a fault leave none of their own. -/
def Reply.Leaves (P : State → Prop) : Reply → Prop
  | .done t _ => P t
  | .busy => True
  | .raise _ => True

theorem Reply.leaves_done {P : State → Prop} {t : State} {val : Word} :
    (Reply.done t val).Leaves P ↔ P t := Iff.rfl

theorem Reply.leaves_unlessRunning {P : State → Prop} {s : State} {r : Reply}
    (h : s.mf.st ≠ .running → r.Leaves P) : (s.unlessRunning r).Leaves P := by
  by_cases hr : s.mf.st = .running
  · rw [State.unlessRunning_running hr]; trivial
  · rw [State.unlessRunning_idle hr]; exact h hr

/-- Everything a command can do but for its response, each effect under the checks that let it happen
(60_exceptions.md R281, R285, R288). -/
inductive State.Effect (s : State) : State → Prop
  | nothing : s.Effect s
  | fault (c : Cause) : s.Effect (s.enterFault c)
  | reset : s.Effect s.resetBlock
  | alloc (len : Word) (h : len.toNat ≤ s.cfg.bufCap) :
      s.Effect { s with bc := { buf := s.bc.buf.zeroFill len.toNat, len := len, pos := 0 } }
  | seek (offset : Word) (h : offset.toNat ≤ 8 * s.bc.len.toNat) :
      s.Effect { s with bc := { s.bc with pos := offset } }
  | read (n : Nat) (h : s.bc.check n = none) : s.Effect { s with bc := s.bc.advance n }
  | write (n : Nat) (value : Word) (h : s.bc.check n = none) (hend : s.bc.pos.toNat + n ≤ 8 * s.bc.len.toNat) :
      s.Effect { s with bc := { s.bc with buf := s.bc.buf.scatter value s.bc.pos.toNat n }.advance n }
  | clear (h : s.mf.st ≠ .running) : s.Effect { s with mf := { s.mf.clearRun with n := 0, st := .idle } }
  | put (byte : Byte) (h : s.mf.st = .idle) (hroom : s.mf.n.toNat ≠ s.cfg.inCap) :
      s.Effect { s with mf := { s.mf with inp := s.mf.inp.write s.mf.n.toNat byte, n := s.mf.n + 1 } }
  | start (h : s.mf.st ≠ .running) :
      s.Effect { s with mf := { s.mf.clearRun with st := if s.mf.n = 0 then .noData else .running } }
  | cancel (h : s.mf.st = .running) : s.Effect { s with mf := { s.mf with cancelReq := true } }
  | init (mode : TcMode) : s.Effect { s with tc := s.tc.init s.cfg mode }
  | next (code : Byte) (ts : TokenState)
      (h : TokenState.next s.cfg { bc := s.bc, tc := s.tc } = .ok (code, ts)) :
      s.Effect { s with bc := ts.bc, tc := ts.tc }
  | packet (k : Nat) (codes : List Byte) (ts : TokenState) (hk : k ≤ 6)
      (h : TokenState.take s.cfg { bc := s.bc, tc := s.tc } k = .ok (codes, ts)) :
      s.Effect { s with bc := ts.bc, tc := { ts.tc with pkt := streamPacket s.cfg codes } }
  | release : s.Effect { s with tc := { s.tc with pkt := releasePacket } }

section
variable {s t : State}

theorem State.answer_effect {r : Reply} (h : r.Leaves s.Effect) :
    ∃ u rc val, s.Effect u ∧ s.answer r = u.respond rc val := by
  cases r with
  | done u val => exact ⟨u, _, val, h, rfl⟩
  | busy => exact ⟨s, _, _, .nothing, rfl⟩
  | raise c => exact ⟨_, _, _, .fault c, rfl⟩

theorem State.serve_effect {r : Reply} (h : r.Leaves s.Effect) :
    ∃ u rc val, s.Effect u ∧ s.serve r = u.respond rc val := by
  cases hf : s.sys.faulted with
  | true => exact ⟨s, _, _, .nothing, State.serve_faulted hf r⟩
  | false => rw [State.serve_unfaulted hf]; exact State.answer_effect h

theorem State.replyRead_effect (n : Nat) : (s.replyRead n).Leaves s.Effect := by
  unfold State.replyRead
  split
  · trivial
  · rename_i v bc h
    obtain ⟨hc, he⟩ := BC.readBits_eq_ok.1 h
    obtain ⟨-, rfl⟩ := Prod.mk.inj he
    exact .read n hc

theorem State.replyWrite_effect (n : Nat) (value : Word) : (s.replyWrite n value).Leaves s.Effect := by
  unfold State.replyWrite
  split
  · trivial
  · rename_i bc h
    obtain ⟨hc, hend, rfl⟩ := BC.writeBits_eq_ok.1 h
    exact .write n value hc hend

/-- Every command answers, and what it does besides is one of the effects. -/
theorem exec_effect (i : Instr) (s : State) :
    ∃ u rc val, s.Effect u ∧ exec i s = .next (u.respond rc val) := by
  have answered {r : Reply} (he : exec i s = .next (s.answer r)) (h : r.Leaves s.Effect) :
      ∃ u rc val, s.Effect u ∧ exec i s = .next (u.respond rc val) := by
    obtain ⟨u, rc, val, hu, hr⟩ := State.answer_effect h
    exact ⟨u, rc, val, hu, hr ▸ he⟩
  have served {r : Reply} (he : exec i s = .next (s.serve r)) (h : r.Leaves s.Effect) :
      ∃ u rc val, s.Effect u ∧ exec i s = .next (u.respond rc val) := by
    obtain ⟨u, rc, val, hu, hr⟩ := State.serve_effect h
    exact ⟨u, rc, val, hu, hr ▸ he⟩
  cases i with
  | sysNop => exact answered rfl .nothing
  | sysReset => exact answered rfl .reset
  | sysStatus => exact answered rfl .nothing
  | bcAlloc len =>
    refine served rfl ?_
    split
    · trivial
    · exact .alloc len (by omega)
  | bcSeek offset =>
    refine served rfl ?_
    split
    · trivial
    · exact .seek offset (by omega)
  | bcReadBits n => exact served rfl (State.replyRead_effect _)
  | bcWriteBits n value => exact served rfl (State.replyWrite_effect _ value)
  | bcReadByte => exact served rfl (State.replyRead_effect 8)
  | bcWriteByte value => exact served rfl (State.replyWrite_effect 8 value)
  | mfClear => exact served rfl (Reply.leaves_unlessRunning .clear)
  | mfPut byte =>
    refine served rfl (Reply.leaves_unlessRunning fun _ => ?_)
    split
    · trivial
    · rename_i hst
      split
      · trivial
      · rename_i hroom
        exact .put byte (not_not.1 hst) hroom
  | mfStart => exact served rfl (Reply.leaves_unlessRunning .start)
  | mfCancel =>
    refine served rfl ?_
    rw [Reply.leaves_done]
    split
    · rename_i h; exact .cancel h
    · exact .nothing
  | mfInfo sel =>
    refine served rfl ?_
    split
    · exact .nothing
    · trivial
  | mfGet addr =>
    refine served rfl (Reply.leaves_unlessRunning fun _ => ?_)
    split
    · trivial
    · exact .nothing
  | tcInit mode =>
    refine served rfl ?_
    split
    · exact .init .fixed6
    · exact .init .antirep5
    · trivial
  | tcNext =>
    refine served rfl ?_
    split
    · trivial
    · rename_i code ts h
      exact .next code ts h
  | tcPacket k =>
    refine served rfl ?_
    split
    · trivial
    · rename_i hk
      split
      · trivial
      · rename_i codes ts h
        exact .packet k.toNat codes ts (by simp only [pktSyms] at hk; omega) h
  | tcRelease => exact served rfl .release
  | tcRdPkt idx =>
    refine served rfl ?_
    split
    · trivial
    · exact .nothing

/-! ### What a step leaves -/

/-- No effect reads or writes the port. -/
theorem State.Effect.of_withPort {p : Port} {u : State} (hu : State.Effect { s with port := p } u) :
    ∃ v, s.Effect v ∧ u = { v with port := p } := by
  cases hu with
  | nothing => exact ⟨_, .nothing, rfl⟩
  | fault c => exact ⟨_, .fault c, rfl⟩
  | reset => exact ⟨_, .reset, rfl⟩
  | alloc len h => exact ⟨_, .alloc len h, rfl⟩
  | seek offset h => exact ⟨_, .seek offset h, rfl⟩
  | read n h => exact ⟨_, .read n h, rfl⟩
  | write n value h hend => exact ⟨_, .write n value h hend, rfl⟩
  | clear h => exact ⟨_, .clear h, rfl⟩
  | put byte h hroom => exact ⟨_, .put byte h hroom, rfl⟩
  | start h => exact ⟨_, .start h, rfl⟩
  | cancel h => exact ⟨_, .cancel h, rfl⟩
  | init mode => exact ⟨_, .init mode, rfl⟩
  | next code ts h => exact ⟨_, .next code ts h, rfl⟩
  | packet k codes ts hk h => exact ⟨_, .packet k codes ts hk h, rfl⟩
  | release => exact ⟨_, .release, rfl⟩

/-- Everything a step leaves but for the port: what it was, a reset block, the engine's step of an enabled engine,
or a command's effect. -/
theorem step_effect (h : step s = .next t) :
    ∃ u p, t = { u with port := p } ∧
      (s.Effect u ∨
        s.engineEnabled = true ∧ ∃ mf', s.mf.engineStep s.cfg = .ok mf' ∧ u = { s with mf := mf' }) := by
  obtain ⟨_, ⟨p, rfl, -⟩, hcases⟩ := step_cases h
  rcases hcases with ⟨-, rfl⟩ | ⟨-, rfl⟩ | ⟨-, hen, hturn⟩ | ⟨w, i, -, -, hexec⟩ | ⟨w, e, -, -, rfl⟩
  case inl => exact ⟨s, p, rfl, .inl .nothing⟩
  case inr.inl => exact ⟨_, p, rfl, .inl .reset⟩
  case inr.inr.inl =>
    rcases State.engineTurn_cases { s with port := p } with ⟨-, h'⟩ | ⟨-, mf', hmf, h'⟩ | ⟨-, -, h'⟩
    · rw [h'] at hturn; cases hturn
    · rw [h'] at hturn; cases hturn
      exact ⟨_, p, rfl, .inr ⟨hen, mf', hmf, rfl⟩⟩
    · rw [h'] at hturn; cases hturn
      exact ⟨_, p, rfl, .inl (.fault _)⟩
  case inr.inr.inr.inl =>
    obtain ⟨u, rc, val, hu, he⟩ := exec_effect i { s with port := p }
    rw [he] at hexec; cases hexec
    obtain ⟨v, hv, rfl⟩ := hu.of_withPort
    exact ⟨v, _, rfl, .inl hv⟩
  case inr.inr.inr.inr =>
    obtain ⟨u, rc, val, hu, he⟩ :=
      State.serve_effect (s := { s with port := p }) (r := .raise .illegalCmd) trivial
    rw [State.illegalWord, he]
    obtain ⟨v, hv, rfl⟩ := hu.of_withPort
    exact ⟨v, _, rfl, .inl hv⟩

end

/-! ### The configuration -/

/-- No effect touches the configuration. -/
theorem State.Effect.cfg {s u : State} (h : s.Effect u) : u.cfg = s.cfg := by
  cases h <;> rfl

/-- Settles O50: neither an effect of a command nor the engine's step writes the configuration. -/
theorem configurationNeverChanges : Obligations.ConfigurationNeverChanges := by
  intro s t h
  obtain ⟨u, p, rfl, hu | ⟨-, mf', -, rfl⟩⟩ := step_effect h
  · exact hu.cfg
  · rfl

/-! ### Resets -/

/-- Whatever the port holds, a block whose four units are reset has the reset values. -/
theorem hasResetValues_of_reset {s : State} (hbc : s.bc = BC.reset) (hmf : s.mf = MF.reset)
    (htc : s.tc = TC.reset s.cfg) (hsys : s.sys = SYS.reset) : s.HasResetValues := by
  constructor <;> simp [hbc, hmf, htc, hsys, BC.reset, MF.reset, TC.reset, SYS.reset]

/-- The status word of a block whose units are reset is 0. -/
theorem statusWord_of_reset {s : State} (hmf : s.mf = MF.reset) (htc : s.tc = TC.reset s.cfg)
    (hsys : s.sys = SYS.reset) : s.statusWord = 0 := by
  simp [State.statusWord, statusField, hmf, htc, hsys, MF.reset, TC.reset, SYS.reset, MfState.code, TcMode.code]

/-- The reset input's turn on the schedule resets the block. -/
theorem step_hardReset {s : State} {es : List Event} (h : s.port.schedule = .hardReset :: es) :
    step s = .next (State.resetBlock { s with port := { s.port with schedule := es } }) := by
  have hnext : s.nextAction = (.reset, { s with port := { s.port with schedule := es } }) := by
    simp [State.nextAction, h]
  rw [step, hnext]

/-- Settles O8: both resets put the four units at their reset values and leave the rest. -/
theorem resetLeavesResetValues : Obligations.ResetLeavesResetValues := by
  refine ⟨fun cfg => hasResetValues_of_reset rfl rfl rfl rfl, fun s => ?command, fun s es hes => ?input⟩
  case command =>
    exact ⟨_, rfl, hasResetValues_of_reset rfl rfl rfl rfl, rfl, rfl, statusWord_of_reset rfl rfl rfl⟩
  case input =>
    exact ⟨_, step_hardReset hes, hasResetValues_of_reset rfl rfl rfl rfl, rfl, rfl⟩

/-! ### `MF.INFO` -/

/-- An executed `MF.INFO` only answers. -/
theorem exec_mfInfo_of_info {s : State} {sel : Byte} {val : Word} (hf : s.sys.faulted = false)
    (h : s.mf.info sel = some val) : exec (.mfInfo sel) s = .next (s.respond 0x00 val) := by
  rw [exec, execMfInfo, State.serve_unfaulted hf, h]
  rfl

/-- Settles O21: the seven selectors name the seven registers. -/
theorem mfInfoResult : Obligations.MfInfoResult := by
  intro s sel hf hlen hsel
  have answers {val : Word} (h : s.mf.info sel = some val) :
      exec (.mfInfo sel) s = .next (s.respond 0x00 val) ∧ s.OnlyAnswers (s.respond 0x00 val) 0x00 val :=
    ⟨exec_mfInfo_of_info hf h, rfl, rfl⟩
  obtain ⟨k, rfl⟩ : ∃ k : Fin 7, sel = BitVec.ofNat 8 k := ⟨⟨sel.toNat, by omega⟩, by simp⟩
  suffices h : ∃ val, s.mf.info (BitVec.ofNat 8 k) = some val ∧ _ by
    obtain ⟨val, hval, hregister⟩ := h
    exact ⟨_, val, (answers hval).1, (answers hval).2, hregister⟩
  fin_cases k
  · exact ⟨_, rfl, by simp⟩
  · exact ⟨_, rfl, by simp⟩
  · exact ⟨_, rfl, by simp⟩
  · exact ⟨_, rfl, by simp⟩
  · exact ⟨_, rfl, by simpa using hlen⟩
  · exact ⟨_, rfl, by simp; omega⟩
  · exact ⟨_, rfl, by cases s.mf.st <;> simp [MfState.code]⟩

/-! ### The status word -/

theorem getLsbD_statusField {w : Nat} (x : BitVec w) (lo i : Nat) :
    (statusField x lo).getLsbD i = (decide (i < 32) && decide (lo ≤ i) && x.getLsbD (i - lo)) := by
  have : i < 32 → i - lo < 32 := by omega
  grind [statusField]

/-- A field of the status word is read back at its place. -/
theorem extractLsb'_statusField_same {w : Nat} (x : BitVec w) {lo : Nat} (h : lo + w ≤ 32) :
    (statusField x lo).extractLsb' lo w = x := by
  refine BitVec.eq_of_getLsbD_eq fun i hi => ?_
  have hlo : lo + i < 32 := by omega
  rw [BitVec.getLsbD_extractLsb', getLsbD_statusField]
  simp [hi, hlo]

/-- Away from its place a field of the status word leaves 0. -/
theorem extractLsb'_statusField_other {w : Nat} (x : BitVec w) {lo k m : Nat} (h : k + m ≤ lo ∨ lo + w ≤ k) :
    (statusField x lo).extractLsb' k m = 0#m := by
  refine BitVec.eq_of_getLsbD_eq fun i hi => ?_
  have hout : ¬lo ≤ k + i ∨ w ≤ k + i - lo := by omega
  rcases hout with hlo | hw
  · simp [getLsbD_statusField, hlo]
  · simp [getLsbD_statusField, BitVec.getLsbD_of_ge _ _ hw]

/-- |ARQ| takes the four bits the status word has for it. -/
theorem statusField_arqLength {n : Nat} (h : n < 16) (lo : Nat) :
    statusField (BitVec.ofNat 32 n) lo = statusField (BitVec.ofNat 4 n) lo := by
  have : (BitVec.ofNat 4 n).setWidth 32 = BitVec.ofNat 32 n := by
    apply BitVec.eq_of_toNat_eq
    simp
    omega
  rw [statusField, statusField, this, BitVec.setWidth_eq]

/-- The bit of a word as a slice of one bit. -/
theorem getLsbD_eq_of_extractLsb' {x : Word} {k : Nat} {b : Bool}
    (h : x.extractLsb' k 1 = BitVec.ofBool b) : x.getLsbD k = b := by
  have := congrArg (·.getLsbD 0) h
  simpa using this

/-- The slices of the status word (10_state.md R48), its reserved bits among them. -/
theorem statusWord_slices {s : State} (h : s.tc.arq.length < 16) :
    s.statusWord.extractLsb' 0 3 = s.mf.st.code ∧
    s.statusWord.extractLsb' 3 1 = BitVec.ofBool s.mf.cancelReq ∧
    s.statusWord.extractLsb' 4 1 = s.tc.mode.code ∧
    s.statusWord.extractLsb' 5 2 = 0 ∧
    s.statusWord.extractLsb' 7 1 = BitVec.ofBool s.sys.faulted ∧
    s.statusWord.extractLsb' 8 8 = s.sys.faultCode ∧
    s.statusWord.extractLsb' 16 4 = BitVec.ofNat 4 s.tc.arq.length ∧
    s.statusWord.extractLsb' 20 4 = s.mf.fill ∧
    s.statusWord.extractLsb' 24 8 = 0 := by
  rw [State.statusWord, statusField_arqLength h]
  refine ⟨?_, ?_, ?_, ?_, ?_, ?_, ?_, ?_, ?_⟩ <;>
    simp (disch := decide) only [BitVec.extractLsb'_or, extractLsb'_statusField_same,
      extractLsb'_statusField_other, BitVec.zero_or, BitVec.or_zero, BitVec.ofNat_eq_ofNat]

/-- Settles O7: the slices of the status word, and the ranges the invariant gives. -/
theorem statusWordLayout : Obligations.StatusWordLayout := by
  intro s hs
  have hfill : s.mf.fill.toNat < 8 := hs.mf.fill_lt
  have harq : s.tc.arq.length < 12 := hs.tc.arq_length
  obtain ⟨hst, hcancel, hmode, hlow, hfaulted, hcode, harqField, hfillField, hhigh⟩ :=
    statusWord_slices (s := s) (by omega)
  refine ⟨?_, getLsbD_eq_of_extractLsb' hcancel, ?_, hlow, getLsbD_eq_of_extractLsb' hfaulted, hcode,
    fun hf => hcode.trans (hs.sys.clear hf), ?_, by omega, hfillField, by omega, hhigh⟩
  · rw [hst]; cases s.mf.st <;> rfl
  · rw [hmode]; cases s.tc.mode <;> rfl
  · rw [harqField, BitVec.toNat_ofNat]; omega

end Sys2Proof.Machine
end

section
/-! PROOFS. The table and the queue (10_state.md R30 to R32; 41_matchfinder.md R167 to R169): a bucket as the
positions of one hash, what an insertion and an eviction do to it, and the statement on both. -/

namespace Sys2Proof.Machine

/-! ### The positions of one hash -/

/-- The positions of `qs` with hash `h`, the last first (10_state.md R30). -/
def bucketOf (inp : Memory) (qs : List Nat) (h : Nat) : List Nat :=
  (qs.filter (fun q => (hashAt inp q).toNat = h)).reverse

theorem MF.trackedOf_eq_bucketOf (mf : MF) (h : Nat) : mf.trackedOf h = bucketOf mf.inp mf.tracked h := rfl

section
variable {inp : Memory} {qs : List Nat} {h : Nat}

theorem mem_bucketOf {q : Nat} : q ∈ bucketOf inp qs h ↔ q ∈ qs ∧ (hashAt inp q).toNat = h := by
  simp [bucketOf]

/-- A newer position goes to the front of its bucket. -/
theorem bucketOf_concat (inp : Memory) (qs : List Nat) (q h : Nat) :
    bucketOf inp (qs ++ [q]) h =
      if h = (hashAt inp q).toNat then q :: bucketOf inp qs h else bucketOf inp qs h := by
  by_cases hq : (hashAt inp q).toNat = h
  · simp [bucketOf, hq]
  · simp [bucketOf, hq, Ne.symm hq]

/-- An older position is the last of its bucket. -/
theorem bucketOf_cons (inp : Memory) (o : Nat) (qs : List Nat) (h : Nat) :
    bucketOf inp (o :: qs) h =
      if h = (hashAt inp o).toNat then bucketOf inp qs h ++ [o] else bucketOf inp qs h := by
  by_cases ho : (hashAt inp o).toNat = h
  · simp [bucketOf, ho]
  · simp [bucketOf, ho, Ne.symm ho]

theorem pairwise_bucketOf (hqs : qs.Pairwise (· < ·)) : (bucketOf inp qs h).Pairwise (· > ·) :=
  List.pairwise_reverse.2 (hqs.filter _)

end

/-! ### The last positions -/

/-- The last 65538 of the first `r` positions (41_matchfinder.md R168). -/
def lastPositions (r : Nat) : List Nat := List.range' (r - trackMax) (min r trackMax)

theorem MF.tracked_eq_lastPositions (mf : MF) : mf.tracked = lastPositions mf.registered := rfl

@[simp] theorem length_lastPositions (r : Nat) : (lastPositions r).length = min r trackMax := by
  simp [lastPositions]

theorem mem_lastPositions {q r : Nat} : q ∈ lastPositions r ↔ q < r ∧ r ≤ q + trackMax := by
  simp only [lastPositions, List.mem_range'_1, trackMax]
  omega

theorem pairwise_lastPositions (r : Nat) : (lastPositions r).Pairwise (· < ·) :=
  List.pairwise_lt_range'

/-- Below the bound one more position is kept. -/
theorem lastPositions_succ_of_lt {r : Nat} (h : r < trackMax) : lastPositions (r + 1) = lastPositions r ++ [r] := by
  simp only [trackMax] at h
  have hlo : r + 1 - 65538 = 0 ∧ r - 65538 = 0 := by omega
  have hmin : min (r + 1) 65538 = r + 1 ∧ min r 65538 = r := by omega
  simp only [lastPositions, trackMax, hlo.1, hlo.2, hmin.1, hmin.2]
  rw [List.range'_concat]
  simp

/-- From the bound on the new position displaces the oldest. -/
theorem cons_lastPositions_succ_of_le {r : Nat} (h : trackMax ≤ r) :
    (r - trackMax) :: lastPositions (r + 1) = lastPositions r ++ [r] := by
  have hlo : r + 1 - trackMax = r - trackMax + 1 := by omega
  have hmin : min (r + 1) trackMax = trackMax ∧ min r trackMax = trackMax := by omega
  have hlast : r = r - trackMax + 1 * trackMax := by omega
  rw [lastPositions, lastPositions, hlo, hmin.1, hmin.2, ← List.range'_succ, List.range'_concat, ← hlast]

/-! ### Registration -/

/-- The matcher tracks the last 65538 of the first `r` positions: in the queue, in the buckets of their hashes, and
with H the hash of the last (10_state.md R29 to R32). -/
structure MF.Tracks (mf : MF) (r : Nat) : Prop where
  table_wf : mf.table.wf
  evq_eq : mf.evq = lastPositions r
  bucket_eq : ∀ h, mf.table.bucket h = bucketOf mf.inp mf.evq h
  h_eq : 0 < r → mf.h = hashAt mf.inp (r - 1)

/-- Between two events the registered positions are tracked. -/
theorem MF.Inv.tracks {cfg : Config} {mf : MF} (h : mf.Inv cfg) : mf.Tracks mf.registered where
  table_wf := h.table_wf
  evq_eq := h.evq_eq.trans mf.tracked_eq_lastPositions
  bucket_eq := fun k => by rw [h.bucket_eq, MF.trackedOf_eq_bucketOf, h.evq_eq]
  h_eq := h.h_eq

theorem MF.insert_bucket {mf : MF} (hw : mf.table.wf) (hb : ∀ h, mf.table.bucket h = bucketOf mf.inp mf.evq h)
    (q h : Nat) : (mf.insert q).table.bucket h = bucketOf mf.inp (mf.evq ++ [q]) h := by
  rw [MF.insert_table, Table.bucket_put hw, bucketOf_concat]
  split
  · rename_i hq; rw [hb, hq]
  · exact hb h

theorem MF.evict_of_cons {mf : MF} {o : Nat} {rest : List Nat} (h : mf.evq = o :: rest) :
    mf.evict = { mf with
      evq := rest
      table := mf.table.put (hashAt mf.inp o).toNat (mf.table.bucket (hashAt mf.inp o).toNat).dropLast } := by
  simp only [MF.evict, h]

theorem MF.evict_bucket {mf : MF} {o : Nat} {rest : List Nat} (hw : mf.table.wf)
    (hb : ∀ h, mf.table.bucket h = bucketOf mf.inp mf.evq h) (he : mf.evq = o :: rest) (h : Nat) :
    mf.evict.table.bucket h = bucketOf mf.inp rest h := by
  rw [MF.evict_of_cons he, Table.bucket_put hw]
  split
  · rename_i ho
    rw [hb, he, bucketOf_cons, if_pos rfl, List.dropLast_concat, ho]
  · rename_i ho
    rw [hb, he, bucketOf_cons, if_neg ho]

/-- The registration of the next position. -/
theorem MF.Tracks.register {mf : MF} {q : Nat} (h : mf.Tracks q) : (mf.register q).Tracks (q + 1) := by
  have hw : (mf.insert q).table.wf := Table.wf_put h.table_wf _ _
  have hb := MF.insert_bucket h.table_wf h.bucket_eq q
  have hevq : (mf.insert q).evq = lastPositions q ++ [q] := by rw [MF.insert_evq, h.evq_eq]
  rw [MF.register]
  simp only [hevq, List.length_append, List.length_singleton, length_lastPositions]
  by_cases hq : q < trackMax
  · rw [if_neg (by omega)]
    exact ⟨hw, by rw [hevq, lastPositions_succ_of_lt hq], hb, fun _ => rfl⟩
  · have hcons : (mf.insert q).evq = (q - trackMax) :: lastPositions (q + 1) := by
      rw [hevq, cons_lastPositions_succ_of_le (by omega)]
    rw [if_pos (by omega)]
    have hbucket := MF.evict_bucket hw hb hcons
    rw [MF.evict_of_cons hcons] at hbucket ⊢
    exact ⟨Table.wf_put hw _ _, rfl, hbucket, fun _ => rfl⟩

/-- Registering `q` where it has a complete seed, and leaving it out where it has none (41_matchfinder.md R169). -/
theorem MF.Tracks.registerSeed {mf : MF} {q : Nat} (h : mf.Tracks (min q (mf.n.toNat - 2))) :
    (mf.registerSeed q).Tracks (min (q + 1) (mf.n.toNat - 2)) := by
  rw [MF.registerSeed]
  simp only [minMatch]
  split
  · rename_i hq
    rw [show min q (mf.n.toNat - 2) = q by omega] at h
    rw [show min (q + 1) (mf.n.toNat - 2) = q + 1 by omega]
    exact h.register
  · rename_i hq
    rwa [show min (q + 1) (mf.n.toNat - 2) = min q (mf.n.toNat - 2) by omega]

theorem MF.registerSeed_n (mf : MF) (q : Nat) : (mf.registerSeed q).n = mf.n := by
  obtain ⟨h, t, e, he⟩ := mf.registerSeed_eq q
  rw [he]

theorem MF.Tracks.registerRun {mf : MF} {q : Nat} (k : Nat) (h : mf.Tracks (min q (mf.n.toNat - 2))) :
    (mf.registerRun q k).Tracks (min (q + k) (mf.n.toNat - 2)) := by
  induction k generalizing mf q with
  | zero => exact h
  | succ k ih =>
    have := ih (mf := mf.registerSeed q) (q := q + 1) (by rw [MF.registerSeed_n]; exact h.registerSeed)
    rwa [MF.registerSeed_n, Nat.add_assoc, Nat.add_comm 1 k] at this

/-! ### The statement -/

/-- Settles O54: the queue is the last registered positions, the buckets are those of the queue by hash. -/
theorem tableAndQueueProperties : Obligations.TableAndQueueProperties := by
  intro cfg mf hmf
  have hevq := hmf.tracks.evq_eq
  have hbucket := hmf.tracks.bucket_eq
  have hsorted : mf.evq.Pairwise (· < ·) := hevq ▸ pairwise_lastPositions _
  have hdec : ∀ h, (mf.table.bucket h).Pairwise (· > ·) := fun h => hbucket h ▸ pairwise_bucketOf hsorted
  have hmem {h q : Nat} : q ∈ mf.table.bucket h ↔ q ∈ mf.evq ∧ (hashAt mf.inp q).toNat = h := by
    rw [hbucket, mem_bucketOf]
  refine ⟨fun q => ⟨fun hq => ⟨_, hmem.2 ⟨hq, rfl⟩⟩, fun ⟨h, hq⟩ => (hmem.1 hq).1⟩, hsorted.imp Nat.ne_of_lt,
    fun h => (hdec h).imp Nat.ne_of_gt, fun h h' q hq hq' => (hmem.1 hq).2.symm.trans (hmem.1 hq').2,
    ?consecutive, ?bound, ?seed, hdec, ?oldest⟩
  case consecutive =>
    refine ⟨mf.registered - trackMax, ?_⟩
    rw [hevq, length_lastPositions, lastPositions]
  case bound =>
    rw [hevq, length_lastPositions]
    exact Nat.min_le_right _ _
  case seed =>
    intro h q hq
    obtain ⟨hq, hhash⟩ := hmem.1 hq
    rw [hevq, mem_lastPositions, MF.registered] at hq
    exact ⟨hhash, by omega⟩
  case oldest =>
    intro o ho
    obtain ⟨rest, hrest⟩ := List.head?_eq_some_iff.1 ho
    rw [hbucket, hrest, bucketOf_cons, if_pos rfl, List.getLast?_concat]

end Sys2Proof.Machine
end

section
/-! PROOFS. The invariant between two events (10_state.md R25 to R45): the reset values have it, and every effect of
a command and every engine step keeps it. -/

namespace Sys2Proof.Machine

variable {cfg : Config}

/-! ### The cursor -/

theorem BC.inv_reset (cfg : Config) : BC.reset.Inv cfg := ⟨Memory.wf_nil, Nat.zero_le _⟩

theorem BC.Inv.advance {b : BC} (h : b.Inv cfg) (n : Nat) : (b.advance n).Inv cfg := ⟨h.buf_wf, h.len_le⟩

/-! ### The token encoder -/

/-- The anti-repeat state inside a selection, where the FIFO may hold its twelfth entry (42_tokencodec.md R231). -/
structure TC.SelectInv (cfg : Config) (tc : TC) : Prop where
  usable_length : tc.usable.length = cfg.a5Size
  arq_nodup : tc.arq.Nodup
  arq_lt : ∀ i ∈ tc.arq, i < cfg.a5Size
  usable_iff : ∀ i, i < cfg.a5Size → (tc.usable[i]? = some false ↔ i ∈ tc.arq)

theorem TC.Inv.selectInv {tc : TC} (h : tc.Inv cfg) : tc.SelectInv cfg :=
  ⟨h.usable_length, h.arq_nodup, h.arq_lt, h.usable_iff⟩

/-- Between two commands the FIFO holds fewer than 12 entries. -/
theorem TC.SelectInv.inv {tc : TC} (h : tc.SelectInv cfg) (hlen : tc.arq.length < arDepth)
    (hpkt : tc.pkt.length = pktBytes) : tc.Inv cfg :=
  ⟨h.usable_length, hlen, h.arq_nodup, h.arq_lt, h.usable_iff, hpkt⟩

/-- Every symbol usable and the FIFO empty. -/
theorem TC.inv_of_fresh {tc : TC} (hu : tc.usable = List.replicate cfg.a5Size true) (ha : tc.arq = [])
    (hp : tc.pkt.length = pktBytes) : tc.Inv cfg where
  usable_length := by simp [hu]
  arq_length := by simp [ha]
  arq_nodup := by simp [ha]
  arq_lt := by simp [ha]
  usable_iff := fun i hi => by simp [hu, ha, hi]
  pkt_length := hp

theorem TC.inv_reset (cfg : Config) : (TC.reset cfg).Inv cfg := TC.inv_of_fresh rfl rfl rfl

theorem TC.Inv.init {tc : TC} (h : tc.Inv cfg) (mode : TcMode) : (tc.init cfg mode).Inv cfg :=
  TC.inv_of_fresh rfl rfl h.pkt_length

theorem TC.Inv.withPkt {tc : TC} (h : tc.Inv cfg) {pkt : List Byte} (hp : pkt.length = pktBytes) :
    TC.Inv cfg { tc with pkt := pkt } :=
  ⟨h.usable_length, h.arq_length, h.arq_nodup, h.arq_lt, h.usable_iff, hp⟩

/-- A usable symbol enters the FIFO. -/
theorem TC.SelectInv.markUsed {tc : TC} (h : tc.SelectInv cfg) {idx : Nat} (hidx : tc.usable[idx]? = some true) :
    (tc.markUsed idx).SelectInv cfg := by
  have hlt : idx < cfg.a5Size := h.usable_length ▸ (List.getElem?_eq_some_iff.1 hidx).1
  have hnew : idx ∉ tc.arq := fun hm => by simp [(h.usable_iff idx hlt).2 hm] at hidx
  refine ⟨by simp [h.usable_length], ?nodup, ?lt, fun i hi => ?usable⟩
  case nodup => simpa [List.nodup_append, h.arq_nodup] using fun a ha (he : a = idx) => hnew (he ▸ ha)
  case lt =>
    intro i hi
    rcases List.mem_append.1 hi with hi | hi
    · exact h.arq_lt i hi
    · rwa [List.mem_singleton.1 hi]
  case usable =>
    rw [TC.markUsed_usable, TC.markUsed_arq, List.mem_append, List.mem_singleton]
    by_cases hi' : i = idx
    · simp [hi', h.usable_length, hlt]
    · simp [List.getElem?_set_ne (Ne.symm hi'), h.usable_iff i hi, hi']

/-- The oldest entry of a full FIFO becomes usable again. -/
theorem TC.SelectInv.restoreOldest {tc : TC} (h : tc.SelectInv cfg) : tc.restoreOldest.SelectInv cfg := by
  rcases tc.restoreOldest_cases with ⟨hlen, he⟩ | ⟨-, he⟩
  · obtain ⟨o, rest, harq⟩ := List.exists_cons_of_length_pos (l := tc.arq) (by omega)
    have hnodup : o ∉ rest ∧ rest.Nodup := List.nodup_cons.1 (harq ▸ h.arq_nodup)
    have ho : o < tc.usable.length := h.usable_length ▸ h.arq_lt o (by simp [harq])
    rw [he, harq]
    refine ⟨by simp [h.usable_length], hnodup.2, fun i hi => h.arq_lt i (by simp_all), fun i hi => ?_⟩
    by_cases hi' : i = o
    · simp [hi', ho, hnodup.1]
    · have := h.usable_iff i hi
      rw [harq, List.mem_cons, or_iff_right hi'] at this
      simpa [List.getElem?_set_ne (Ne.symm hi')] using this
  · rwa [he]

theorem TC.length_restoreOldest_arq {tc : TC} (h : tc.arq.length ≤ 12) : tc.restoreOldest.arq.length < arDepth := by
  rcases tc.restoreOldest_cases with ⟨hlen, he⟩ | ⟨hlen, he⟩ <;> rw [he]
  · simp only [List.length_tail, hlen, arDepth]; omega
  · simp only [arDepth]; omega

/-- A selection keeps the anti-repeat state (42_tokencodec.md R228, R231). -/
theorem TC.Inv.markUsed_restoreOldest {tc : TC} (h : tc.Inv cfg) {v idx : Nat}
    (hidx : nthUsable tc.usable v = some idx) : ((tc.markUsed idx).restoreOldest).Inv cfg := by
  have hlen : (tc.markUsed idx).arq.length ≤ 12 := by
    have := h.arq_length
    simp only [TC.markUsed_arq, List.length_append, List.length_singleton, arDepth] at *
    omega
  exact (h.selectInv.markUsed (nthUsable_usable hidx)).restoreOldest.inv (TC.length_restoreOldest_arq hlen)
    (by rw [TC.restoreOldest_pkt]; exact h.pkt_length)

theorem TokenState.next_inv {ts ts' : TokenState} {code : Byte} (hb : ts.bc.Inv cfg) (ht : ts.tc.Inv cfg)
    (h : ts.next cfg = .ok (code, ts')) : ts'.bc.Inv cfg ∧ ts'.tc.Inv cfg := by
  rcases TokenState.next_eq_ok h with ⟨-, -, -, rfl⟩ | ⟨-, -, idx, hidx, -, rfl⟩
  · exact ⟨hb.advance 6, ht⟩
  · exact ⟨hb.advance 5, ht.markUsed_restoreOldest hidx⟩

/-- A run of symbols is its first symbol and the run after it. -/
theorem TokenState.take_succ_eq_ok {ts ts' : TokenState} {k : Nat} {codes : List Byte}
    (h : ts.take cfg (k + 1) = .ok (codes, ts')) :
    ∃ code ts1 rest, ts.next cfg = .ok (code, ts1) ∧ ts1.take cfg k = .ok (rest, ts') ∧ codes = code :: rest := by
  rw [TokenState.take] at h
  split at h
  · cases h
  · rename_i code ts1 h1
    split at h
    · cases h
    · rename_i rest ts2 h2
      cases h
      exact ⟨code, ts1, rest, h1, h2, rfl⟩

theorem TokenState.take_inv {ts ts' : TokenState} {k : Nat} {codes : List Byte} (hb : ts.bc.Inv cfg)
    (ht : ts.tc.Inv cfg) (h : ts.take cfg k = .ok (codes, ts')) : ts'.bc.Inv cfg ∧ ts'.tc.Inv cfg := by
  induction k generalizing ts codes with
  | zero => cases h; exact ⟨hb, ht⟩
  | succ k ih =>
    obtain ⟨code, ts1, rest, h1, h2, -⟩ := TokenState.take_succ_eq_ok h
    obtain ⟨hb1, ht1⟩ := TokenState.next_inv hb ht h1
    exact ih hb1 ht1 h2

/-! ### The fault state -/

theorem SYS.inv_reset : SYS.reset.Inv := ⟨fun _ => rfl, fun h => Bool.noConfusion h⟩

theorem SYS.inv_faulted (c : Cause) : SYS.Inv { faulted := true, faultCode := c.code } :=
  ⟨fun h => Bool.noConfusion h, fun _ => ⟨c, rfl⟩⟩

/-! ### The matcher inside a step -/

/-- What the matcher keeps inside a step too, where FILL may be 8 and P may be N before the group is flushed. -/
structure MF.StepInv (cfg : Config) (mf : MF) : Prop where
  inp_wf : mf.inp.wf
  stage_wf : mf.stage.wf
  out_wf : mf.out.wf
  n_le : mf.n.toNat ≤ cfg.inCap
  p_le : mf.p.toNat ≤ mf.n.toNat
  olen_le : mf.olen.toNat ≤ cfg.outCap
  fill_le : mf.fill.toNat ≤ slotsPerGroup
  slen_le : mf.slen.toNat ≤ 3 * mf.fill.toNat
  ctrl_unused : ∀ k, mf.fill.toNat ≤ k → k < slotsPerGroup →
    mf.ctrl.getLsbD (slotBit cfg.ctrlBitOrder k) = false
  tokens_le : mf.tokens.toNat ≤ mf.p.toNat
  tracks : mf.Tracks mf.registered

/-- What `MF_STATE` says of the other registers between two events (10_state.md R40, R41). -/
def MF.StateClause (mf : MF) : Prop :=
  match mf.st with
  | .idle => mf.p = 0 ∧ mf.fill = 0 ∧ mf.olen = 0 ∧ mf.tokens = 0 ∧ mf.cancelReq = false
  | .running => mf.p.toNat < mf.n.toNat
  | .done => mf.p = mf.n ∧ 0 < mf.n.toNat ∧ mf.fill = 0
  | .noData => mf.n = 0 ∧ mf.fill = 0 ∧ mf.olen = 0 ∧ mf.cancelReq = false
  | .aborted => mf.cancelReq = true ∧ mf.p.toNat < mf.n.toNat ∧ mf.fill = 0

theorem MF.Inv.stepInv {mf : MF} (h : mf.Inv cfg) : mf.StepInv cfg :=
  { h with fill_le := Nat.le_of_lt h.fill_lt, tracks := h.tracks }

/-- Between two events the open group is not full and the registers are as `MF_STATE` says. -/
theorem MF.StepInv.inv {mf : MF} (h : mf.StepInv cfg) (hfill : mf.fill.toNat < slotsPerGroup)
    (hst : mf.StateClause) : mf.Inv cfg :=
  { h with
    table_wf := h.tracks.table_wf
    fill_lt := hfill
    evq_eq := h.tracks.evq_eq
    bucket_eq := fun k => by rw [h.tracks.bucket_eq, h.tracks.evq_eq]; rfl
    h_eq := h.tracks.h_eq
    running_p_lt := fun e => by simpa only [MF.StateClause, e] using hst
    idle_clear := fun e => by simpa only [MF.StateClause, e] using hst
    noData_clear := fun e => by simpa only [MF.StateClause, e] using hst
    done_end := fun e => by simpa only [MF.StateClause, e] using hst
    aborted_end := fun e => by simpa only [MF.StateClause, e] using hst }

/-- `MF_STATE` and the request bit are no part of the invariant inside a step. -/
theorem MF.StepInv.withState {mf : MF} (h : mf.StepInv cfg) (st : MfState) (req : Bool) :
    MF.StepInv cfg { mf with st := st, cancelReq := req } :=
  { h with tracks := { h.tracks with } }

/-! ### The matcher's commands -/

/-- With no position registered, the input does not matter to the table and the queue. -/
theorem MF.Tracks.zero_congr {mf mf' : MF} (h : mf.Tracks 0) (ht : mf'.table = mf.table) (he : mf'.evq = mf.evq) :
    mf'.Tracks 0 := by
  have hevq : mf.evq = [] := h.evq_eq
  refine ⟨ht ▸ h.table_wf, he ▸ h.evq_eq, fun k => ?_, fun hr => absurd hr (Nat.lt_irrefl 0)⟩
  rw [ht, he, h.bucket_eq, hevq]
  rfl

/-- A matcher that has registered nothing tracks nothing. -/
theorem MF.tracks_zero {mf : MF} (ht : mf.table = []) (he : mf.evq = []) : mf.Tracks 0 :=
  ⟨ht ▸ Table.wf_nil, he, fun k => by rw [ht, he]; rfl, fun hr => absurd hr (Nat.lt_irrefl 0)⟩

theorem MF.registered_of_p_eq_zero {mf : MF} (h : mf.p = 0) : mf.registered = 0 := by
  simp [MF.registered, h]

/-- What `MF.START` and `MF.CLEAR` leave (41_matchfinder.md R161, R162). -/
theorem MF.Inv.clearRun {mf : MF} (h : mf.Inv cfg) {n : Word} (hn : n.toNat ≤ cfg.inCap) (st : MfState) :
    MF.StepInv cfg { mf.clearRun with n := n, st := st } where
  inp_wf := h.inp_wf
  stage_wf := h.stage_wf
  out_wf := h.out_wf
  n_le := hn
  p_le := Nat.zero_le _
  olen_le := Nat.zero_le _
  fill_le := Nat.zero_le _
  slen_le := Nat.zero_le _
  ctrl_unused := fun k _ _ => BitVec.getLsbD_zero
  tokens_le := Nat.zero_le _
  tracks := by
    rw [MF.registered_of_p_eq_zero rfl]
    exact MF.tracks_zero rfl rfl

theorem MF.inv_reset (cfg : Config) : MF.reset.Inv cfg :=
  MF.StepInv.inv
    { inp_wf := Memory.wf_nil, stage_wf := Memory.wf_nil, out_wf := Memory.wf_nil, n_le := Nat.zero_le _
      p_le := Nat.zero_le _, olen_le := Nat.zero_le _, fill_le := Nat.zero_le _, slen_le := Nat.zero_le _
      ctrl_unused := fun _ _ _ => BitVec.getLsbD_zero, tokens_le := Nat.zero_le _, tracks := MF.tracks_zero rfl rfl }
    (by decide) ⟨rfl, rfl, rfl, rfl, rfl⟩

theorem MF.Inv.clear {mf : MF} (h : mf.Inv cfg) : MF.Inv cfg { mf.clearRun with n := 0, st := .idle } :=
  (h.clearRun (Nat.zero_le _) .idle).inv (by decide : (0 : BitVec 4).toNat < 8) ⟨rfl, rfl, rfl, rfl, rfl⟩

theorem MF.Inv.start {mf : MF} (h : mf.Inv cfg) :
    MF.Inv cfg { mf.clearRun with st := if mf.n = 0 then .noData else .running } := by
  refine (h.clearRun h.n_le _).inv (by decide : (0 : BitVec 4).toNat < 8) ?_
  by_cases hn : mf.n = 0
  · rw [if_pos hn]; exact ⟨hn, rfl, rfl, rfl⟩
  · rw [if_neg hn]; exact BitVec.toNat_pos_of_ne_zero hn

/-- `MF.PUT` with room left: nothing is registered yet. -/
theorem MF.Inv.put {mf : MF} (hcfg : cfg.wf) (h : mf.Inv cfg) (hst : mf.st = .idle)
    (hroom : mf.n.toNat ≠ cfg.inCap) (byte : Byte) :
    MF.Inv cfg { mf with inp := mf.inp.write mf.n.toNat byte, n := mf.n + 1 } := by
  obtain ⟨⟨-, hcap⟩, -⟩ := hcfg
  have hlt := Nat.lt_of_le_of_ne h.n_le hroom
  have hn : (mf.n + 1).toNat = mf.n.toNat + 1 := by
    simp only [BitVec.toNat_add, BitVec.ofNat_eq_ofNat, BitVec.toNat_ofNat]
    omega
  obtain ⟨hp, hidle⟩ := h.idle_clear hst
  have htracks : mf.Tracks 0 := MF.registered_of_p_eq_zero hp ▸ h.tracks
  refine MF.StepInv.inv
    { h.stepInv with inp_wf := Memory.wf_write h.inp_wf _ _, n_le := ?_, p_le := ?_, tracks := ?_ } h.fill_lt ?_
  · rw [hn]; exact hlt
  · simp [hp]
  · rw [MF.registered_of_p_eq_zero (by exact hp)]; exact htracks.zero_congr rfl rfl
  · simpa only [MF.StateClause, hst] using ⟨hp, hidle⟩

/-- `MF.CANCEL` while a compression runs. -/
theorem MF.Inv.cancel {mf : MF} (h : mf.Inv cfg) (hst : mf.st = .running) :
    MF.Inv cfg { mf with cancelReq := true } :=
  (h.stepInv.withState mf.st true).inv h.fill_lt (by simpa only [MF.StateClause, hst] using h.running_p_lt hst)

/-! ### One decision -/

theorem MF.registerSeed_p (mf : MF) (q : Nat) : (mf.registerSeed q).p = mf.p := by
  obtain ⟨h, t, e, he⟩ := mf.registerSeed_eq q
  rw [he]

/-- A search finds no more than the bytes left, and no more than 258 (41_matchfinder.md R172). -/
theorem MF.search_len_le (mf : MF) : mf.search.len ≤ min 258 (mf.n.toNat - mf.p.toNat) := by
  rw [MF.search]
  split
  · rcases searchBucket_cases mf.inp mf.n.toNat mf.p.toNat
      (mf.table.bucket (hashAt mf.inp mf.p.toNat).toNat) with h | ⟨c, -, -, -, h⟩ <;> rw [h]
    · exact Nat.zero_le _
    · exact equalRun_le ..
  · exact Nat.zero_le _

/-- Everything a decision can be: a match within the input, or the next bytes of the input. -/
theorem MF.decision_cases (mf : MF) :
    (∃ m, m = (mf.registerSeed mf.p.toNat).search ∧ mf.decision = .copy m.dist m.len ∧ 3 < m.len ∧ m.len ≤ 258 ∧
      m.len ≤ mf.n.toNat - mf.p.toNat) ∨
    ((mf.registerSeed mf.p.toNat).search.len ≤ 3 ∧
      mf.decision = .literal (mf.inp.bytes mf.p.toNat (min 3 (mf.n.toNat - mf.p.toNat)))) := by
  have hlen := (mf.registerSeed mf.p.toNat).search_len_le
  rw [MF.registerSeed_n, MF.registerSeed_p] at hlen
  rw [MF.decision]
  simp only [minMatch, litMax]
  split
  · rename_i h; exact .inl ⟨_, rfl, rfl, h, by omega, by omega⟩
  · rename_i h; exact .inr ⟨by omega, rfl⟩

theorem MF.decision_size_pos {mf : MF} (h : mf.p.toNat < mf.n.toNat) : 1 ≤ mf.decision.size := by
  rcases mf.decision_cases with ⟨m, -, hd, hlen, -⟩ | ⟨-, hd⟩ <;> rw [hd]
  · rw [Slot.size_copy]; omega
  · rw [Slot.size_literal, Memory.length_bytes]; omega

theorem MF.decision_size_le (mf : MF) : mf.decision.size ≤ mf.n.toNat - mf.p.toNat := by
  rcases mf.decision_cases with ⟨m, -, hd, -, -, hlen⟩ | ⟨-, hd⟩ <;> rw [hd]
  · rwa [Slot.size_copy]
  · rw [Slot.size_literal, Memory.length_bytes]; exact Nat.min_le_right _ _

theorem MF.length_decision_payload (mf : MF) : mf.decision.payload.length ≤ 3 := by
  rcases mf.decision_cases with ⟨m, -, hd, -⟩ | ⟨-, hd⟩ <;> rw [hd]
  · rw [Slot.payload_copy, length_matchBytes]
  · rw [Slot.payload_literal, Memory.length_bytes]; exact Nat.min_le_left _ _

/-- The decision consumes what the engine advances by. -/
theorem MF.decision_size (mf : MF) :
    mf.decision.size = (mf.registerSeed mf.p.toNat).consumed (mf.registerSeed mf.p.toNat).search := by
  rw [MF.decision, MF.consumed, MF.registerSeed_n, MF.registerSeed_p]
  split
  · rw [Slot.size_copy]
  · rw [Slot.size_literal, Memory.length_bytes]

/-- Emission touches neither H nor the table nor the queue. -/
theorem MF.Tracks.emit {mf : MF} {r : Nat} (h : mf.Tracks r) (cfg : Config) (m : Match) : (mf.emit cfg m).Tracks r := by
  unfold MF.emit
  split
  · exact ⟨h.table_wf, h.evq_eq, h.bucket_eq, h.h_eq⟩
  · exact ⟨h.table_wf, h.evq_eq, h.bucket_eq, h.h_eq⟩

theorem MF.emit_n (cfg : Config) (mf : MF) (m : Match) : (mf.emit cfg m).n = mf.n := by
  unfold MF.emit
  split <;> rfl

/-- One decision registers every position it consumes that has a complete seed (41_matchfinder.md R181). -/
theorem MF.Tracks.decideOnce {mf : MF} (h : mf.Tracks mf.registered) (hp : mf.p.toNat < mf.n.toNat) (cfg : Config) :
    (mf.decideOnce cfg).Tracks (min (mf.p.toNat + mf.decision.size) (mf.n.toNat - 2)) := by
  have hpos := MF.decision_size_pos hp
  have hseed := h.registerSeed.emit cfg (mf.registerSeed mf.p.toNat).search
  have hn : ((mf.registerSeed mf.p.toNat).emit cfg (mf.registerSeed mf.p.toNat).search).n = mf.n := by
    rw [MF.emit_n, MF.registerSeed_n]
  rw [← hn] at hseed
  have hrun := hseed.registerRun (mf.decision.size - 1)
  rw [hn, show mf.p.toNat + 1 + (mf.decision.size - 1) = mf.p.toNat + mf.decision.size by omega,
    MF.decision_size] at hrun
  rw [MF.decision_size]
  exact ⟨hrun.table_wf, hrun.evq_eq, hrun.bucket_eq, hrun.h_eq⟩

/-- A control bit set at one slot is clear at every later one (30_encoding.md R104). -/
theorem getLsbD_slotMask_of_lt (order : CtrlBitOrder) {j k : Nat} (hjk : j < k) (hk : k < 8) :
    (1#8 <<< slotBit order j).getLsbD (slotBit order k) = false := by
  have hne : slotBit order j ≠ slotBit order k := by
    cases order <;> simp only [slotBit] <;> omega
  rw [← BitVec.twoPow_eq, BitVec.getLsbD_twoPow]
  simp [hne]

theorem MF.getLsbD_ctrlWith_of_lt {mf : MF} (h : mf.Inv cfg) (slot : Slot) {k : Nat} (hfill : mf.fill.toNat < k)
    (hk : k < 8) : (mf.ctrlWith cfg slot).getLsbD (slotBit cfg.ctrlBitOrder k) = false := by
  have hctrl := h.ctrl_unused k (Nat.le_of_lt hfill) hk
  have hmask := getLsbD_slotMask_of_lt cfg.ctrlBitOrder hfill hk
  rw [MF.ctrlWith, BitVec.getLsbD_or, hctrl]
  split
  · simpa using hmask
  · simp

section
variable {mf : MF} (h : mf.Inv cfg)
include h

theorem MF.Inv.toNat_decideOnce_fill : (mf.decideOnce cfg).fill.toNat = mf.fill.toNat + 1 := by
  obtain ⟨h', t, e, he⟩ := mf.decideOnce_eq cfg
  have hfill : mf.fill.toNat < 8 := h.fill_lt
  rw [he]
  simp only [MF.stageSlot_fill, BitVec.toNat_add, BitVec.ofNat_eq_ofNat, BitVec.toNat_ofNat]
  omega

theorem MF.Inv.toNat_decideOnce_slen :
    (mf.decideOnce cfg).slen.toNat = mf.slen.toNat + mf.decision.payload.length := by
  obtain ⟨h', t, e, he⟩ := mf.decideOnce_eq cfg
  have hfill : mf.fill.toNat < 8 := h.fill_lt
  have hslen := h.slen_le
  have hpayload := mf.length_decision_payload
  rw [he]
  simp only [MF.stageSlot_slen, BitVec.toNat_add, BitVec.toNat_ofNat]
  omega

theorem MF.Inv.toNat_decideOnce_p : (mf.decideOnce cfg).p.toNat = mf.p.toNat + mf.decision.size := by
  obtain ⟨h', t, e, he⟩ := mf.decideOnce_eq cfg
  have hsize := mf.decision_size_le
  have hp := h.p_le
  have hn := mf.n.isLt
  rw [he]
  simp only [BitVec.toNat_add, BitVec.toNat_ofNat]
  omega

theorem MF.Inv.toNat_decideOnce_tokens (hp : mf.p.toNat < mf.n.toNat) :
    (mf.decideOnce cfg).tokens.toNat = mf.tokens.toNat + 1 := by
  obtain ⟨h', t, e, he⟩ := mf.decideOnce_eq cfg
  have htokens := h.tokens_le
  have hn := mf.n.isLt
  rw [he]
  simp only [BitVec.toNat_add, BitVec.ofNat_eq_ofNat, BitVec.toNat_ofNat]
  omega

/-- One decision keeps what holds inside a step. -/
theorem MF.Inv.decideOnce (hp : mf.p.toNat < mf.n.toNat) : (mf.decideOnce cfg).StepInv cfg := by
  have hfill := h.toNat_decideOnce_fill
  have hslen := h.toNat_decideOnce_slen
  have hpos := h.toNat_decideOnce_p
  have htokens := h.toNat_decideOnce_tokens hp
  have htracks := h.tracks.decideOnce hp cfg
  have hsize := MF.decision_size_pos hp
  have hsize_le := mf.decision_size_le
  have hpayload := mf.length_decision_payload
  have hregistered : (mf.decideOnce cfg).registered = min (mf.p.toNat + mf.decision.size) (mf.n.toNat - 2) := by
    rw [MF.registered, hpos]
    obtain ⟨h', t, e, he⟩ := mf.decideOnce_eq cfg
    rw [he]
    rfl
  rw [← hregistered] at htracks
  have hfill_lt : mf.fill.toNat < 8 := h.fill_lt
  have hslen_le := h.slen_le
  have htokens_le := h.tokens_le
  obtain ⟨h', t, e, he⟩ := mf.decideOnce_eq cfg
  rw [he] at hfill hslen hpos htokens htracks ⊢
  exact
    { inp_wf := h.inp_wf
      stage_wf := Memory.wf_writeBytes h.stage_wf _ _
      out_wf := h.out_wf
      n_le := h.n_le
      p_le := by rw [hpos]; change _ ≤ mf.n.toNat; omega
      olen_le := h.olen_le
      fill_le := by rw [hfill]; exact hfill_lt
      slen_le := by rw [hfill, hslen]; omega
      ctrl_unused := fun k hlo hhi => MF.getLsbD_ctrlWith_of_lt h _ (by rw [hfill] at hlo; omega) hhi
      tokens_le := by rw [htokens, hpos]; omega
      tracks := htracks }

end

theorem MF.decideOnce_st (cfg : Config) (mf : MF) : (mf.decideOnce cfg).st = mf.st := by
  obtain ⟨h', t, e, he⟩ := mf.decideOnce_eq cfg
  rw [he]
  rfl

theorem MF.decideOnce_n (cfg : Config) (mf : MF) : (mf.decideOnce cfg).n = mf.n := by
  obtain ⟨h', t, e, he⟩ := mf.decideOnce_eq cfg
  rw [he]
  rfl

/-! ### Flushes -/

/-- A flush changes nothing but the output and the open group. -/
theorem MF.flushGroup_frame {mf mf' : MF} (h : mf.flushGroup cfg = .ok mf') :
    mf'.st = mf.st ∧ mf'.p = mf.p ∧ mf'.n = mf.n ∧ mf'.cancelReq = mf.cancelReq ∧ mf'.fill = 0 := by
  obtain ⟨-, rfl⟩ := MF.flushGroup_eq_ok.1 h
  exact ⟨rfl, rfl, rfl, rfl, rfl⟩

theorem MF.StepInv.flushGroup {mf mf' : MF} (hcfg : cfg.wf) (h : mf.StepInv cfg)
    (hf : mf.flushGroup cfg = .ok mf') : mf'.StepInv cfg := by
  obtain ⟨hfit, rfl⟩ := MF.flushGroup_eq_ok.1 hf
  obtain ⟨-, ⟨-, hcap⟩, -⟩ := hcfg
  have holen : (mf.olen + 1 + mf.slen.setWidth 32).toNat = mf.olen.toNat + 1 + mf.slen.toNat := by
    have := mf.slen.isLt
    simp only [BitVec.toNat_add, BitVec.ofNat_eq_ofNat, BitVec.toNat_ofNat, BitVec.toNat_setWidth]
    omega
  exact
    { h with
      out_wf := Memory.wf_writeBytes h.out_wf _ _
      olen_le := by rw [holen]; exact hfit
      fill_le := Nat.zero_le _
      slen_le := Nat.zero_le _
      ctrl_unused := fun _ _ _ => BitVec.getLsbD_zero
      tracks := { h.tracks with } }

/-- After the final flush no group is open. -/
theorem MF.flushFinal_frame {mf mf' : MF} (h : mf.flushFinal cfg = .ok mf') :
    mf'.st = mf.st ∧ mf'.p = mf.p ∧ mf'.n = mf.n ∧ mf'.cancelReq = mf.cancelReq ∧ mf'.fill = 0 := by
  rcases mf.flushFinal_cases cfg with ⟨he, -⟩ | ⟨he, hfill, -⟩
  · exact MF.flushGroup_frame (he ▸ h)
  · rw [he] at h
    cases h
    exact ⟨rfl, rfl, rfl, rfl, BitVec.eq_of_toNat_eq hfill⟩

theorem MF.StepInv.flushFinal {mf mf' : MF} (hcfg : cfg.wf) (h : mf.StepInv cfg)
    (hf : mf.flushFinal cfg = .ok mf') : mf'.StepInv cfg := by
  rcases mf.flushFinal_cases cfg with ⟨he, -⟩ | ⟨he, -⟩
  · exact h.flushGroup hcfg (he ▸ hf)
  · rw [he] at hf
    cases hf
    exact h

/-! ### The engine's step -/

/-- The end of a step leaves a group that is not full, and `DONE` exactly at the end of the input. -/
theorem MF.StepInv.closeStep {mf mf' : MF} (hcfg : cfg.wf) (h : mf.StepInv cfg) (hst : mf.st = .running)
    (hn : 0 < mf.n.toNat) (hc : mf.closeStep cfg = .ok mf') : mf'.Inv cfg := by
  obtain ⟨mf1, h1, hclose⟩ := MF.closeStep_eq_ok hc
  obtain ⟨hinv1, hfill1, hst1, hn1⟩ :
      mf1.StepInv cfg ∧ mf1.fill.toNat < slotsPerGroup ∧ mf1.st = mf.st ∧ mf1.n = mf.n := by
    split at h1
    · obtain ⟨hst1, -, hn1, -, hfill1⟩ := MF.flushGroup_frame h1
      exact ⟨h.flushGroup hcfg h1, by rw [hfill1]; decide, hst1, hn1⟩
    · rename_i hne
      cases h1
      exact ⟨h, Nat.lt_of_le_of_ne h.fill_le hne, rfl, rfl⟩
  rcases hclose with ⟨hp, rfl⟩ | ⟨hp, mf2, h2, rfl⟩
  · have hlt : mf'.p.toNat < mf'.n.toNat :=
      Nat.lt_of_le_of_ne hinv1.p_le fun e => hp (BitVec.eq_of_toNat_eq e)
    exact hinv1.inv hfill1 (by simpa only [MF.StateClause, hst1, hst] using hlt)
  · obtain ⟨-, hp2, hn2, -, hfill2⟩ := MF.flushFinal_frame h2
    refine ((hinv1.flushFinal hcfg h2).withState .done mf2.cancelReq).inv ?_ ⟨?_, ?_, hfill2⟩
    · change mf2.fill.toNat < slotsPerGroup
      rw [hfill2]; decide
    · exact hp2.trans (hp.trans hn2.symm)
    · change 0 < mf2.n.toNat
      rwa [hn2, hn1]

theorem MF.Inv.cancelStep {mf mf' : MF} (hcfg : cfg.wf) (h : mf.Inv cfg) (hst : mf.st = .running)
    (hreq : mf.cancelReq = true) (hc : mf.cancelStep cfg = .ok mf') : mf'.Inv cfg := by
  obtain ⟨mf1, h1, rfl⟩ := MF.cancelStep_eq_ok hc
  obtain ⟨-, hp1, hn1, hreq1, hfill1⟩ := MF.flushFinal_frame h1
  refine ((h.stepInv.flushFinal hcfg h1).withState .aborted mf1.cancelReq).inv ?_ ⟨?_, ?_, hfill1⟩
  · change mf1.fill.toNat < slotsPerGroup
    rw [hfill1]; decide
  · exact hreq1.trans hreq
  · change mf1.p.toNat < mf1.n.toNat
    rw [hp1, hn1]
    exact h.running_p_lt hst

/-- An engine step of a running compression keeps the matcher's invariant (41_matchfinder.md R181). -/
theorem MF.Inv.engineStep {mf mf' : MF} (hcfg : cfg.wf) (h : mf.Inv cfg) (hst : mf.st = .running)
    (hs : mf.engineStep cfg = .ok mf') : mf'.Inv cfg := by
  have hp := h.running_p_lt hst
  rcases MF.engineStep_eq_ok hs with ⟨hreq, hc⟩ | ⟨-, hc⟩
  · exact h.cancelStep hcfg hst hreq hc
  · refine (h.decideOnce hp).closeStep hcfg ((mf.decideOnce_st cfg).trans hst) ?_ hc
    rw [MF.decideOnce_n]
    omega

/-! ### The machine -/

theorem State.Inv.withPort {s : State} (h : s.Inv) (p : Port) : State.Inv { s with port := p } := { h with }
theorem State.Inv.withBc {s : State} (h : s.Inv) {bc : BC} (hbc : bc.Inv s.cfg) : State.Inv { s with bc := bc } :=
  { h with bc := hbc }
theorem State.Inv.withMf {s : State} (h : s.Inv) {mf : MF} (hmf : mf.Inv s.cfg) : State.Inv { s with mf := mf } :=
  { h with mf := hmf }
theorem State.Inv.withTc {s : State} (h : s.Inv) {tc : TC} (htc : tc.Inv s.cfg) : State.Inv { s with tc := tc } :=
  { h with tc := htc }

/-- Four reset units have the invariant under every configuration within the spec's constraints. -/
theorem State.inv_resetBlock {s : State} (hcfg : s.cfg.wf) : s.resetBlock.Inv :=
  ⟨hcfg, BC.inv_reset _, MF.inv_reset _, TC.inv_reset _, SYS.inv_reset⟩

/-- Every effect of a command keeps the invariant. -/
theorem State.Inv.effect {s u : State} (hs : s.Inv) (h : s.Effect u) : u.Inv := by
  cases h with
  | nothing => exact hs
  | fault c => exact { hs with sys := SYS.inv_faulted c }
  | reset => exact State.inv_resetBlock hs.cfg_wf
  | alloc len hlen => exact hs.withBc ⟨Memory.wf_zeroFill hs.bc.buf_wf _, hlen⟩
  | seek offset => exact hs.withBc ⟨hs.bc.buf_wf, hs.bc.len_le⟩
  | read n => exact hs.withBc (hs.bc.advance n)
  | write n value => exact hs.withBc ⟨Memory.wf_scatter hs.bc.buf_wf _ _ _, hs.bc.len_le⟩
  | clear => exact hs.withMf hs.mf.clear
  | put byte hst hroom => exact hs.withMf (hs.mf.put hs.cfg_wf hst hroom byte)
  | start => exact hs.withMf hs.mf.start
  | cancel hst => exact hs.withMf (hs.mf.cancel hst)
  | init mode => exact hs.withTc (hs.tc.init mode)
  | next code ts h =>
    obtain ⟨hbc, htc⟩ := TokenState.next_inv hs.bc hs.tc h
    exact (hs.withBc hbc).withTc htc
  | packet k codes ts hk h =>
    obtain ⟨hbc, htc⟩ := TokenState.take_inv hs.bc hs.tc h
    have hlen : codes.length ≤ 6 := TokenState.length_take h ▸ hk
    exact (hs.withBc hbc).withTc (htc.withPkt (length_streamPacket hlen))
  | release => exact hs.withTc (hs.tc.withPkt rfl)

/-- Settles O52: a step is an effect of a command or the step of a running engine, but for the port. -/
theorem stepKeepsInvariant : Obligations.StepKeepsInvariant := by
  intro s t hs h
  obtain ⟨u, p, rfl, hu | ⟨hen, mf', hmf, rfl⟩⟩ := step_effect h
  · exact (hs.effect hu).withPort p
  · obtain ⟨hst, -⟩ := State.engineEnabled_iff.1 hen
    exact (hs.withMf (hs.mf.engineStep hs.cfg_wf hst hmf)).withPort p

/-- Settles O51: the reset values have the invariant, and no compression has produced a stream. -/
theorem resetSatisfiesInvariant : Obligations.ResetSatisfiesInvariant := by
  have hreset (cfg : Config) (hcfg : cfg.wf) :
      (State.resetWith cfg).Inv ∧ (State.resetWith cfg).StreamInv :=
    ⟨State.inv_resetBlock (s := State.resetWith cfg) hcfg, fun hst => by
      simp [State.resetWith, MF.reset] at hst⟩
  exact ⟨hreset, hreset Config.example (by decide)⟩

end Sys2Proof.Machine
end

section
/-! PROOFS. Contents above the length registers never show (10_state.md R52; 70_reset_and_hazards.md R320): every
operation of the cursor, of the token encoder and of the engine carries two units that look alike to two that look
alike, and so do the commands and the step. -/

namespace Sys2Proof.Machine

variable {cfg : Config}

/-! ### Memories that agree below a length -/

section
variable {m m' : Memory} {n : Nat}

theorem Memory.agreeBelow.mono (h : m.agreeBelow n m') {k : Nat} (hk : k ≤ n) : m.agreeBelow k m' :=
  fun a ha => h a (Nat.lt_of_lt_of_le ha hk)

theorem Memory.agreeBelow.bytes (h : m.agreeBelow n m') {a k : Nat} (hak : a + k ≤ n) :
    m.bytes a k = m'.bytes a k :=
  Memory.bytes_congr fun x _ hx => h x (by omega)

/-- The same bytes appended at the length extend the agreement. -/
theorem Memory.agreeBelow.writeBytes (h : m.agreeBelow n m') (hw : m.wf) (hw' : m'.wf) (bs : List Byte) :
    (m.writeBytes n bs).agreeBelow (n + bs.length) (m'.writeBytes n bs) := by
  intro a ha
  rw [Memory.read_writeBytes hw, Memory.read_writeBytes hw']
  split
  · rfl
  · exact h a (by omega)

theorem Memory.agreeBelow.writeBit (h : m.agreeBelow n m') (hw : m.wf) (hw' : m'.wf) (k : Nat) (bit : Bool) :
    (m.writeBit k bit).agreeBelow n (m'.writeBit k bit) := by
  intro a ha
  rw [Memory.read_writeBit hw, Memory.read_writeBit hw']
  split
  · rename_i hk; rw [h (k / 8) (hk ▸ ha)]
  · exact h a ha

theorem Memory.agreeBelow.scatter (h : m.agreeBelow n m') (hw : m.wf) (hw' : m'.wf) (value : Word) (k w : Nat) :
    (m.scatter value k w).agreeBelow n (m'.scatter value k w) := by
  induction w generalizing m m' k with
  | zero => exact h
  | succ w ih => exact ih (h.writeBit hw hw' k _) (Memory.wf_writeBit hw _ _) (Memory.wf_writeBit hw' _ _) (k + 1)

end

/-! ### Operations that may fault -/

/-- Two operations raise the same fault, or give results that `R` relates. -/
inductive SameOutcome {α : Type} (R : α → α → Prop) : Except Cause α → Except Cause α → Prop
  | error (c : Cause) : SameOutcome R (.error c) (.error c)
  | ok {a b : α} (h : R a b) : SameOutcome R (.ok a) (.ok b)

/-! ### The cursor -/

/-- Two cursors differ at most in bytes at and above LEN. -/
structure BC.LooksLike (b b' : BC) : Prop where
  regs : { b with buf := [] } = { b' with buf := [] }
  buf : b.buf.agreeBelow b.len.toNat b'.buf

theorem BC.looksLike_iff {b b' : BC} :
    b.LooksLike b' ↔ ∃ m, b' = { b with buf := m } ∧ b.buf.agreeBelow b.len.toNat m := by
  constructor
  · rintro ⟨hregs, hbuf⟩
    refine ⟨b'.buf, ?_, hbuf⟩
    obtain ⟨-, hlen, hpos⟩ := BC.mk.inj hregs
    rw [hlen, hpos]
  · rintro ⟨m, rfl, hbuf⟩
    exact ⟨rfl, hbuf⟩

theorem BC.LooksLike.refl (b : BC) : b.LooksLike b := ⟨rfl, fun _ _ => rfl⟩

theorem BC.LooksLike.len {b b' : BC} (h : b.LooksLike b') : b'.len = b.len := by
  obtain ⟨m, rfl, -⟩ := BC.looksLike_iff.1 h; rfl

theorem BC.LooksLike.advance {b b' : BC} (h : b.LooksLike b') (n : Nat) : (b.advance n).LooksLike (b'.advance n) := by
  obtain ⟨m, rfl, hbuf⟩ := BC.looksLike_iff.1 h
  exact ⟨rfl, hbuf⟩

/-- No bit at or above `8 * LEN` is read. -/
theorem BC.LooksLike.bit {b b' : BC} (h : b.LooksLike b') (k : Nat) : b'.bit k = b.bit k := by
  unfold BC.bit
  rw [h.len]
  split
  · rw [h.buf (k / 8) (by omega)]
  · rfl

theorem BC.LooksLike.readBits {b b' : BC} (h : b.LooksLike b') (n : Nat) :
    SameOutcome (fun r r' => r'.1 = r.1 ∧ r.2.LooksLike r'.2) (b.readBits n) (b'.readBits n) := by
  have hbits (k : Nat) : b'.bitsAt k n = b.bitsAt k n := BC.bitsAt_congr fun i _ _ => h.bit i
  have hadvance := h.advance n
  obtain ⟨m, rfl, -⟩ := BC.looksLike_iff.1 h
  have hcheck : BC.check { b with buf := m } n = b.check n := rfl
  unfold BC.readBits
  rw [hcheck]
  cases b.check n with
  | some c => exact .error c
  | none => exact .ok ⟨hbits _, hadvance⟩

theorem BC.LooksLike.writeBits {b b' : BC} (h : b.LooksLike b') (hw : b.buf.wf) (hw' : b'.buf.wf) (n : Nat)
    (value : Word) : SameOutcome BC.LooksLike (b.writeBits n value) (b'.writeBits n value) := by
  obtain ⟨m, rfl, hbuf⟩ := BC.looksLike_iff.1 h
  have hcheck : BC.check { b with buf := m } n = b.check n := rfl
  unfold BC.writeBits
  rw [hcheck]
  cases b.check n with
  | some c => exact .error c
  | none =>
    dsimp only
    split
    · exact .error _
    · exact .ok ⟨rfl, hbuf.scatter hw hw' value _ n⟩

/-! ### Runs of symbols -/

/-- Two token states with cursors that look alike and the same token encoder. -/
structure TokenState.LooksLike (ts ts' : TokenState) : Prop where
  bc : ts.bc.LooksLike ts'.bc
  tc : ts'.tc = ts.tc

/-- A symbol is the same, and so is the fault of its selection (42_tokencodec.md R225). -/
theorem TokenState.LooksLike.next {ts ts' : TokenState} (h : ts.LooksLike ts') {cfg' : Config} (hc : cfg = cfg') :
    SameOutcome (fun r r' => r'.1 = r.1 ∧ r.2.LooksLike r'.2) (ts.next cfg) (ts'.next cfg') := by
  subst hc
  unfold TokenState.next
  rw [h.tc]
  cases ts.tc.mode with
  | fixed6 =>
    have hread := h.bc.readBits w6
    simp only [TokenState.nextFixed]
    generalize ts.bc.readBits w6 = r, ts'.bc.readBits w6 = r' at hread
    cases hread with
    | error c => exact .error c
    | ok hr =>
      obtain ⟨hv, hbc⟩ := hr
      exact .ok ⟨by rw [hv], hbc, h.tc⟩
  | antirep5 =>
    have hread := h.bc.readBits w5
    simp only [TokenState.nextAntirep]
    generalize ts.bc.readBits w5 = r, ts'.bc.readBits w5 = r' at hread
    cases hread with
    | error c => exact .error c
    | ok hr =>
      obtain ⟨hv, hbc⟩ := hr
      dsimp only
      rw [hv, h.tc]
      cases TC.select ts.tc _ with
      | error c => exact .error c
      | ok r => exact .ok ⟨rfl, hbc, rfl⟩

theorem TokenState.LooksLike.take {ts ts' : TokenState} (h : ts.LooksLike ts') {cfg' : Config} (hc : cfg = cfg')
    (k : Nat) :
    SameOutcome (fun r r' => r'.1 = r.1 ∧ r.2.LooksLike r'.2) (ts.take cfg k) (ts'.take cfg' k) := by
  subst hc
  induction k generalizing ts ts' with
  | zero => exact .ok ⟨rfl, h⟩
  | succ k ih =>
    have hnext := h.next (rfl : cfg = cfg)
    simp only [TokenState.take]
    generalize ts.next cfg = r, ts'.next cfg = r' at hnext
    cases hnext with
    | error c => exact .error c
    | @ok r r' hr =>
      obtain ⟨hcode, hts⟩ := hr
      have hrest := ih hts
      dsimp only
      generalize r.2.take cfg k = q, r'.2.take cfg k = q' at hrest
      cases hrest with
      | error c => exact .error c
      | ok hr =>
        obtain ⟨hcodes, hts'⟩ := hr
        exact .ok ⟨by rw [hcode, hcodes], hts'⟩

/-! ### The matcher's memories -/

/-- The matcher's registers over other memories. -/
def MF.withMems (mf : MF) (inp stage out : Memory) : MF := { mf with inp := inp, stage := stage, out := out }

/-- Two matchers differ at most in bytes at and above N, SLEN and OLEN. -/
structure MF.LooksLike (mf mf' : MF) : Prop where
  regs : { mf with inp := [], stage := [], out := [] } = { mf' with inp := [], stage := [], out := [] }
  inp : mf.inp.agreeBelow mf.n.toNat mf'.inp
  stage : mf.stage.agreeBelow mf.slen.toNat mf'.stage
  out : mf.out.agreeBelow mf.olen.toNat mf'.out

theorem MF.looksLike_iff {mf mf' : MF} :
    mf.LooksLike mf' ↔ ∃ inp stage out, mf' = mf.withMems inp stage out ∧ mf.inp.agreeBelow mf.n.toNat inp ∧
      mf.stage.agreeBelow mf.slen.toNat stage ∧ mf.out.agreeBelow mf.olen.toNat out := by
  constructor
  · rintro ⟨hregs, hinp, hstage, hout⟩
    refine ⟨mf'.inp, mf'.stage, mf'.out, ?_, hinp, hstage, hout⟩
    cases mf
    cases mf'
    simp_all [MF.withMems]
  · rintro ⟨inp, stage, out, rfl, hinp, hstage, hout⟩
    exact ⟨rfl, hinp, hstage, hout⟩

theorem MF.LooksLike.refl (mf : MF) : mf.LooksLike mf := ⟨rfl, fun _ _ => rfl, fun _ _ => rfl, fun _ _ => rfl⟩

/-- What reads registers only gives the same of two matchers that look alike. -/
theorem MF.LooksLike.apply_eq {α : Type} {mf mf' : MF} (h : mf.LooksLike mf') (f : MF → α)
    (hf : ∀ inp stage out, f (mf.withMems inp stage out) = f mf) : f mf' = f mf := by
  obtain ⟨inp, stage, out, rfl, -⟩ := MF.looksLike_iff.1 h
  exact hf inp stage out

/-! ### The matcher's commands -/

theorem MF.LooksLike.clear {mf mf' : MF} (h : mf.LooksLike mf') :
    MF.LooksLike { mf.clearRun with n := 0, st := .idle } { mf'.clearRun with n := 0, st := .idle } := by
  obtain ⟨inp, stage, out, rfl, -⟩ := MF.looksLike_iff.1 h
  exact ⟨rfl, fun a ha => absurd ha (Nat.not_lt_zero a), fun a ha => absurd ha (Nat.not_lt_zero a),
    fun a ha => absurd ha (Nat.not_lt_zero a)⟩

theorem MF.LooksLike.start {mf mf' : MF} (h : mf.LooksLike mf') :
    MF.LooksLike { mf.clearRun with st := if mf.n = 0 then .noData else .running }
      { mf'.clearRun with st := if mf'.n = 0 then .noData else .running } := by
  obtain ⟨inp, stage, out, rfl, hinp, -, -⟩ := MF.looksLike_iff.1 h
  exact ⟨rfl, hinp, fun a ha => absurd ha (Nat.not_lt_zero a), fun a ha => absurd ha (Nat.not_lt_zero a)⟩

theorem MF.LooksLike.put {mf mf' : MF} (h : mf.LooksLike mf') (hw : mf.inp.wf) (hw' : mf'.inp.wf) (byte : Byte) :
    MF.LooksLike { mf with inp := mf.inp.write mf.n.toNat byte, n := mf.n + 1 }
      { mf' with inp := mf'.inp.write mf'.n.toNat byte, n := mf'.n + 1 } := by
  obtain ⟨inp, stage, out, rfl, hinp, hstage, hout⟩ := MF.looksLike_iff.1 h
  have hn : (mf.n + 1).toNat ≤ mf.n.toNat + 1 := by
    simp only [BitVec.toNat_add, BitVec.ofNat_eq_ofNat, BitVec.toNat_ofNat]
    omega
  exact ⟨rfl, (hinp.writeBytes hw hw' [byte]).mono hn, hstage, hout⟩

theorem MF.LooksLike.withState {mf mf' : MF} (h : mf.LooksLike mf') (st : MfState) :
    MF.LooksLike { mf with st := st } { mf' with st := st } := by
  obtain ⟨inp, stage, out, rfl, hinp, hstage, hout⟩ := MF.looksLike_iff.1 h
  exact ⟨rfl, hinp, hstage, hout⟩

theorem MF.LooksLike.cancel {mf mf' : MF} (h : mf.LooksLike mf') :
    MF.LooksLike { mf with cancelReq := true } { mf' with cancelReq := true } := by
  obtain ⟨inp, stage, out, rfl, hinp, hstage, hout⟩ := MF.looksLike_iff.1 h
  exact ⟨rfl, hinp, hstage, hout⟩

/-! ### Registration -/

section
variable {mf : MF} {inp stage out : Memory}

theorem hashAt_congr {n q : Nat} {m m' : Memory} (h : m.agreeBelow n m') (hq : q + 3 ≤ n) :
    hashAt m' q = hashAt m q := by
  rw [hashAt, hashAt, h q (by omega), h (q + 1) (by omega), h (q + 2) (by omega)]

theorem MF.insert_withMems {q : Nat} (hq : hashAt inp q = hashAt mf.inp q) :
    (mf.withMems inp stage out).insert q = (mf.insert q).withMems inp stage out := by
  simp only [MF.insert, MF.withMems, hq]

theorem MF.evict_withMems (hevq : ∀ q ∈ mf.evq, hashAt inp q = hashAt mf.inp q) :
    (mf.withMems inp stage out).evict = mf.evict.withMems inp stage out := by
  cases he : mf.evq with
  | nil => simp only [MF.evict, MF.withMems, he]
  | cons o rest => simp only [MF.evict, MF.withMems, he, hevq o (by simp [he])]

theorem MF.register_withMems {q : Nat} (hevq : ∀ q ∈ mf.evq, hashAt inp q = hashAt mf.inp q)
    (hq : hashAt inp q = hashAt mf.inp q) :
    (mf.withMems inp stage out).register q = (mf.register q).withMems inp stage out := by
  have hevict : ((mf.insert q).withMems inp stage out).evict = (mf.insert q).evict.withMems inp stage out := by
    refine MF.evict_withMems fun x hx => ?_
    rcases List.mem_append.1 hx with hx | hx
    · exact hevq x hx
    · rwa [List.mem_singleton.1 hx]
  rw [MF.register, MF.register, MF.insert_withMems hq]
  simp only [hevict]
  split
  · rw [if_pos ‹_›]
  · rw [if_neg ‹_›]

/-- Registration reads complete seeds only, of the position and of those in the queue. -/
theorem MF.registerSeed_withMems {q r : Nat} (h : mf.Tracks r) (hr : r ≤ mf.n.toNat - 2)
    (hinp : mf.inp.agreeBelow mf.n.toNat inp) :
    (mf.withMems inp stage out).registerSeed q = (mf.registerSeed q).withMems inp stage out := by
  have hevq : ∀ x ∈ mf.evq, hashAt inp x = hashAt mf.inp x := fun x hx => by
    rw [h.evq_eq, mem_lastPositions] at hx
    exact hashAt_congr hinp (by omega)
  unfold MF.registerSeed
  by_cases hq : q + minMatch ≤ mf.n.toNat
  · rw [if_pos (by exact hq), if_pos hq, MF.register_withMems hevq (hashAt_congr hinp hq)]
  · rw [if_neg (by exact hq), if_neg hq]

theorem MF.registerSeed_inp (mf : MF) (q : Nat) : (mf.registerSeed q).inp = mf.inp := by
  obtain ⟨h, t, e, he⟩ := mf.registerSeed_eq q
  rw [he]

theorem MF.registerRun_withMems {q : Nat} (k : Nat) (h : mf.Tracks (min q (mf.n.toNat - 2)))
    (hinp : mf.inp.agreeBelow mf.n.toNat inp) :
    (mf.withMems inp stage out).registerRun q k = (mf.registerRun q k).withMems inp stage out := by
  induction k generalizing mf q with
  | zero => rfl
  | succ k ih =>
    rw [MF.registerRun, MF.registerRun, MF.registerSeed_withMems h (Nat.min_le_right _ _) hinp]
    refine ih ?_ ?_
    · rw [MF.registerSeed_n]; exact h.registerSeed
    · rw [MF.registerSeed_n, MF.registerSeed_inp]; exact hinp

/-! ### Search and decision -/

theorem equalRun_congr {n c p lim : Nat} {m m' : Memory} (h : m.agreeBelow n m') (hc : c + lim ≤ n)
    (hp : p + lim ≤ n) : equalRun m' c p lim = equalRun m c p lim := by
  induction lim generalizing c p with
  | zero => rfl
  | succ lim ih =>
    rw [equalRun, equalRun, h c (by omega), h p (by omega), ih (by omega) (by omega)]

/-- A search compares bytes below N only. -/
theorem searchBucket_congr {n p : Nat} {m m' : Memory} (h : m.agreeBelow n m') (hp : p ≤ n) (bucket : List Nat) :
    searchBucket m' n p bucket = searchBucket m n p bucket := by
  refine List.foldl_ext _ _ _ fun best c _ => ?_
  unfold considerCandidate
  split
  · rename_i hv
    have hcp := (validCandidate_iff.1 hv).1
    have hlen : matchLen m' n c p = matchLen m n c p := equalRun_congr h (by omega) (by omega)
    rw [hlen]
  · rfl

theorem MF.search_withMems (hinp : mf.inp.agreeBelow mf.n.toNat inp) :
    (mf.withMems inp stage out).search = mf.search := by
  unfold MF.search
  by_cases hp : mf.p.toNat + minMatch ≤ mf.n.toNat
  · rw [if_pos (by exact hp), if_pos hp]
    change searchBucket inp mf.n.toNat mf.p.toNat (mf.table.bucket (hashAt inp mf.p.toNat).toNat) = _
    rw [hashAt_congr hinp hp, searchBucket_congr hinp (by omega)]
  · rw [if_neg (by exact hp), if_neg hp]

/-- The search of a step, after P is registered. -/
theorem MF.Inv.registerSeed_search_withMems (h : mf.Inv cfg) (hinp : mf.inp.agreeBelow mf.n.toNat inp) :
    ((mf.withMems inp stage out).registerSeed mf.p.toNat).search = (mf.registerSeed mf.p.toNat).search := by
  rw [MF.registerSeed_withMems h.tracks (Nat.min_le_right _ _) hinp]
  exact MF.search_withMems (by rw [MF.registerSeed_n, MF.registerSeed_inp]; exact hinp)

/-- The decision does not depend on what lies above the length registers. -/
theorem MF.Inv.decision_withMems (h : mf.Inv cfg) (hinp : mf.inp.agreeBelow mf.n.toNat inp) :
    (mf.withMems inp stage out).decision = mf.decision := by
  have hp := h.p_le
  have hbytes : inp.bytes mf.p.toNat (min litMax (mf.n.toNat - mf.p.toNat)) =
      mf.inp.bytes mf.p.toNat (min litMax (mf.n.toNat - mf.p.toNat)) := (hinp.bytes (by omega)).symm
  have hsearch := h.registerSeed_search_withMems (stage := stage) (out := out) hinp
  unfold MF.decision
  change (let m := ((mf.withMems inp stage out).registerSeed mf.p.toNat).search
    if minMatch < m.len then Slot.copy m.dist m.len
    else .literal (inp.bytes mf.p.toNat (min litMax (mf.n.toNat - mf.p.toNat)))) = _
  rw [hsearch, hbytes]

/-- Emission writes STAGE; the other memories stay, and the registers do not depend on any. -/
theorem MF.emit_withMems (cfg : Config) (m : Match) :
    (mf.withMems inp stage out).emit cfg m =
      (mf.emit cfg m).withMems inp ((mf.withMems inp stage out).emit cfg m).stage out := by
  unfold MF.emit
  split
  · rfl
  · simp only [MF.emitLiteral, MF.stageSlot, MF.withMems, Memory.length_bytes]
    rfl

theorem MF.emit_inp (cfg : Config) (mf : MF) (m : Match) : (mf.emit cfg m).inp = mf.inp := by
  unfold MF.emit
  split <;> rfl

/-- One decision over other memories gives the same registers and writes STAGE alone. -/
theorem MF.Inv.decideOnce_withMems (h : mf.Inv cfg) (hinp : mf.inp.agreeBelow mf.n.toNat inp) :
    ∃ stage', (mf.withMems inp stage out).decideOnce cfg = (mf.decideOnce cfg).withMems inp stage' out := by
  have hp : (mf.withMems inp stage out).p = mf.p := rfl
  have hseed := MF.registerSeed_withMems (q := mf.p.toNat) (stage := stage) (out := out) h.tracks
    (Nat.min_le_right _ _) hinp
  have htracks := h.tracks.registerSeed
  have hn := mf.registerSeed_n mf.p.toNat
  have hi := mf.registerSeed_inp mf.p.toNat
  unfold MF.decideOnce
  rw [hp, hseed]
  generalize mf.registerSeed mf.p.toNat = mf1 at htracks hn hi ⊢
  rw [← hn] at htracks
  rw [← hn, ← hi] at hinp
  have hemit := mf1.emit_withMems (inp := inp) (stage := stage) (out := out) cfg mf1.search
  generalize ((mf1.withMems inp stage out).emit cfg mf1.search).stage = stage' at hemit
  have hrun := MF.registerRun_withMems (stage := stage') (out := out) (mf1.consumed mf1.search - 1)
    (by rw [MF.emit_n]; exact htracks.emit cfg mf1.search) (by rw [MF.emit_n, MF.emit_inp]; exact hinp)
  have hconsumed : (mf1.withMems inp stage out).consumed mf1.search = mf1.consumed mf1.search := rfl
  refine ⟨stage', ?_⟩
  simp only [MF.search_withMems hinp, hconsumed, hemit, hrun]
  rfl

end

/-! ### The engine -/

/-- One decision of two matchers that look alike. -/
theorem MF.LooksLike.decideOnce {mf mf' : MF} (h : mf.LooksLike mf') (hmf : mf.Inv cfg) (hmf' : mf'.Inv cfg) :
    (mf.decideOnce cfg).LooksLike (mf'.decideOnce cfg) := by
  have hslen := hmf.toNat_decideOnce_slen
  obtain ⟨inp, stage, out, rfl, hinp, hstage, hout⟩ := MF.looksLike_iff.1 h
  have hdecision := hmf.decision_withMems (stage := stage) (out := out) hinp
  obtain ⟨stage', he'⟩ := hmf.decideOnce_withMems (stage := stage) (out := out) hinp
  have hstage' : stage' = stage.writeBytes mf.slen.toNat mf.decision.payload := by
    obtain ⟨h2, t2, e2, hd2⟩ := MF.decideOnce_eq cfg (mf.withMems inp stage out)
    have := congrArg MF.stage (he'.symm.trans hd2)
    rwa [hdecision] at this
  obtain ⟨h1, t1, e1, hd1⟩ := MF.decideOnce_eq cfg mf
  rw [he', hstage']
  rw [hd1] at hslen ⊢
  refine ⟨rfl, hinp, ?_, hout⟩
  rw [hslen]
  exact hstage.writeBytes hmf.stage_wf hmf'.stage_wf _

/-- Two matchers that look alike and whose `OUT` is in canonical form. -/
structure MF.FlushAlike (mf mf' : MF) : Prop where
  alike : mf.LooksLike mf'
  wf : mf.out.wf
  wf' : mf'.out.wf

/-- A flush writes the same bytes, or overflows in both. -/
theorem MF.FlushAlike.flushGroup {mf mf' : MF} (h : mf.FlushAlike mf') :
    SameOutcome MF.FlushAlike (mf.flushGroup cfg) (mf'.flushGroup cfg) := by
  obtain ⟨h, hw, hw'⟩ := h
  obtain ⟨inp, stage, out, rfl, hinp, hstage, hout⟩ := MF.looksLike_iff.1 h
  have hstaged : stage.bytes 0 mf.slen.toNat = mf.stage.bytes 0 mf.slen.toNat := (hstage.bytes (by omega)).symm
  have holen : (mf.olen + 1 + mf.slen.setWidth 32).toNat ≤
      mf.olen.toNat + (mf.ctrl :: mf.stage.bytes 0 mf.slen.toNat).length := by
    simp only [BitVec.toNat_add, BitVec.ofNat_eq_ofNat, BitVec.toNat_ofNat, BitVec.toNat_setWidth, List.length_cons,
      Memory.length_bytes]
    omega
  unfold MF.flushGroup
  by_cases hfit : cfg.outCap < mf.olen.toNat + 1 + mf.slen.toNat
  · rw [if_pos hfit, if_pos (by exact hfit)]
    exact .error _
  · rw [if_neg hfit, if_neg (by exact hfit)]
    refine .ok ⟨⟨rfl, hinp, fun a ha => absurd ha (Nat.not_lt_zero a), ?_⟩, Memory.wf_writeBytes hw _ _,
      Memory.wf_writeBytes hw' _ _⟩
    change Memory.agreeBelow _ _ (out.writeBytes mf.olen.toNat (mf.ctrl :: stage.bytes 0 mf.slen.toNat))
    rw [hstaged]
    exact (hout.writeBytes hw hw' _).mono holen

theorem MF.FlushAlike.flushFinal {mf mf' : MF} (h : mf.FlushAlike mf') :
    SameOutcome MF.FlushAlike (mf.flushFinal cfg) (mf'.flushFinal cfg) := by
  have hfill : mf'.fill = mf.fill := h.alike.apply_eq MF.fill fun _ _ _ => rfl
  unfold MF.flushFinal
  rw [hfill]
  split
  · exact h.flushGroup
  · exact .ok h

theorem MF.FlushAlike.closeStep {mf mf' : MF} (h : mf.FlushAlike mf') :
    SameOutcome MF.LooksLike (mf.closeStep cfg) (mf'.closeStep cfg) := by
  have hfill : mf'.fill = mf.fill := h.alike.apply_eq MF.fill fun _ _ _ => rfl
  have hfull : SameOutcome MF.FlushAlike
      (if mf.fill.toNat = slotsPerGroup then mf.flushGroup cfg else .ok mf)
      (if mf'.fill.toNat = slotsPerGroup then mf'.flushGroup cfg else .ok mf') := by
    rw [hfill]
    split
    · exact h.flushGroup
    · exact .ok h
  unfold MF.closeStep
  generalize (if mf.fill.toNat = slotsPerGroup then mf.flushGroup cfg else .ok mf) = r,
    (if mf'.fill.toNat = slotsPerGroup then mf'.flushGroup cfg else .ok mf') = r' at hfull
  cases hfull with
  | error c => exact .error c
  | @ok mf1 mf1' h1 =>
    have hp : mf1'.p = mf1.p := h1.alike.apply_eq MF.p fun _ _ _ => rfl
    have hn : mf1'.n = mf1.n := h1.alike.apply_eq MF.n fun _ _ _ => rfl
    have hfinal := h1.flushFinal (cfg := cfg)
    dsimp only
    rw [hp, hn]
    split
    · generalize mf1.flushFinal cfg = q, mf1'.flushFinal cfg = q' at hfinal
      cases hfinal with
      | error c => exact .error c
      | ok h2 => exact .ok (h2.alike.withState .done)
    · exact .ok h1.alike

theorem MF.FlushAlike.cancelStep {mf mf' : MF} (h : mf.FlushAlike mf') :
    SameOutcome MF.LooksLike (mf.cancelStep cfg) (mf'.cancelStep cfg) := by
  have hfinal := h.flushFinal (cfg := cfg)
  unfold MF.cancelStep
  generalize mf.flushFinal cfg = r, mf'.flushFinal cfg = r' at hfinal
  cases hfinal with
  | error c => exact .error c
  | ok h1 => exact .ok (h1.alike.withState .aborted)

theorem MF.decideOnce_out (cfg : Config) (mf : MF) : (mf.decideOnce cfg).out = mf.out := by
  obtain ⟨h', t, e, he⟩ := mf.decideOnce_eq cfg
  rw [he]
  rfl

/-- A step of two matchers that look alike (41_matchfinder.md R181). -/
theorem MF.LooksLike.engineStep {mf mf' : MF} (h : mf.LooksLike mf') {cfg' : Config} (hc : cfg = cfg')
    (hmf : mf.Inv cfg) (hmf' : mf'.Inv cfg') :
    SameOutcome MF.LooksLike (mf.engineStep cfg) (mf'.engineStep cfg') := by
  subst hc
  have hreq : mf'.cancelReq = mf.cancelReq := h.apply_eq MF.cancelReq fun _ _ _ => rfl
  unfold MF.engineStep
  rw [hreq]
  split
  · exact MF.FlushAlike.cancelStep ⟨h, hmf.out_wf, hmf'.out_wf⟩
  · refine MF.FlushAlike.closeStep ⟨h.decideOnce hmf hmf', ?_, ?_⟩
    · rw [MF.decideOnce_out]; exact hmf.out_wf
    · rw [MF.decideOnce_out]; exact hmf'.out_wf

/-! ### The machine -/

section
variable {s t : State}

theorem State.LooksLike.bcAlike (h : s.LooksLike t) : s.bc.LooksLike t.bc := ⟨h.bc, h.buf⟩

theorem State.LooksLike.mfAlike (h : s.LooksLike t) : s.mf.LooksLike t.mf := ⟨h.mf, h.inp, h.stage, h.out⟩

/-- Two states look alike when their units do. -/
theorem State.looksLike_of_units (hcfg : s.cfg = t.cfg) (hport : s.port = t.port) (hsys : s.sys = t.sys)
    (htc : s.tc = t.tc) (hbc : s.bc.LooksLike t.bc) (hmf : s.mf.LooksLike t.mf) : s.LooksLike t :=
  ⟨hcfg, hport, hsys, htc, hbc.regs, hmf.regs, hbc.buf, hmf.inp, hmf.stage, hmf.out⟩

variable (h : s.LooksLike t)
include h

theorem State.LooksLike.withPort (p : Port) : State.LooksLike { s with port := p } { t with port := p } :=
  State.looksLike_of_units h.cfg rfl h.sys h.tc h.bcAlike h.mfAlike

theorem State.LooksLike.withBc {b b' : BC} (hb : b.LooksLike b') :
    State.LooksLike { s with bc := b } { t with bc := b' } :=
  State.looksLike_of_units h.cfg h.port h.sys h.tc hb h.mfAlike

theorem State.LooksLike.withMf {mf mf' : MF} (hmf : mf.LooksLike mf') :
    State.LooksLike { s with mf := mf } { t with mf := mf' } :=
  State.looksLike_of_units h.cfg h.port h.sys h.tc h.bcAlike hmf

theorem State.LooksLike.withTc {tc tc' : TC} (htc : tc = tc') :
    State.LooksLike { s with tc := tc } { t with tc := tc' } :=
  State.looksLike_of_units h.cfg h.port h.sys htc h.bcAlike h.mfAlike

theorem State.LooksLike.respond (rc : Byte) (val : Word) : (s.respond rc val).LooksLike (t.respond rc val) := by
  have := h.withPort { s.port with responses := rspWord rc val :: s.port.responses }
  rwa [State.respond, State.respond, ← h.port]

theorem State.LooksLike.enterFault (c : Cause) : (s.enterFault c).LooksLike (t.enterFault c) :=
  State.looksLike_of_units h.cfg h.port rfl h.tc h.bcAlike h.mfAlike

theorem State.LooksLike.resetBlock : s.resetBlock.LooksLike t.resetBlock :=
  State.looksLike_of_units h.cfg h.port rfl (by rw [State.resetBlock_tc, State.resetBlock_tc, h.cfg])
    (BC.LooksLike.refl _) (MF.LooksLike.refl _)

theorem State.LooksLike.statusWord : t.statusWord = s.statusWord := by
  have hst : t.mf.st = s.mf.st := h.mfAlike.apply_eq MF.st fun _ _ _ => rfl
  have hreq : t.mf.cancelReq = s.mf.cancelReq := h.mfAlike.apply_eq MF.cancelReq fun _ _ _ => rfl
  have hfill : t.mf.fill = s.mf.fill := h.mfAlike.apply_eq MF.fill fun _ _ _ => rfl
  rw [State.statusWord, State.statusWord, hst, hreq, hfill, h.tc, h.sys]

end

/-! ### The commands -/

/-- Two commands that come to the same: the same refusal, the same fault, or the same value in states that look
alike. -/
inductive Reply.Alike : Reply → Reply → Prop
  | done {s t : State} {val val' : Word} (h : s.LooksLike t) (hval : val' = val) :
      Reply.Alike (.done s val) (.done t val')
  | busy : Reply.Alike .busy .busy
  | raise (c : Cause) : Reply.Alike (.raise c) (.raise c)

/-- Two commands whose checks agree. -/
theorem Reply.Alike.ite {c c' : Prop} [Decidable c] [Decidable c'] {r1 r1' r2 r2' : Reply} (hc : c' = c)
    (h1 : c → r1.Alike r1') (h2 : ¬c → r2.Alike r2') :
    Reply.Alike (if c then r1 else r2) (if c' then r1' else r2') := by
  subst hc
  by_cases hc : c'
  · rw [if_pos hc, if_pos hc]; exact h1 hc
  · rw [if_neg hc, if_neg hc]; exact h2 hc

section
variable {s t : State} (h : s.LooksLike t)
include h

theorem State.LooksLike.answer {r r' : Reply} (hr : r.Alike r') : (s.answer r).LooksLike (t.answer r') := by
  cases hr with
  | done hu hval => rw [State.answer_done, State.answer_done, hval]; exact hu.respond _ _
  | busy => exact h.respond _ _
  | raise c => exact (h.enterFault c).respond _ _

theorem State.LooksLike.serve {r r' : Reply} (hr : r.Alike r') : (s.serve r).LooksLike (t.serve r') := by
  cases hf : s.sys.faulted with
  | true =>
    rw [State.serve_faulted hf, State.serve_faulted (h.sys ▸ hf)]
    exact h.respond _ _
  | false =>
    rw [State.serve_unfaulted hf, State.serve_unfaulted (h.sys ▸ hf)]
    exact h.answer hr

theorem State.LooksLike.mf_st : t.mf.st = s.mf.st := h.mfAlike.apply_eq MF.st fun _ _ _ => rfl
theorem State.LooksLike.mf_n : t.mf.n = s.mf.n := h.mfAlike.apply_eq MF.n fun _ _ _ => rfl
theorem State.LooksLike.mf_olen : t.mf.olen = s.mf.olen := h.mfAlike.apply_eq MF.olen fun _ _ _ => rfl

theorem State.LooksLike.unlessRunning {r r' : Reply} (hr : r.Alike r') :
    (s.unlessRunning r).Alike (t.unlessRunning r') :=
  .ite (by rw [h.mf_st]) (fun _ => .busy) fun _ => hr

theorem State.LooksLike.replyRead (n : Nat) : (s.replyRead n).Alike (t.replyRead n) := by
  have hread := h.bcAlike.readBits n
  unfold State.replyRead
  generalize s.bc.readBits n = r, t.bc.readBits n = r' at hread
  cases hread with
  | error c => exact .raise c
  | ok hr =>
    obtain ⟨hv, hbc⟩ := hr
    exact .done (h.withBc hbc) (by rw [hv])

theorem State.LooksLike.replyWrite (hs : s.Inv) (ht : t.Inv) (n : Nat) (value : Word) :
    (s.replyWrite n value).Alike (t.replyWrite n value) := by
  have hwrite := h.bcAlike.writeBits hs.bc.buf_wf ht.bc.buf_wf n value
  unfold State.replyWrite
  generalize s.bc.writeBits n value = r, t.bc.writeBits n value = r' at hwrite
  cases hwrite with
  | error c => exact .raise c
  | ok hbc => exact .done (h.withBc hbc) rfl

/-- The token states of two states that look alike. -/
theorem State.LooksLike.tokenState : TokenState.LooksLike { bc := s.bc, tc := s.tc } { bc := t.bc, tc := t.tc } :=
  ⟨h.bcAlike, h.tc.symm⟩

/-- Every command, with the same response, leaves states that look alike. -/
theorem State.LooksLike.execAlike (hs : s.Inv) (ht : t.Inv) (i : Instr) :
    ∃ s' t', exec i s = .next s' ∧ exec i t = .next t' ∧ s'.LooksLike t' := by
  have served {r r' : Reply} (hes : exec i s = .next (s.serve r)) (het : exec i t = .next (t.serve r'))
      (hr : r.Alike r') : ∃ s' t', exec i s = .next s' ∧ exec i t = .next t' ∧ s'.LooksLike t' :=
    ⟨_, _, hes, het, h.serve hr⟩
  cases i with
  | sysNop => exact ⟨_, _, rfl, rfl, h.answer (.done h rfl)⟩
  | sysReset => exact ⟨_, _, rfl, rfl, h.answer (.done h.resetBlock rfl)⟩
  | sysStatus => exact ⟨_, _, rfl, rfl, h.answer (.done h h.statusWord)⟩
  | bcAlloc len =>
    refine served rfl rfl (.ite (by rw [h.cfg]) (fun _ => .raise _) fun _ => .done (h.withBc ⟨rfl, ?_⟩) rfl)
    intro a ha
    rw [Memory.read_zeroFill hs.bc.buf_wf, Memory.read_zeroFill ht.bc.buf_wf, if_pos ha, if_pos ha]
  | bcSeek offset =>
    refine served rfl rfl (.ite (by rw [h.bcAlike.len]) (fun _ => .raise _) fun _ => .done (h.withBc ?_) rfl)
    obtain ⟨m, hm, hbuf⟩ := BC.looksLike_iff.1 h.bcAlike
    rw [hm]
    exact ⟨rfl, hbuf⟩
  | bcReadBits n => exact served rfl rfl (h.replyRead _)
  | bcWriteBits n value => exact served rfl rfl (h.replyWrite hs ht _ value)
  | bcReadByte => exact served rfl rfl (h.replyRead 8)
  | bcWriteByte value => exact served rfl rfl (h.replyWrite hs ht 8 value)
  | mfClear => exact served rfl rfl (h.unlessRunning (.done (h.withMf h.mfAlike.clear) rfl))
  | mfPut byte =>
    refine served rfl rfl (h.unlessRunning (.ite (by rw [h.mf_st]) (fun _ => .raise _) fun _ =>
      .ite (by rw [h.mf_n, h.cfg]) (fun _ => .raise _) fun _ => .done (h.withMf ?_) rfl))
    exact h.mfAlike.put hs.mf.inp_wf ht.mf.inp_wf byte
  | mfStart => exact served rfl rfl (h.unlessRunning (.done (h.withMf h.mfAlike.start) rfl))
  | mfCancel =>
    refine served rfl rfl (.done ?_ rfl)
    rw [h.mf_st]
    split
    · exact h.withMf h.mfAlike.cancel
    · exact h
  | mfInfo sel =>
    have hinfo : t.mf.info sel = s.mf.info sel := h.mfAlike.apply_eq (MF.info · sel) fun _ _ _ => rfl
    refine served rfl rfl ?_
    rw [hinfo]
    cases s.mf.info sel with
    | some val => exact .done h rfl
    | none => exact .raise _
  | mfGet addr =>
    refine served rfl rfl (h.unlessRunning (.ite (by rw [h.mf_olen]) (fun _ => .raise _) fun haddr => .done h ?_))
    rw [h.out addr.toNat (by omega)]
  | tcInit mode =>
    refine served rfl rfl ?_
    have hinit (md : TcMode) : s.tc.init s.cfg md = t.tc.init t.cfg md := by rw [h.tc, h.cfg]
    split
    · exact .done (h.withTc (hinit _)) rfl
    · exact .done (h.withTc (hinit _)) rfl
    · exact .raise _
  | tcNext =>
    have hnext := h.tokenState.next h.cfg
    refine served rfl rfl ?_
    generalize TokenState.next s.cfg { bc := s.bc, tc := s.tc } = r,
      TokenState.next t.cfg { bc := t.bc, tc := t.tc } = r' at hnext
    cases hnext with
    | error c => exact .raise c
    | ok hr =>
      obtain ⟨hcode, hbc, htc⟩ := hr
      exact .done ((h.withBc hbc).withTc htc.symm) (by rw [hcode])
  | tcPacket k =>
    have htake := h.tokenState.take h.cfg k.toNat
    refine served rfl rfl (.ite rfl (fun _ => .raise _) fun _ => ?_)
    generalize TokenState.take s.cfg { bc := s.bc, tc := s.tc } k.toNat = r,
      TokenState.take t.cfg { bc := t.bc, tc := t.tc } k.toNat = r' at htake
    cases htake with
    | error c => exact .raise c
    | ok hr =>
      obtain ⟨hcodes, hbc, htc⟩ := hr
      exact .done ((h.withBc hbc).withTc (by rw [hcodes, htc, h.cfg])) rfl
  | tcRelease => exact served rfl rfl (.done (h.withTc (by rw [h.tc])) rfl)
  | tcRdPkt idx => exact served rfl rfl (.ite rfl (fun _ => .raise _) fun _ => .done h (by rw [h.tc]))

/-! ### The step -/

theorem State.LooksLike.engineTurn (hs : s.Inv) (ht : t.Inv) {s' : State} (hturn : s.engineTurn = .next s') :
    ∃ t', t.engineTurn = .next t' ∧ s'.LooksLike t' := by
  have hready : t.mf.stepReady = s.mf.stepReady := h.mfAlike.apply_eq MF.stepReady fun _ _ _ => rfl
  have hstep := h.mfAlike.engineStep h.cfg hs.mf ht.mf
  unfold State.engineTurn at hturn ⊢
  rw [hready]
  split at hturn
  · rename_i hr
    rw [if_pos hr]
    generalize s.mf.engineStep s.cfg = r, t.mf.engineStep t.cfg = r' at hstep hturn
    cases hstep with
    | error c => cases hturn; exact ⟨_, rfl, h.enterFault c⟩
    | ok hmf => cases hturn; exact ⟨_, rfl, h.withMf hmf⟩
  · cases hturn

end

section
variable {s t : State}

/-- The host's turn depends on the port alone. -/
theorem State.hostAction_congr (s t : State) (p : Port) :
    State.hostAction { t with port := p } =
      ((State.hostAction { s with port := p }).1,
        { t with port := (State.hostAction { s with port := p }).2.port }) := by
  unfold State.hostAction
  cases p.pending <;> rfl

/-- The engine's turn depends on the port and on whether the engine is enabled. -/
theorem State.engineAction_congr (hen : t.engineEnabled = s.engineEnabled) (p : Port) :
    State.engineAction { t with port := p } =
      ((State.engineAction { s with port := p }).1,
        { t with port := (State.engineAction { s with port := p }).2.port }) := by
  have hs : State.engineEnabled { s with port := p } = s.engineEnabled := rfl
  have ht : State.engineEnabled { t with port := p } = s.engineEnabled := hen
  unfold State.engineAction
  rw [hs, ht]
  split
  · rfl
  · exact State.hostAction_congr s t p

/-- So does the next event. -/
theorem State.nextAction_congr (hport : s.port = t.port) (hen : t.engineEnabled = s.engineEnabled) :
    t.nextAction = (s.nextAction.1, { t with port := s.nextAction.2.port }) := by
  unfold State.nextAction
  rw [← hport, hen]
  split
  · rfl
  · dsimp only
    split
    · exact State.engineAction_congr hen _
    · exact State.hostAction_congr s t _
  · exact State.engineAction_congr hen _
  · split
    · dsimp only
      split
      · exact State.engineAction_congr hen _
      · exact State.hostAction_congr s t _
    · have := State.engineAction_congr (s := s) hen s.port
      rwa [show { t with port := s.port } = t from hport ▸ rfl] at this

/-- Settles O60: the next event is the same, and whatever it is keeps the two states alike. -/
theorem unspecifiedContentsNeverShow : Obligations.UnspecifiedContentsNeverShow := by
  intro s t s' hs ht h hstep
  obtain ⟨_, ⟨p, rfl, -⟩, hcases⟩ := step_cases hstep
  have hen : t.engineEnabled = s.engineEnabled := by
    rw [State.engineEnabled, State.engineEnabled, h.mf_st, h.sys]
  have hnext := State.nextAction_congr h.port hen
  have hu := h.withPort p
  have hsInv := hs.withPort p
  have htInv := ht.withPort p
  rcases hcases with ⟨hact, rfl⟩ | ⟨hact, rfl⟩ | ⟨hact, -, hturn⟩ | ⟨w, i, hact, hdec, hexec⟩ | ⟨w, e, hact, hdec, rfl⟩
  all_goals rw [hact] at hnext
  case inl => exact ⟨_, by rw [step, hnext], hu⟩
  case inr.inl => exact ⟨_, by rw [step, hnext], hu.resetBlock⟩
  case inr.inr.inl =>
    obtain ⟨t', ht', halike⟩ := hu.engineTurn hsInv htInv hturn
    exact ⟨t', by rw [step, hnext]; exact ht', halike⟩
  case inr.inr.inr.inl =>
    obtain ⟨u, t', hus, hut, halike⟩ := hu.execAlike hsInv htInv i
    cases hus.symm.trans hexec
    exact ⟨t', by rw [step, hnext]; simp only [hdec, hut], halike⟩
  case inr.inr.inr.inr =>
    exact ⟨_, by rw [step, hnext]; simp only [hdec]; rfl, hu.serve (.raise _)⟩

end

end Sys2Proof.Machine
end

section
/-! PROOFS. The stream as a function of the decisions (30_encoding.md R101 to R106): one more decision, its bytes
and its group. -/

namespace Sys2Proof.Machine

/-! ### Bytes of a memory -/

/-- A run of bytes written after others: the sequence grows by it. -/
theorem Memory.bytes_writeBytes {m : Memory} (h : m.wf) (a : Nat) (bs : List Byte) :
    (m.writeBytes a bs).bytes 0 (a + bs.length) = m.bytes 0 a ++ bs := by
  rw [Memory.bytes_append]
  congr 1
  · refine Memory.bytes_congr fun x _ hx => ?_
    rw [Memory.read_writeBytes h, if_neg (by omega)]
  · refine List.ext_getElem (Memory.length_bytes ..) fun j hj hj' => ?_
    rw [Memory.getElem_bytes, Memory.read_writeBytes h, if_pos (by omega),
      List.getD_eq_getElem _ _ (by omega)]
    congr 1
    omega

/-- What a sequence of bytes extends, it agrees with. -/
theorem Memory.read_eq_of_bytes_eq_append {m m' : Memory} {n n' : Nat} {bs : List Byte}
    (h : m'.bytes 0 n' = m.bytes 0 n ++ bs) {a : Nat} (ha : a < n) : m'.read a = m.read a := by
  have hlen := congrArg List.length h
  simp only [List.length_append, Memory.length_bytes] at hlen
  have hget := congrArg (fun l => l[a]?) h
  simpa [Memory.bytes, List.getElem?_append_left, ha, show a < n' by omega] using hget

/-- A copy from `dist` bytes back repeats what is there, the overlap too (30_encoding.md R105): where the bytes
from `p - dist` and from `p` on agree, it gives the bytes from `p` on. -/
theorem copyBack_bytes {inp : Memory} {p dist len : Nat} (hpos : 1 ≤ dist) (hle : dist ≤ p)
    (h : agreeFor inp (p - dist) p len) : copyBack dist (inp.bytes 0 p) len = inp.bytes 0 (p + len) := by
  induction len generalizing p with
  | zero => rfl
  | succ len ih =>
    have hhead : (inp.bytes 0 p).getD (p - dist) 0 = inp.read p := by
      rw [List.getD_eq_getElem _ _ (by rw [Memory.length_bytes]; omega), Memory.getElem_bytes, Nat.zero_add]
      exact h 0 (Nat.succ_pos _)
    have hone : inp.bytes 0 p ++ [inp.read p] = inp.bytes 0 (p + 1) := by
      rw [Memory.bytes_append, Nat.zero_add]; rfl
    have hrest : agreeFor inp (p + 1 - dist) (p + 1) len := fun j hj => by
      have := h (j + 1) (by omega)
      rwa [show p - dist + (j + 1) = p + 1 - dist + j by omega,
        show p + (j + 1) = p + 1 + j by omega] at this
    rw [copyBack, Memory.length_bytes, hhead, hone, ih (by omega) hrest]
    congr 1
    omega

/-! ### One more slot -/

theorem expandFrom_concat (out : List Byte) (slots : List Slot) (slot : Slot) :
    expandFrom out (slots ++ [slot]) = slot.apply (expandFrom out slots) := by
  simp [expandFrom]

/-- Validity is that of the first slot, and of the others after what it stands for. -/
theorem slotsValid_cons {n : Nat} {out : List Byte} {slot : Slot} {slots : List Slot} :
    slotsValid n out (slot :: slots) ↔ slotsValid n out [slot] ∧ slotsValid n (slot.apply out) slots := by
  cases slot <;> simp only [slotsValid, and_true]

/-- Validity is that of the slots before, and of the last after what they stand for. -/
theorem slotsValid_concat {n : Nat} {out : List Byte} {slots : List Slot} {slot : Slot} :
    slotsValid n out (slots ++ [slot]) ↔ slotsValid n out slots ∧ slotsValid n (expandFrom out slots) [slot] := by
  induction slots generalizing out with
  | nil => simp [slotsValid, expandFrom]
  | cons x xs ih =>
    rw [List.cons_append, slotsValid_cons, ih, slotsValid_cons (slots := xs), and_assoc]
    rfl

theorem controlFrom_concat (order : CtrlBitOrder) (k : Nat) (slots : List Slot) (slot : Slot) :
    controlFrom order k (slots ++ [slot]) =
      controlFrom order k slots ||| (if slot.flag then 1#8 <<< slotBit order (k + slots.length) else 0) := by
  induction slots generalizing k with
  | nil => simp [controlFrom]
  | cons x xs ih =>
    rw [List.cons_append, controlFrom, controlFrom, ih, BitVec.or_assoc, List.length_cons,
      show k + 1 + xs.length = k + (xs.length + 1) by omega]

@[simp] theorem groupBytes_nil (order : CtrlBitOrder) : groupBytes order [] = [0] := rfl

/-! ### Full groups and the open group -/

section
variable {order : CtrlBitOrder} {slots : List Slot} {slot : Slot}

theorem length_openSlots (slots : List Slot) : (openSlots slots).length = slots.length % 8 := by
  rw [openSlots, List.length_drop]
  simp only [slotsPerGroup]
  omega

/-- A slot that does not fill the open group joins it. -/
theorem openSlots_concat_of_lt (h : (openSlots slots).length + 1 < 8) :
    openSlots (slots ++ [slot]) = openSlots slots ++ [slot] := by
  rw [length_openSlots] at h
  have hdiv : (slots.length + 1) / 8 = slots.length / 8 := by omega
  have hle : 8 * (slots.length / 8) ≤ slots.length := Nat.mul_div_le _ _
  simp only [openSlots, slotsPerGroup, List.length_append, List.length_cons, List.length_nil, Nat.zero_add, hdiv]
  exact List.drop_append_of_le_length hle

/-- A slot that fills the open group closes it. -/
theorem openSlots_concat_of_full (h : (openSlots slots).length + 1 = 8) : openSlots (slots ++ [slot]) = [] := by
  rw [← List.length_eq_zero_iff, length_openSlots]
  rw [length_openSlots] at h
  simp only [List.length_append, List.length_cons, List.length_nil]
  omega

/-- A full group depends on the slots up to its end. -/
theorem groupOf_append {g : Nat} (h : 8 * (g + 1) ≤ slots.length) (more : List Slot) :
    groupOf (slots ++ more) g = groupOf slots g := by
  simp only [groupOf, slotsPerGroup]
  rw [List.drop_append_of_le_length (by omega),
    List.take_append_of_le_length (by rw [List.length_drop]; omega)]

theorem flatMap_groups_concat (order : CtrlBitOrder) (slots : List Slot) (slot : Slot) :
    (List.range (slots.length / 8)).flatMap (fun g => groupBytes order (groupOf (slots ++ [slot]) g)) =
      fullGroups order slots := by
  refine List.flatMap_congr fun g hg => ?_
  rw [List.mem_range] at hg
  rw [groupOf_append (by omega)]

theorem fullGroups_concat_of_lt (h : (openSlots slots).length + 1 < 8) :
    fullGroups order (slots ++ [slot]) = fullGroups order slots := by
  rw [length_openSlots] at h
  have hdiv : (slots ++ [slot]).length / 8 = slots.length / 8 := by
    simp only [List.length_append, List.length_cons, List.length_nil]; omega
  rw [fullGroups, slotsPerGroup, hdiv, flatMap_groups_concat]

theorem fullGroups_concat_of_full (h : (openSlots slots).length + 1 = 8) :
    fullGroups order (slots ++ [slot]) = fullGroups order slots ++ groupBytes order (openSlots slots ++ [slot]) := by
  have hlast : groupOf (slots ++ [slot]) (slots.length / 8) = openSlots slots ++ [slot] := by
    have hle : 8 * (slots.length / 8) ≤ slots.length := Nat.mul_div_le _ _
    simp only [groupOf, openSlots, slotsPerGroup]
    rw [List.drop_append_of_le_length hle, List.take_of_length_le]
    rw [List.length_append]
    exact Nat.le_of_eq h
  rw [length_openSlots] at h
  have hdiv : (slots ++ [slot]).length / 8 = slots.length / 8 + 1 := by
    simp only [List.length_append, List.length_cons, List.length_nil]; omega
  rw [fullGroups, slotsPerGroup, hdiv, List.range_succ, List.flatMap_append, flatMap_groups_concat,
    List.flatMap_singleton, hlast]

/-- The final stream after a slot that fills its group: the group, and an empty one under `FLUSH_EMPTY_GROUP`. -/
theorem finalStream_concat_of_full {cfg : Config} (h : (openSlots slots).length + 1 = 8) :
    finalStream cfg (slots ++ [slot]) =
      fullGroups cfg.ctrlBitOrder slots ++ groupBytes cfg.ctrlBitOrder (openSlots slots ++ [slot]) ++
        if cfg.flushEmptyGroup then [0] else [] := by
  rw [finalStream, fullGroups_concat_of_full h, openSlots_concat_of_full h, groupBytes_nil]
  cases cfg.flushEmptyGroup <;> rfl

/-- The final stream after a slot that does not: the trailing group is the open one with it. -/
theorem finalStream_concat_of_lt {cfg : Config} (h : (openSlots slots).length + 1 < 8) :
    finalStream cfg (slots ++ [slot]) =
      fullGroups cfg.ctrlBitOrder slots ++ groupBytes cfg.ctrlBitOrder (openSlots slots ++ [slot]) := by
  rw [finalStream, fullGroups_concat_of_lt h, openSlots_concat_of_lt h, if_neg (by simp)]

end

end Sys2Proof.Machine
end

section
/-! PROOFS. What every step keeps of the output stream (41_matchfinder.md R176 to R183; 20_memory.md R77): the decision
of a step stands for the input it consumes, and a flush appends the group it closes. -/

namespace Sys2Proof.Machine

variable {cfg : Config} {mf mf' : MF}

/-! ### The decision -/

/-- A match found is of the input before P, within the window (41_matchfinder.md R171, R172). -/
theorem MF.search_agrees (h : 0 < mf.search.len) :
    1 ≤ mf.search.dist ∧ mf.search.dist ≤ 65535 ∧ mf.search.dist ≤ mf.p.toNat ∧
      agreeFor mf.inp (mf.p.toNat - mf.search.dist) mf.p.toNat mf.search.len := by
  rw [MF.search] at h ⊢
  split at h
  · rename_i hseed
    rw [if_pos hseed]
    rcases searchBucket_cases mf.inp mf.n.toNat mf.p.toNat
      (mf.table.bucket (hashAt mf.inp mf.p.toNat).toNat) with he | ⟨c, -, hlt, hfar, he⟩
    · rw [he] at h; exact absurd h (Nat.lt_irrefl 0)
    · rw [he]
      refine ⟨Nat.sub_pos_of_lt hlt, hfar, Nat.sub_le _ _, fun j hj => ?_⟩
      rw [Nat.sub_sub_self (Nat.le_of_lt hlt)]
      exact equalRun_agree _ _ _ _ j hj
  · exact absurd h (Nat.lt_irrefl 0)

/-- A decision is a slot the stream may hold after `IN[0..P)`, and stands for the input it consumes. -/
theorem MF.decision_spec (hp : mf.p.toNat < mf.n.toNat) :
    slotsValid mf.n.toNat mf.covered [mf.decision] ∧
      mf.decision.apply mf.covered = mf.inp.bytes 0 (mf.p.toNat + mf.decision.size) := by
  rcases mf.decision_cases with ⟨m, hm, hd, hlen, hmax, hleft⟩ | ⟨-, hd⟩ <;> rw [hd]
  · have hagree := (mf.registerSeed mf.p.toNat).search_agrees (by rw [← hm]; omega)
    rw [← hm, MF.registerSeed_p, MF.registerSeed_inp] at hagree
    obtain ⟨hpos, hfar, hle, hagree⟩ := hagree
    refine ⟨?_, copyBack_bytes hpos hle hagree⟩
    simp only [slotsValid, MF.covered, Memory.length_bytes, maxDist, minMatch, maxLen, and_true]
    omega
  · refine ⟨?_, ?_⟩
    · simp only [slotsValid, MF.covered, Memory.length_bytes, litMax, and_true]
      exact hp
    · rw [Slot.apply, MF.covered, Slot.size_literal, Memory.length_bytes, Memory.bytes_append, Nat.zero_add]

/-! ### One decision -/

theorem MF.decideOnce_inp (cfg : Config) (mf : MF) : (mf.decideOnce cfg).inp = mf.inp := by
  obtain ⟨h, t, e, he⟩ := mf.decideOnce_eq cfg
  rw [he]
  rfl

theorem MF.decideOnce_ctrl (cfg : Config) (mf : MF) : (mf.decideOnce cfg).ctrl = mf.ctrlWith cfg mf.decision := by
  obtain ⟨h, t, e, he⟩ := mf.decideOnce_eq cfg
  rw [he]

/-- A decision is staged, not written out. -/
theorem MF.decideOnce_stream (cfg : Config) (mf : MF) : (mf.decideOnce cfg).stream = mf.stream := by
  obtain ⟨h, t, e, he⟩ := mf.decideOnce_eq cfg
  rw [he]
  rfl

theorem MF.Inv.decideOnce_staged (h : mf.Inv cfg) :
    (mf.decideOnce cfg).staged = mf.staged ++ mf.decision.payload := by
  have hslen := h.toNat_decideOnce_slen
  obtain ⟨h', t, e, he⟩ := mf.decideOnce_eq cfg
  rw [MF.staged, hslen, he]
  exact Memory.bytes_writeBytes h.stage_wf _ _

/-! ### Flushes -/

/-- A flush appends the open group to the stream and opens an empty one (41_matchfinder.md R178). -/
theorem MF.StepInv.flushGroup_stream (hcfg : cfg.wf) (h : mf.StepInv cfg) (hf : mf.flushGroup cfg = .ok mf') :
    (∃ out olen, mf' = { mf with out := out, olen := olen, ctrl := 0, fill := 0, slen := 0 }) ∧
      mf'.stream = mf.stream ++ (mf.ctrl :: mf.staged) := by
  obtain ⟨hfit, rfl⟩ := MF.flushGroup_eq_ok.1 hf
  obtain ⟨-, ⟨-, hcap⟩, -⟩ := hcfg
  have hslen := mf.slen.isLt
  have holen : (mf.olen + 1 + mf.slen.setWidth 32).toNat =
      mf.olen.toNat + (mf.ctrl :: mf.stage.bytes 0 mf.slen.toNat).length := by
    simp only [BitVec.toNat_add, BitVec.ofNat_eq_ofNat, BitVec.toNat_ofNat, BitVec.toNat_setWidth,
      List.length_cons, Memory.length_bytes]
    omega
  refine ⟨⟨_, _, rfl⟩, ?_⟩
  rw [MF.stream, holen]
  exact Memory.bytes_writeBytes h.out_wf _ _

/-- The final flush is a flush of the open group, or leaves an empty group out (41_matchfinder.md R179). -/
theorem MF.StepInv.flushFinal_stream (hcfg : cfg.wf) (h : mf.StepInv cfg) (hf : mf.flushFinal cfg = .ok mf') :
    ((0 < mf.fill.toNat ∨ cfg.flushEmptyGroup = true) ∧
      (∃ out olen, mf' = { mf with out := out, olen := olen, ctrl := 0, fill := 0, slen := 0 }) ∧
      mf'.stream = mf.stream ++ (mf.ctrl :: mf.staged)) ∨
    (mf.fill.toNat = 0 ∧ cfg.flushEmptyGroup = false ∧ mf' = mf) := by
  rcases mf.flushFinal_cases cfg with ⟨he, hdue⟩ | ⟨he, hfill, hempty⟩
  · exact .inl ⟨hdue, h.flushGroup_stream hcfg (he ▸ hf)⟩
  · rw [he] at hf
    cases hf
    exact .inr ⟨hfill, hempty, rfl⟩

/-! ### The end of a step -/

/-- The end of a step with a slot in the open group: nothing, or the flush of the group that is full or the last,
and after one that is both the empty group (41_matchfinder.md R181). -/
theorem MF.StepInv.closeStep_cases (hcfg : cfg.wf) (h : mf.StepInv cfg) (hfill : 0 < mf.fill.toNat)
    (hc : mf.closeStep cfg = .ok mf') :
    (mf.fill.toNat ≠ 8 ∧ mf.p ≠ mf.n ∧ mf' = mf) ∨
    ((mf.fill.toNat = 8 ∨ mf.p = mf.n) ∧
      (∃ out olen, mf' = { mf with
        out := out, olen := olen, ctrl := 0, fill := 0, slen := 0, st := if mf.p = mf.n then .done else mf.st }) ∧
      mf'.stream = mf.stream ++ (mf.ctrl :: mf.staged) ++
        if mf.fill.toNat = 8 ∧ mf.p = mf.n ∧ cfg.flushEmptyGroup = true then [0] else []) := by
  obtain ⟨mf1, h1, hclose⟩ := MF.closeStep_eq_ok hc
  by_cases hfull : mf.fill.toNat = 8
  · rw [if_pos hfull] at h1
    have hinv1 := h.flushGroup hcfg h1
    obtain ⟨⟨out, olen, rfl⟩, hstream1⟩ := h.flushGroup_stream hcfg h1
    refine .inr ⟨.inl hfull, ?_⟩
    rcases hclose with ⟨hp, rfl⟩ | ⟨hp, mf2, h2, rfl⟩
    · replace hp : mf.p ≠ mf.n := hp
      refine ⟨⟨out, olen, by rw [if_neg hp]⟩, ?_⟩
      rw [if_neg (fun h => hp h.2.1), List.append_nil]
      exact hstream1
    · replace hp : mf.p = mf.n := hp
      rcases hinv1.flushFinal_stream hcfg h2 with ⟨hdue, ⟨out2, olen2, rfl⟩, hstream2⟩ | ⟨-, hempty, rfl⟩
      · have hempty : cfg.flushEmptyGroup = true := hdue.resolve_left (Nat.lt_irrefl 0)
        refine ⟨⟨out2, olen2, by rw [if_pos hp]⟩, ?_⟩
        rw [if_pos ⟨hfull, hp, hempty⟩, ← hstream1]
        exact hstream2
      · refine ⟨⟨out, olen, by rw [if_pos hp]⟩, ?_⟩
        rw [if_neg (by simp [hempty]), List.append_nil]
        exact hstream1
  · rw [if_neg hfull] at h1
    cases h1
    rcases hclose with ⟨hp, rfl⟩ | ⟨hp, mf2, h2, rfl⟩
    · exact .inl ⟨hfull, hp, rfl⟩
    · refine .inr ⟨.inr hp, ?_⟩
      rcases h.flushFinal_stream hcfg h2 with ⟨-, ⟨out, olen, rfl⟩, hstream⟩ | ⟨hzero, -⟩
      · refine ⟨⟨out, olen, by rw [if_pos hp]⟩, ?_⟩
        rw [if_neg (fun h => hfull h.1), List.append_nil]
        exact hstream
      · omega

/-- A step that takes a decision, in terms of the state before it: the decision is staged, and the group with it
is flushed when it is the eighth or the last. -/
theorem MF.Inv.decide_cases (hcfg : cfg.wf) (h : mf.Inv cfg) (hp : mf.p.toNat < mf.n.toNat)
    (hc : (mf.decideOnce cfg).closeStep cfg = .ok mf') :
    (mf.fillsGroup = false ∧ mf.reachesEnd = false ∧ mf' = mf.decideOnce cfg) ∨
    ((mf.fillsGroup || mf.reachesEnd) = true ∧
      (∃ out olen, mf' = { mf.decideOnce cfg with
        out := out, olen := olen, ctrl := 0, fill := 0, slen := 0
        st := if mf.reachesEnd then .done else mf.st }) ∧
      mf'.stream = mf.stream ++ (mf.ctrlWith cfg mf.decision :: (mf.staged ++ mf.decision.payload)) ++
        if mf.fillsGroup && mf.reachesEnd && cfg.flushEmptyGroup then [0] else []) := by
  have hfill := h.toNat_decideOnce_fill
  have hend : (mf.decideOnce cfg).p = (mf.decideOnce cfg).n ↔ mf.reachesEnd = true := by
    rw [← BitVec.toNat_inj, h.toNat_decideOnce_p, MF.decideOnce_n, MF.reachesEnd, decide_eq_true_iff]
  have hfull : (mf.decideOnce cfg).fill.toNat = 8 ↔ mf.fillsGroup = true := by
    rw [hfill, MF.fillsGroup, decide_eq_true_iff]
  have hcases := (h.decideOnce hp).closeStep_cases hcfg (by omega) hc
  simp only [ne_eq, hend, hfull, MF.decideOnce_ctrl, MF.decideOnce_stream, MF.decideOnce_st, h.decideOnce_staged]
    at hcases
  simpa only [Bool.not_eq_true, Bool.or_eq_true, Bool.and_eq_true, and_assoc] using hcases

/-- A step of a running compression appends `stepOutput` to the stream (41_matchfinder.md R178, R179, R181). -/
theorem MF.Inv.stream_engineStep (hcfg : cfg.wf) (h : mf.Inv cfg) (hst : mf.st = .running)
    (hs : mf.engineStep cfg = .ok mf') : mf'.stream = mf.stream ++ mf.stepOutput cfg := by
  rcases MF.engineStep_eq_ok hs with ⟨hreq, hc⟩ | ⟨hreq, hc⟩
  · obtain ⟨mf1, h1, rfl⟩ := MF.cancelStep_eq_ok hc
    rw [MF.stepOutput, if_pos hreq]
    rcases h.stepInv.flushFinal_stream hcfg h1 with ⟨hdue, -, hstream⟩ | ⟨hzero, hempty, rfl⟩
    · rw [if_pos hdue]
      exact hstream
    · rw [if_neg (by simp [hzero, hempty]), List.append_nil]
      rfl
  · rw [MF.stepOutput, if_neg (by simp [hreq])]
    rcases h.decide_cases hcfg (h.running_p_lt hst) hc with ⟨hfull, hend, rfl⟩ | ⟨hdue, -, hstream⟩
    · simp [hfull, hend, MF.decideOnce_stream]
    · rw [if_pos hdue, hstream, List.append_assoc]

/-! ### The decisions emitted -/

section
variable {slots : List Slot}

/-- After `MF.START` nothing has been emitted. -/
theorem MF.emitted_start (cfg : Config) (mf : MF) (st : MfState) (hst : st ≠ .done ∧ st ≠ .aborted) :
    MF.Emitted cfg { mf.clearRun with st := st } [] where
  valid := trivial
  count := rfl
  covers := rfl
  running_out _ := rfl
  running_fill _ := rfl
  running_ctrl _ := rfl
  running_stage _ := rfl
  ended_out h := absurd h (not_or.2 hst)

/-- The request bit says nothing of what has been emitted. -/
theorem MF.Emitted.cancel (h : mf.Emitted cfg slots) : MF.Emitted cfg { mf with cancelReq := true } slots :=
  { h with }

/-- The open group's registers and the group they hold. -/
theorem MF.Emitted.group_eq (h : mf.Emitted cfg slots) (hst : mf.st = .running) :
    mf.ctrl :: mf.staged = groupBytes cfg.ctrlBitOrder (openSlots slots) := by
  rw [groupBytes, ← h.running_ctrl hst, ← h.running_stage hst]
  rfl

theorem MF.Emitted.ctrlWith_eq (h : mf.Emitted cfg slots) (hst : mf.st = .running) (slot : Slot) :
    mf.ctrlWith cfg slot = controlFrom cfg.ctrlBitOrder 0 (openSlots slots ++ [slot]) := by
  rw [MF.ctrlWith, controlFrom_concat, h.running_ctrl hst, h.running_fill hst, Nat.zero_add]

theorem MF.Emitted.staged_append_eq (h : mf.Emitted cfg slots) (hst : mf.st = .running) (slot : Slot) :
    mf.staged ++ slot.payload = (openSlots slots ++ [slot]).flatMap Slot.payload := by
  rw [List.flatMap_append, List.flatMap_singleton, ← h.running_stage hst]
  rfl

/-- A cancelled run ends with the stream of the decisions made (41_matchfinder.md R183). -/
theorem MF.Emitted.cancelStep (hcfg : cfg.wf) (hmf : mf.Inv cfg) (hst : mf.st = .running)
    (h : mf.Emitted cfg slots) (hc : mf.cancelStep cfg = .ok mf') :
    mf'.tokens = mf.tokens ∧ mf'.Emitted cfg slots := by
  obtain ⟨mf1, h1, rfl⟩ := MF.cancelStep_eq_ok hc
  have hfill := h.running_fill hst
  have ended (hstream : mf1.stream = finalStream cfg slots) (hvalid : slotsValid mf1.n.toNat [] slots)
      (hcount : slots.length = mf1.tokens.toNat) (hcovers : expandFrom [] slots = mf1.covered) :
      MF.Emitted cfg { mf1 with st := .aborted } slots :=
    { valid := hvalid, count := hcount, covers := hcovers
      running_out := nofun, running_fill := nofun, running_ctrl := nofun, running_stage := nofun
      ended_out := fun _ => hstream }
  rcases hmf.stepInv.flushFinal_stream hcfg h1 with ⟨hdue, ⟨out, olen, rfl⟩, hstream⟩ | ⟨hzero, hempty, rfl⟩
  · refine ⟨rfl, ended ?_ h.valid h.count h.covers⟩
    have hne : ¬(openSlots slots = [] ∧ cfg.flushEmptyGroup = false) := by
      rw [← List.length_eq_zero_iff, ← hfill]
      rintro ⟨h0, hf⟩
      simp [h0, hf] at hdue
    rw [hstream, h.running_out hst, h.group_eq hst, finalStream, if_neg hne]
  · refine ⟨rfl, ended ?_ h.valid h.count h.covers⟩
    have hopen : openSlots slots = [] := List.length_eq_zero_iff.1 (hfill ▸ hzero)
    rw [h.running_out hst, finalStream, if_pos ⟨hopen, hempty⟩, List.append_nil]

/-- A step that takes a decision adds it to those emitted (41_matchfinder.md R181). -/
theorem MF.Emitted.decide (hcfg : cfg.wf) (hmf : mf.Inv cfg) (hst : mf.st = .running)
    (h : mf.Emitted cfg slots) (hc : (mf.decideOnce cfg).closeStep cfg = .ok mf') :
    mf'.tokens.toNat = mf.tokens.toNat + 1 ∧ mf'.Emitted cfg (slots ++ [mf.decision]) := by
  have hp := hmf.running_p_lt hst
  obtain ⟨hslot, happly⟩ := MF.decision_spec hp
  have htokens := hmf.toNat_decideOnce_tokens hp
  have hvalid : slotsValid (mf.decideOnce cfg).n.toNat [] (slots ++ [mf.decision]) := by
    rw [MF.decideOnce_n, slotsValid_concat, h.covers]
    exact ⟨h.valid, hslot⟩
  have hcount : (slots ++ [mf.decision]).length = (mf.decideOnce cfg).tokens.toNat := by
    rw [htokens, ← h.count, List.length_append, List.length_singleton]
  have hcovers : expandFrom [] (slots ++ [mf.decision]) = (mf.decideOnce cfg).covered := by
    rw [expandFrom_concat, h.covers, happly, MF.covered, MF.decideOnce_inp, hmf.toNat_decideOnce_p]
  have hctrl := h.ctrlWith_eq hst mf.decision
  have hstaged := h.staged_append_eq hst mf.decision
  have hout := h.running_out hst
  have hfill := h.running_fill hst
  have hfull : mf.fillsGroup = true ↔ (openSlots slots).length + 1 = 8 := by
    rw [MF.fillsGroup, decide_eq_true_iff, hfill]
  have hlt : mf.fillsGroup = false → (openSlots slots).length + 1 < 8 := fun hf => by
    have := hmf.fill_lt
    rw [← Bool.not_eq_true, hfull] at hf
    simp only [slotsPerGroup] at this
    omega
  rcases hmf.decide_cases hcfg hp hc with ⟨hf, -, rfl⟩ | ⟨hdue, ⟨out, olen, hmf'⟩, hstream⟩
  · refine ⟨htokens, ?_⟩
    have hopen := openSlots_concat_of_lt (slot := mf.decision) (hlt hf)
    exact
      { valid := hvalid, count := hcount, covers := hcovers
        running_out := fun _ => by rw [MF.decideOnce_stream, hout, fullGroups_concat_of_lt (hlt hf)]
        running_fill := fun _ => by
          rw [hmf.toNat_decideOnce_fill, hopen, hfill, List.length_append, List.length_singleton]
        running_ctrl := fun _ => by rw [MF.decideOnce_ctrl, hopen, hctrl]
        running_stage := fun _ => by rw [hopen, ← hstaged]; exact hmf.decideOnce_staged
        ended_out := fun he => by simp [MF.decideOnce_st, hst] at he }
  · have hgroup : mf.ctrlWith cfg mf.decision :: (mf.staged ++ mf.decision.payload) =
        groupBytes cfg.ctrlBitOrder (openSlots slots ++ [mf.decision]) := by
      rw [hctrl, hstaged, groupBytes]
    rw [hout, hgroup] at hstream
    by_cases hend : mf.reachesEnd = true
    · rw [if_pos hend] at hmf'
      have hfinal : mf'.stream = finalStream cfg (slots ++ [mf.decision]) := by
        rw [hstream]
        by_cases hf : mf.fillsGroup = true
        · simp [finalStream_concat_of_full (hfull.1 hf), hf, hend]
        · rw [Bool.not_eq_true] at hf
          simp [finalStream_concat_of_lt (hlt hf), hf]
      rw [hmf'] at hfinal ⊢
      exact ⟨htokens,
        { valid := hvalid, count := hcount, covers := hcovers
          running_out := nofun, running_fill := nofun, running_ctrl := nofun, running_stage := nofun
          ended_out := fun _ => hfinal }⟩
    · have hf : mf.fillsGroup = true := by simpa [hend] using hdue
      have hopen := openSlots_concat_of_full (slot := mf.decision) (hfull.1 hf)
      rw [if_neg (by simp [hend]), List.append_nil, ← fullGroups_concat_of_full (hfull.1 hf)] at hstream
      rw [if_neg hend] at hmf'
      rw [hmf'] at hstream ⊢
      exact ⟨htokens,
        { valid := hvalid, count := hcount, covers := hcovers
          running_out := fun _ => hstream
          running_fill := fun _ => by rw [hopen]; rfl
          running_ctrl := fun _ => by rw [hopen]; rfl
          running_stage := fun _ => by rw [hopen]; rfl
          ended_out := fun he => by simp [hst] at he }⟩

/-- An engine step keeps the decisions made, and adds the one it takes. -/
theorem MF.Emitted.engineStep (hcfg : cfg.wf) (hmf : mf.Inv cfg) (hst : mf.st = .running)
    (h : mf.Emitted cfg slots) (hs : mf.engineStep cfg = .ok mf') :
    (mf'.tokens = mf.tokens ∧ mf'.Emitted cfg slots) ∨
      (mf'.tokens.toNat = mf.tokens.toNat + 1 ∧ mf'.Emitted cfg (slots ++ [mf.decision])) := by
  rcases MF.engineStep_eq_ok hs with ⟨-, hc⟩ | ⟨-, hc⟩
  · exact .inl (h.cancelStep hcfg hmf hst hc)
  · exact .inr (h.decide hcfg hmf hst hc)

end

/-! ### The machine -/

section
variable {s t u : State}

/-- Everything a command can do to the matcher, as far as the output stream is concerned: nothing, leave it idle,
start a compression, or set the request bit. -/
theorem State.Effect.mf_cases (h : s.Effect u) :
    u.mf = s.mf ∨ u.mf.st = .idle ∨
    (s.mf.st ≠ .running ∧ u.mf = { s.mf.clearRun with st := if s.mf.n = 0 then .noData else .running }) ∨
    (s.mf.st = .running ∧ u.mf = { s.mf with cancelReq := true }) := by
  cases h with
  | reset => exact .inr (.inl rfl)
  | clear => exact .inr (.inl rfl)
  | put byte hst => exact .inr (.inl hst)
  | start hst => exact .inr (.inr (.inl ⟨hst, rfl⟩))
  | cancel hst => exact .inr (.inr (.inr ⟨hst, rfl⟩))
  | _ => exact .inl rfl

/-- Every effect of a command keeps what the output stream means. -/
theorem State.StreamInv.effect (hs : s.StreamInv) (h : s.Effect u) : u.StreamInv := by
  intro hu
  rw [h.cfg]
  rcases h.mf_cases with hmf | hidle | ⟨-, hmf⟩ | ⟨hst, hmf⟩
  · rw [hmf] at hu ⊢
    exact hs hu
  · simp [hidle] at hu
  · rw [hmf]
    exact ⟨[], MF.emitted_start _ _ _ (by split <;> simp)⟩
  · rw [hmf]
    obtain ⟨slots, hslots⟩ := hs (.inl hst)
    exact ⟨slots, hslots.cancel⟩

/-- Everything a step leaves but for the port: an effect of a command, or in the engine's turn the step of a running
engine. -/
theorem step_effect_or_engine (h : step s = .next t) :
    ∃ u p, t = { u with port := p } ∧
      (s.Effect u ∨ s.nextAction.1 = .engine ∧ s.mf.st = .running ∧
        ∃ mf', s.mf.engineStep s.cfg = .ok mf' ∧ u = { s with mf := mf' }) := by
  obtain ⟨_, ⟨p, rfl, -⟩, hcases⟩ := step_cases h
  rcases hcases with ⟨-, rfl⟩ | ⟨-, rfl⟩ | ⟨hact, -⟩ | ⟨w, i, -, -, hexec⟩ | ⟨w, e, -, -, rfl⟩
  case inl => exact ⟨s, p, rfl, .inl .nothing⟩
  case inr.inl => exact ⟨_, p, rfl, .inl .reset⟩
  case inr.inr.inl =>
    obtain ⟨u, p, ht, hu | ⟨hen, hmf⟩⟩ := step_effect h
    · exact ⟨u, p, ht, .inl hu⟩
    · exact ⟨u, p, ht, .inr ⟨by rw [hact], (State.engineEnabled_iff.1 hen).1, hmf⟩⟩
  case inr.inr.inr.inl =>
    obtain ⟨u, rc, val, hu, he⟩ := exec_effect i { s with port := p }
    rw [he] at hexec; cases hexec
    obtain ⟨v, hv, rfl⟩ := hu.of_withPort
    exact ⟨v, _, rfl, .inl hv⟩
  case inr.inr.inr.inr =>
    obtain ⟨u, rc, val, hu, he⟩ :=
      State.serve_effect (s := { s with port := p }) (r := .raise .illegalCmd) trivial
    rw [State.illegalWord, he]
    obtain ⟨v, hv, rfl⟩ := hu.of_withPort
    exact ⟨v, _, rfl, .inl hv⟩

/-- Settles O55: a command leaves a running compression alone but for the request bit; an engine step adds its
decision and appends what it flushes. -/
theorem stepKeepsStreamInvariant : Obligations.StepKeepsStreamInvariant := by
  intro s t hs hstream hstep
  obtain ⟨u, p, rfl, hu | ⟨hact, hst, mf', hmf, rfl⟩⟩ := step_effect_or_engine hstep
  · have hstreamInv := hstream.effect hu
    refine ⟨hstreamInv, fun hst hidle => ?_⟩
    dsimp only at hidle ⊢
    rw [hu.cfg]
    rcases hu.mf_cases with hmf | hmf | ⟨hne, -⟩ | ⟨-, hmf⟩
    · rw [hmf]
      exact ⟨fun slots h => .inl ⟨rfl, h⟩, fun _ _ => rfl, .inl ⟨rfl, rfl⟩⟩
    · exact absurd hmf hidle
    · exact absurd hst hne
    · rw [hmf]
      exact ⟨fun slots h => .inl ⟨rfl, h.cancel⟩, fun _ _ => rfl, .inl ⟨rfl, rfl⟩⟩
  · have happend := hs.mf.stream_engineStep hs.cfg_wf hst hmf
    refine ⟨fun _ => ?_, fun _ _ => ⟨fun slots h => h.engineStep hs.cfg_wf hs.mf hst hmf, fun a ha => ?_,
      .inr ⟨hact, happend⟩⟩⟩
    · obtain ⟨slots, hslots⟩ := hstream (.inl hst)
      rcases hslots.engineStep hs.cfg_wf hs.mf hst hmf with ⟨-, h⟩ | ⟨-, h⟩
      · exact ⟨_, h⟩
      · exact ⟨_, h⟩
    · exact Memory.read_eq_of_bytes_eq_append happend ha

end

end Sys2Proof.Machine
end

section
/-! PROOFS. `BC.WRITEBITS` and `BC.WRITEBYTE` (40_bitcursor.md R136, R138; 20_memory.md R69): the bits a write puts
into the buffer, and those it leaves. -/

namespace Sys2Proof.Machine

/-- The bits a write leaves: those of the value where it writes, first bit most significant, and elsewhere those that
were there. -/
theorem Memory.getLsbD_scatter {m : Memory} (h : m.wf) (value : Word) (k n j : Nat) :
    ((m.scatter value k n).read (j / 8)).getLsbD (7 - j % 8) =
      if k ≤ j ∧ j < k + n then value.getLsbD (n - 1 - (j - k)) else (m.read (j / 8)).getLsbD (7 - j % 8) := by
  induction n generalizing m k with
  | zero => rw [Memory.scatter, if_neg (by omega)]
  | succ n ih =>
    rw [Memory.scatter, ih (Memory.wf_writeBit h _ _), Memory.getLsbD_writeBit h]
    by_cases hfirst : j = k
    · subst hfirst
      rw [if_neg (by omega), if_pos rfl, if_pos (by omega)]
      congr 1
      omega
    · rw [if_neg hfirst]
      by_cases hin : k + 1 ≤ j ∧ j < k + 1 + n
      · rw [if_pos hin, if_pos (by omega)]
        congr 1
        omega
      · rw [if_neg hin, if_neg (by omega)]

/-- A byte none of whose bits is written stays. -/
theorem Memory.read_scatter_of_outside {m : Memory} (h : m.wf) (value : Word) {k n a : Nat}
    (ha : 8 * (a + 1) ≤ k ∨ k + n ≤ 8 * a) : (m.scatter value k n).read a = m.read a := by
  induction n generalizing m k with
  | zero => rfl
  | succ n ih =>
    rw [Memory.scatter, ih (Memory.wf_writeBit h _ _) (by omega), Memory.read_writeBit h, if_neg (by omega)]

/-- A bit of the buffer after a write that ends inside it. -/
theorem BC.bit_scatter {b : BC} (h : b.buf.wf) (value : Word) {n : Nat}
    (hend : b.pos.toNat + n ≤ 8 * b.len.toNat) (k : Nat) :
    BC.bit { b with buf := b.buf.scatter value b.pos.toNat n } k =
      if b.pos.toNat ≤ k ∧ k < b.pos.toNat + n then value.getLsbD (n - 1 - (k - b.pos.toNat)) else b.bit k := by
  unfold BC.bit
  dsimp only
  rw [Memory.getLsbD_scatter h]
  by_cases hk : k < 8 * b.len.toNat
  · rw [if_pos hk, if_pos hk]
  · rw [if_neg hk, if_neg hk, if_neg (by omega)]

/-- The bits of the buffer do not depend on the cursor. -/
@[simp] theorem BC.bit_advance (b : BC) (n k : Nat) : (b.advance n).bit k = b.bit k := rfl

/-- Both write commands are the same write (40_bitcursor.md R138). -/
theorem exec_write {i : Instr} {n : Nat} {value : Word}
    (hi : (∃ a, i = .bcWriteBits a value ∧ a.toNat = n) ∨ (i = .bcWriteByte value ∧ n = 8)) (s : State) :
    exec i s = .next (s.serve (s.replyWrite n value)) := by
  rcases hi with ⟨a, rfl, rfl⟩ | ⟨rfl, rfl⟩ <;> rfl

/-- Settles O13: the write passes its checks, and its bits are those of `BC.bit_scatter`. -/
theorem bcWriteResult : Obligations.BcWriteResult := by
  intro s i n value hi hw hf hpos hmax hend hover
  have hwrite : s.bc.writeBits n value =
      .ok ({ s.bc with buf := s.bc.buf.scatter value s.bc.pos.toNat n }.advance n) :=
    BC.writeBits_eq_ok.2 ⟨BC.check_eq_none.2 ⟨hpos, hmax, hover⟩, hend, rfl⟩
  refine ⟨_, exec_write hi s, ?_⟩
  rw [State.serve_unfaulted hf, State.replyWrite, hwrite]
  refine ⟨fun j hj => ?_, fun k hk => ?_, fun a ha => ?_, ?_, rfl, rfl, rfl, rfl, rfl, rfl⟩
  · rw [State.answer_done, State.respond_bc, BC.bit_advance, BC.bit_scatter hw value hend, if_pos (by omega),
      Nat.add_sub_cancel_left]
  · rw [State.answer_done, State.respond_bc, BC.bit_advance, BC.bit_scatter hw value hend, if_neg (by omega)]
  · exact Memory.read_scatter_of_outside hw value ha
  · exact BC.toNat_pos_advance hover

end Sys2Proof.Machine
end

section
/-! PROOFS. Ownership of the matcher (20_memory.md R75, R76): the commands of `BC` and `TC` neither read nor write it,
and while a compression runs no other command but a reset writes more of it than the request bit. -/

namespace Sys2Proof.Machine

/-! ### Commands that do not touch the matcher -/

/-- The same reply with another matcher. -/
def Reply.withMf (mf : MF) : Reply → Reply
  | .done t val => .done { t with mf := mf } val
  | .busy => .busy
  | .raise c => .raise c

theorem State.serve_withMf (s : State) (mf : MF) (r : Reply) :
    State.serve { s with mf := mf } (r.withMf mf) = { s.serve r with mf := mf } := by
  cases hf : s.sys.faulted with
  | true => rw [State.serve_faulted hf, State.serve_faulted (s := { s with mf := mf }) hf]; rfl
  | false =>
    rw [State.serve_unfaulted hf, State.serve_unfaulted (s := { s with mf := mf }) hf]
    cases r <;> rfl

theorem State.replyRead_withMf (s : State) (mf : MF) (n : Nat) :
    State.replyRead { s with mf := mf } n = (s.replyRead n).withMf mf := by
  unfold State.replyRead
  dsimp only
  cases s.bc.readBits n <;> rfl

theorem State.replyWrite_withMf (s : State) (mf : MF) (n : Nat) (value : Word) :
    State.replyWrite { s with mf := mf } n value = (s.replyWrite n value).withMf mf := by
  unfold State.replyWrite
  dsimp only
  cases s.bc.writeBits n value <;> rfl

/-- A command of `BC` or `TC` does the same whatever the matcher holds, and leaves it alone. -/
theorem exec_withMf {i : Instr} (hi : i.cursorOrToken = true) (s : State) (mf : MF) :
    ∃ t, exec i s = .next t ∧ exec i { s with mf := mf } = .next { t with mf := mf } := by
  have served {r r' : Reply} (he : exec i s = .next (s.serve r))
      (he' : exec i { s with mf := mf } = .next (State.serve { s with mf := mf } r')) (hr : r' = r.withMf mf) :
      ∃ t, exec i s = .next t ∧ exec i { s with mf := mf } = .next { t with mf := mf } :=
    ⟨_, he, by rw [he', hr, State.serve_withMf]⟩
  cases i with
  | bcAlloc len =>
    refine served rfl rfl ?_
    dsimp only
    split <;> rfl
  | bcSeek offset =>
    refine served rfl rfl ?_
    dsimp only
    split <;> rfl
  | bcReadBits n => exact served rfl rfl (s.replyRead_withMf mf _)
  | bcWriteBits n value => exact served rfl rfl (s.replyWrite_withMf mf _ value)
  | bcReadByte => exact served rfl rfl (s.replyRead_withMf mf 8)
  | bcWriteByte value => exact served rfl rfl (s.replyWrite_withMf mf 8 value)
  | tcInit mode =>
    refine served rfl rfl ?_
    dsimp only
    split <;> rfl
  | tcNext =>
    refine served rfl rfl ?_
    dsimp only
    cases TokenState.next s.cfg { bc := s.bc, tc := s.tc } <;> rfl
  | tcPacket k =>
    refine served rfl rfl ?_
    dsimp only
    split
    · rfl
    · cases TokenState.take s.cfg { bc := s.bc, tc := s.tc } k.toNat <;> rfl
  | tcRelease => exact served rfl rfl rfl
  | tcRdPkt idx =>
    refine served rfl rfl ?_
    dsimp only
    split <;> rfl
  | _ => cases hi

/-- So the matcher is as it was after such a command. -/
theorem exec_cursorOrToken_mf {i : Instr} (hi : i.cursorOrToken = true) {s t : State} (h : exec i s = .next t) :
    t.mf = s.mf := by
  obtain ⟨t', ht, ht'⟩ := exec_withMf hi s s.mf
  cases h.symm.trans ht
  have he : t = { t with mf := s.mf } := Host.Outcome.next.inj (h.symm.trans ht')
  rw [he]

/-- Settles O48: the command does not touch the matcher, the step reads and writes nothing else. -/
theorem cursorAndTokenCommandsCommuteWithEngine : Obligations.CursorAndTokenCommandsCommuteWithEngine := by
  intro s t1 t u i hi hf hexec hf1 hturn1 hturn hfu
  have hmf1 := exec_cursorOrToken_mf hi hexec
  have hcfg1 : t1.cfg = s.cfg := by
    obtain ⟨v, rc, val, hv, he⟩ := exec_effect i s
    cases he.symm.trans hexec
    exact hv.cfg
  rcases s.engineTurn_cases with ⟨-, h⟩ | ⟨hready, mf', hmf, h⟩ | ⟨-, -, h⟩
  · cases h.symm.trans hturn
  · cases h.symm.trans hturn
    have hstep : t1.engineTurn = .next { t1 with mf := mf' } := by
      rw [State.engineTurn, hmf1, hcfg1, if_pos hready, hmf]
    obtain ⟨t', ht', he⟩ := exec_withMf hi s mf'
    cases hexec.symm.trans ht'
    rw [he, ← hstep, hturn1]
  · cases h.symm.trans hturn
    cases hfu

/-! ### Commands while a compression runs -/

/-- The four commands of 60_exceptions.md R285 come to `BUSY`. -/
theorem exec_refusedWhileRunning {i : Instr} (hi : i.refusedWhileRunning = true) {s : State}
    (hst : s.mf.st = .running) : exec i s = .next (s.serve .busy) := by
  have refused {r : Reply} (he : exec i s = .next (s.serve (s.unlessRunning r))) :
      exec i s = .next (s.serve .busy) := by
    rw [he, State.unlessRunning_running hst]
  cases i with
  | mfClear | mfPut | mfStart | mfGet => exact refused rfl
  | _ => cases hi

/-- Settles O47: the commands of `BC` and `TC` leave the matcher alone, four are refused, and of the rest only
`MF.CANCEL` writes. -/
theorem runningMatcherBelongsToEngine : Obligations.RunningMatcherBelongsToEngine := by
  intro s t i hst hf hreset hexec
  cases i with
  | sysReset => exact absurd rfl hreset
  | sysNop | sysStatus => cases hexec; exact .inl rfl
  | mfClear | mfPut | mfStart | mfGet =>
    cases (exec_refusedWhileRunning rfl hst).symm.trans hexec
    rw [State.serve_unfaulted hf]
    exact .inl rfl
  | mfCancel =>
    cases hexec
    rw [State.serve_unfaulted hf, if_pos hst]
    exact .inr ⟨rfl, rfl⟩
  | mfInfo sel =>
    cases hexec
    rw [State.serve_unfaulted hf]
    cases s.mf.info sel <;> exact .inl rfl
  | _ => exact .inl (exec_cursorOrToken_mf rfl hexec)

end Sys2Proof.Machine
end

section
/-! PROOFS. Command words (30_encoding.md R90, R91, R94 to R97): the fields of a word are the word, decoding inverts
encoding, and what a step does with a word on the host's turn. -/

namespace Sys2Proof

/-! ### The fields of a word -/

/-- The fields lie side by side and leave no bit out (30_encoding.md R91). -/
theorem Cmd.toWord_ofWord (w : CmdWord) : (Cmd.ofWord w).toWord = w := by
  have h16 : w.extractLsb' 40 8 ++ w.extractLsb' 32 8 = w.extractLsb' 32 16 :=
    BitVec.extractLsb'_append_extractLsb'_eq_extractLsb' rfl
  have h48 : w.extractLsb' 32 16 ++ w.extractLsb' 0 32 = w.extractLsb' 0 48 :=
    BitVec.extractLsb'_append_extractLsb'_eq_extractLsb' rfl
  rw [Cmd.toWord, Cmd.ofWord, h16, h48, BitVec.extractLsb'_eq_self]

theorem Cmd.ofWord_toWord (c : Cmd) : Cmd.ofWord c.toWord = c := by
  have h40 : (c.op ++ c.a ++ c.v).extractLsb' 40 8 = c.op := by
    rw [BitVec.extractLsb'_append_eq_of_le (by decide), BitVec.extractLsb'_append_eq_left]
  have h32 : (c.op ++ c.a ++ c.v).extractLsb' 32 8 = c.a := by
    rw [BitVec.extractLsb'_append_eq_of_le (by decide), BitVec.extractLsb'_append_eq_right]
  have h0 : (c.op ++ c.a ++ c.v).extractLsb' 0 32 = c.v := BitVec.extractLsb'_append_eq_right
  rw [Cmd.toWord, Cmd.ofWord, h40, h32, h0]

/-! ### Decoding inverts encoding -/

theorem Cmd.decode_toCmd (i : Instr) : i.toCmd.decode = .ok i := by
  cases i <;> rfl

section
variable {c : Cmd} {op : Byte} {i : Instr}

/-- A row with both fields unused: a word it accepts is its command's. -/
theorem toCmd_of_decodeNone {j : Instr} (h : decodeNone c j = .ok i) (hj : j.toCmd = ⟨op, 0, 0⟩)
    (hop : c.op.toNat = op.toNat) : i.toCmd = c := by
  unfold decodeNone at h
  split at h
  · cases h
  · rename_i ha
    split at h
    · cases h
    · rename_i hv
      cases h
      rw [hj, ← BitVec.eq_of_toNat_eq hop, ← not_not.1 ha, ← not_not.1 hv]

/-- A row that uses `A` only. -/
theorem toCmd_of_decodeA {f : Byte → Instr} (h : decodeA c f = .ok i) (hf : ∀ a, (f a).toCmd = ⟨op, a, 0⟩)
    (hop : c.op.toNat = op.toNat) : i.toCmd = c := by
  unfold decodeA at h
  split at h
  · cases h
  · rename_i hv
    cases h
    rw [hf, ← BitVec.eq_of_toNat_eq hop, ← not_not.1 hv]

/-- A row that uses `V` only. -/
theorem toCmd_of_decodeV {f : Word → Instr} (h : decodeV c f = .ok i) (hf : ∀ v, (f v).toCmd = ⟨op, 0, v⟩)
    (hop : c.op.toNat = op.toNat) : i.toCmd = c := by
  unfold decodeV at h
  split at h
  · cases h
  · rename_i ha
    cases h
    rw [hf, ← BitVec.eq_of_toNat_eq hop, ← not_not.1 ha]

/-- The fields that decode to a command are that command's: every row reads back what it wrote. -/
theorem Cmd.toCmd_of_decode (h : c.decode = .ok i) : i.toCmd = c := by
  unfold Cmd.decode at h
  split at h
  next hop => exact toCmd_of_decodeNone h rfl hop
  next hop => exact toCmd_of_decodeNone h rfl hop
  next hop => exact toCmd_of_decodeNone h rfl hop
  next hop => exact toCmd_of_decodeV h (fun _ => rfl) hop
  next hop => exact toCmd_of_decodeV h (fun _ => rfl) hop
  next hop => exact toCmd_of_decodeA h (fun _ => rfl) hop
  next hop =>
    cases h
    exact congrArg (Cmd.mk · c.a c.v) (BitVec.eq_of_toNat_eq hop.symm)
  next hop => exact toCmd_of_decodeNone h rfl hop
  next hop => exact toCmd_of_decodeV h (fun _ => rfl) hop
  next hop => exact toCmd_of_decodeNone h rfl hop
  next hop => exact toCmd_of_decodeA h (fun _ => rfl) hop
  next hop => exact toCmd_of_decodeNone h rfl hop
  next hop => exact toCmd_of_decodeNone h rfl hop
  next hop => exact toCmd_of_decodeA h (fun _ => rfl) hop
  next hop => exact toCmd_of_decodeV h (fun _ => rfl) hop
  next hop => exact toCmd_of_decodeA h (fun _ => rfl) hop
  next hop => exact toCmd_of_decodeNone h rfl hop
  next hop => exact toCmd_of_decodeA h (fun _ => rfl) hop
  next hop => exact toCmd_of_decodeNone h rfl hop
  next hop => exact toCmd_of_decodeA h (fun _ => rfl) hop
  next => cases h

end

theorem Cmd.decode_eq_ok_iff {c : Cmd} {i : Instr} : c.decode = .ok i ↔ c = i.toCmd :=
  ⟨fun h => (Cmd.toCmd_of_decode h).symm, fun h => h ▸ Cmd.decode_toCmd i⟩

/-- Settles O1: the fields of a word are the word, and on the fields decoding inverts encoding. -/
theorem wordDecodesIffEncoded : Obligations.WordDecodesIffEncoded := by
  intro w i
  rw [decode, Cmd.decode_eq_ok_iff, encode]
  constructor
  · intro h
    rw [← h, Cmd.toWord_ofWord]
  · rintro rfl
    exact Cmd.ofWord_toWord _

/-! ### The legal words -/

theorem Instr.legal_toCmd (i : Instr) : i.toCmd.legal = true := by
  cases i with
  | sysNop => exact Laws.LegalFields.sysNop
  | sysReset => exact Laws.LegalFields.sysReset
  | sysStatus => exact Laws.LegalFields.sysStatus
  | bcAlloc len => exact Laws.LegalFields.bcAlloc len
  | bcSeek bitOffset => exact Laws.LegalFields.bcSeek bitOffset
  | bcReadBits n => exact Laws.LegalFields.bcReadBits n
  | bcWriteBits n value => exact Laws.LegalFields.bcWriteBits n value
  | bcReadByte => exact Laws.LegalFields.bcReadByte
  | bcWriteByte value => exact Laws.LegalFields.bcWriteByte value
  | mfClear => exact Laws.LegalFields.mfClear
  | mfPut byte => exact Laws.LegalFields.mfPut byte
  | mfStart => exact Laws.LegalFields.mfStart
  | mfCancel => exact Laws.LegalFields.mfCancel
  | mfInfo sel => exact Laws.LegalFields.mfInfo sel
  | mfGet addr => exact Laws.LegalFields.mfGet addr
  | tcInit mode => exact Laws.LegalFields.tcInit mode
  | tcNext => exact Laws.LegalFields.tcNext
  | tcPacket k => exact Laws.LegalFields.tcPacket k
  | tcRelease => exact Laws.LegalFields.tcRelease
  | tcRdPkt i => exact Laws.LegalFields.tcRdPkt i

/-- Whatever fields a row of the table allows are a command's. -/
def OpcodeRow.Covered (r : OpcodeRow) : Prop :=
  ∀ a v, r.a.admits a = true → r.v.admits v = true → ∃ i : Instr, i.toCmd = ⟨r.op, a, v⟩

section
variable {op : Byte} {name : String}

theorem FieldUse.eq_zero_of_admits {w : Nat} {x : BitVec w} (h : FieldUse.unused.admits x = true) : x = 0 :=
  eq_of_beq h

theorem OpcodeRow.Covered.ofNone (i : Instr) (hi : i.toCmd = ⟨op, 0, 0⟩) :
    OpcodeRow.Covered ⟨op, name, .unused, .unused⟩ := fun a v ha hv => by
  obtain rfl := FieldUse.eq_zero_of_admits ha
  obtain rfl := FieldUse.eq_zero_of_admits hv
  exact ⟨i, hi⟩

theorem OpcodeRow.Covered.ofA (f : Byte → Instr) (hf : ∀ a, (f a).toCmd = ⟨op, a, 0⟩) :
    OpcodeRow.Covered ⟨op, name, .any, .unused⟩ := fun a v _ hv => by
  obtain rfl := FieldUse.eq_zero_of_admits hv
  exact ⟨f a, hf a⟩

theorem OpcodeRow.Covered.ofV (f : Word → Instr) (hf : ∀ v, (f v).toCmd = ⟨op, 0, v⟩) :
    OpcodeRow.Covered ⟨op, name, .unused, .any⟩ := fun a v ha _ => by
  obtain rfl := FieldUse.eq_zero_of_admits ha
  exact ⟨f v, hf v⟩

end

/-- Every row of the table has its command (30_encoding.md R94). -/
theorem opcodeRows_covered : ∀ r ∈ opcodeRows, r.Covered := by
  simp only [opcodeRows, List.forall_mem_cons]
  exact ⟨.ofNone .sysNop rfl, .ofNone .sysReset rfl, .ofNone .sysStatus rfl,
    .ofV .bcAlloc fun _ => rfl, .ofV .bcSeek fun _ => rfl, .ofA .bcReadBits fun _ => rfl,
    fun a v _ _ => ⟨.bcWriteBits a v, rfl⟩, .ofNone .bcReadByte rfl, .ofV .bcWriteByte fun _ => rfl,
    .ofNone .mfClear rfl, .ofA .mfPut fun _ => rfl, .ofNone .mfStart rfl,
    .ofNone .mfCancel rfl, .ofA .mfInfo fun _ => rfl, .ofV .mfGet fun _ => rfl,
    .ofA .tcInit fun _ => rfl, .ofNone .tcNext rfl, .ofA .tcPacket fun _ => rfl,
    .ofNone .tcRelease rfl, .ofA .tcRdPkt fun _ => rfl, fun _ h => absurd h List.not_mem_nil⟩

/-- The legal fields are those of the commands. -/
theorem Cmd.legal_iff {c : Cmd} : c.legal = true ↔ ∃ i : Instr, i.toCmd = c := by
  constructor
  · intro h
    obtain ⟨r, hr, hfields⟩ := List.any_eq_true.1 h
    simp only [Bool.and_eq_true, beq_iff_eq] at hfields
    obtain ⟨⟨hop, ha⟩, hv⟩ := hfields
    obtain ⟨i, hi⟩ := opcodeRows_covered r hr c.a c.v ha hv
    exact ⟨i, by rw [hi, hop]⟩
  · rintro ⟨i, rfl⟩
    exact i.legal_toCmd

/-- Settles O2: the decoder and the table accept the fields of the commands. -/
theorem decoderAcceptsLegalWords : Obligations.DecoderAcceptsLegalWords := by
  intro w
  rw [Cmd.legal_iff]
  exact exists_congr fun i => Cmd.decode_eq_ok_iff.trans eq_comm

end Sys2Proof

namespace Sys2Proof.Machine

/-! ### The host's turn -/

section
variable {s : State} {w : CmdWord} {ws : List CmdWord}

/-- With a word to send, a turn the schedule gives the host takes that word. -/
theorem State.nextAction_hostCommand {es : List Event} (hp : s.port.pending = w :: ws)
    (hs : s.port.schedule = .hostCommand :: es) :
    s.nextAction = (.command w, { s with port := { s.port with pending := ws, schedule := es } }) := by
  simp [State.nextAction, hs, State.hostAction, hp]

/-- With a word to send and nothing scheduled, the turn is the host's while the engine is disabled. -/
theorem State.nextAction_unscheduled (hp : s.port.pending = w :: ws) (hs : s.port.schedule = [])
    (hen : s.engineEnabled = false) :
    s.nextAction = (.command w, { s with port := { s.port with pending := ws } }) := by
  simp [State.nextAction, hs, hen, State.engineAction, State.hostAction, hp]

theorem step_command {t : State} {i : Instr} (hn : s.nextAction = (.command w, t)) (hi : decode w = .ok i) :
    step s = exec i t := by
  rw [step, hn]
  simp only [hi]

theorem step_illegalWord {t : State} {e : DecodeError} (hn : s.nextAction = (.command w, t))
    (he : decode w = .error e) : step s = .next t.illegalWord := by
  rw [step, hn]
  simp only [he]

/-- The word the host is made to send is the next event, and the state is then as it was. -/
theorem State.nextAction_withFetchWord (s : State) (w : CmdWord) :
    (s.withFetchWord 48 w.toNat).nextAction = (.command w, s) := by
  have hw : BitVec.ofNat 48 (w.toNat % 2 ^ 48) = w := by
    rw [Nat.mod_eq_of_lt w.isLt, BitVec.ofNat_toNat, BitVec.setWidth_eq]
  refine (State.nextAction_hostCommand rfl rfl).trans ?_
  rw [hw]
  rfl

end

/-- Settles O4: the turn is the host's under either schedule, and the word decodes to the command. -/
theorem stepRunsDecodedCommand : Obligations.StepRunsDecodedCommand := by
  intro s w ws i hp hi
  refine ⟨fun es hs => step_command (State.nextAction_hostCommand hp hs) hi, fun hs hen => ?_⟩
  have hdisabled : s.engineEnabled = false := by
    rw [← Bool.not_eq_true, State.engineEnabled_iff]
    exact hen
  exact step_command (State.nextAction_unscheduled hp hs hdisabled) hi

/-! ### Faults raised and words refused -/

theorem State.raises_raiseFault (s : State) (c : Cause) : s.Raises (s.raiseFault c) c :=
  ⟨rfl, rfl, rfl, rfl, rfl, rfl, rfl⟩

theorem State.onlyAnswers_respond (s : State) (rc : Byte) (val : Word) : s.OnlyAnswers (s.respond rc val) rc val :=
  ⟨rfl, rfl⟩

theorem decode_eq_error_of_illegal {w : CmdWord} (h : (Cmd.ofWord w).legal = false) :
    ∃ e, decode w = .error e := by
  cases hd : decode w with
  | error e => exact ⟨e, rfl⟩
  | ok i => simp [(decoderAcceptsLegalWords w).1 ⟨i, hd⟩] at h

/-- Settles O5: the decoder refuses the word, and the block answers as its fault state says. -/
theorem illegalWordOutcome : Obligations.IllegalWordOutcome := by
  intro s w hw
  obtain ⟨e, he⟩ := decode_eq_error_of_illegal hw
  refine ⟨_, step_illegalWord (s.nextAction_withFetchWord w) he, fun hf => ?faulted, fun hf => ?unfaulted⟩
  case faulted =>
    rw [State.illegalWord, State.serve_faulted hf]
    exact s.onlyAnswers_respond ..
  case unfaulted =>
    rw [State.illegalWord, State.serve_unfaulted hf]
    exact s.raises_raiseFault _

end Sys2Proof.Machine
end

section
/-! PROOFS. The reference decoder on the streams of valid slots (30_encoding.md R101 to R112): what one slot, one
group and the groups of a stream leave of it, and the round trip of an ended run. -/

namespace Sys2Proof.Machine

/-! ### The bytes slots stand for -/

section
variable {n m : Nat} {out : List Byte} {slot : Slot} {slots : List Slot}

theorem length_copyBack (dist : Nat) (out : List Byte) (len : Nat) :
    (copyBack dist out len).length = out.length + len := by
  induction len generalizing out with
  | zero => rfl
  | succ len ih =>
    rw [copyBack, ih, List.length_append, List.length_singleton]
    omega

theorem Slot.length_apply (out : List Byte) (slot : Slot) : (slot.apply out).length = out.length + slot.size := by
  cases slot with
  | literal bytes => exact List.length_append
  | copy dist len => exact length_copyBack dist out len

theorem expandFrom_append (out : List Byte) (slots more : List Slot) :
    expandFrom out (slots ++ more) = expandFrom (expandFrom out slots) more :=
  List.foldl_append

theorem length_le_length_expandFrom (out : List Byte) (slots : List Slot) :
    out.length ≤ (expandFrom out slots).length := by
  induction slots generalizing out with
  | nil => exact Nat.le_refl _
  | cons slot slots ih =>
    calc out.length ≤ (slot.apply out).length := by rw [Slot.length_apply]; omega
      _ ≤ (expandFrom (slot.apply out) slots).length := ih _

/-- A valid slot stands for at least one byte, and for none past the end. -/
theorem slotsValid_bounds (h : slotsValid n out [slot]) : 1 ≤ slot.size ∧ out.length + slot.size ≤ n := by
  cases slot with
  | literal bytes =>
    simp only [slotsValid, litMax, and_true] at h
    rw [Slot.size_literal]
    omega
  | copy dist len =>
    simp only [slotsValid, minMatch, and_true] at h
    rw [Slot.size_copy]
    omega

/-- Where there is a slot, the output is not complete. -/
theorem length_lt_of_slotsValid (h : slotsValid n out slots) (hne : slots ≠ []) : out.length < n := by
  obtain ⟨slot, more, rfl⟩ := List.exists_cons_of_ne_nil hne
  obtain ⟨hpos, hend⟩ := slotsValid_bounds (slotsValid_cons.1 h).1
  omega

theorem length_expandFrom_le (h : slotsValid n out slots) (hout : out.length ≤ n) :
    (expandFrom out slots).length ≤ n := by
  induction slots generalizing out with
  | nil => exact hout
  | cons slot slots ih =>
    obtain ⟨hslot, hslots⟩ := slotsValid_cons.1 h
    exact ih hslots (by rw [Slot.length_apply]; exact (slotsValid_bounds hslot).2)

/-- A slot is valid for every shorter input that it does not pass the end of: a literal run of fewer than 3 bytes
reaches the end of the input, so none is shorter. -/
theorem slotsValid_of_le (h : slotsValid n out [slot]) (hend : out.length + slot.size ≤ m) (hle : m ≤ n) :
    slotsValid m out [slot] := by
  cases slot with
  | literal bytes =>
    rw [Slot.size_literal] at hend
    simp only [slotsValid, litMax, and_true] at h ⊢
    omega
  | copy dist len =>
    rw [Slot.size_copy] at hend
    simp only [slotsValid, and_true] at h ⊢
    omega

/-- Valid slots are valid for the input they stand for, which is what the decoder knows of it. -/
theorem slotsValid_length_expandFrom (h : slotsValid n out slots) (hout : out.length ≤ n) :
    slotsValid (expandFrom out slots).length out slots := by
  induction slots generalizing out with
  | nil => trivial
  | cons slot slots ih =>
    obtain ⟨hslot, hslots⟩ := slotsValid_cons.1 h
    have happly : (slot.apply out).length ≤ n := by
      rw [Slot.length_apply]; exact (slotsValid_bounds hslot).2
    refine slotsValid_cons.2 ⟨slotsValid_of_le hslot ?_ (length_expandFrom_le h hout), ih hslots happly⟩
    rw [← Slot.length_apply]
    exact length_le_length_expandFrom (slot.apply out) slots

theorem slotsValid_append {more : List Slot} :
    slotsValid n out (slots ++ more) ↔ slotsValid n out slots ∧ slotsValid n (expandFrom out slots) more := by
  induction slots generalizing out with
  | nil => simp [slotsValid, expandFrom]
  | cons slot slots ih =>
    rw [List.cons_append, slotsValid_cons, ih, slotsValid_cons (slots := slots), and_assoc]
    rfl

end

/-! ### The flags of a group -/

/-- The bit of a slot number is set in its own mask and in no other. -/
theorem getLsbD_slotMask (order : CtrlBitOrder) {j k : Nat} (hj : j < 8) (hk : k < 8) :
    (1#8 <<< slotBit order j).getLsbD (slotBit order k) = decide (j = k) := by
  have hbit : slotBit order j < 8 ∧ (slotBit order j = slotBit order k ↔ j = k) := by
    cases order with
    | msbFirst => simp only [slotBit]; omega
    | lsbFirst => exact ⟨hj, Iff.rfl⟩
  rw [← BitVec.twoPow_eq, BitVec.getLsbD_twoPow]
  simp [hbit]

/-- The bit of slot number `k + i` in the control byte of slots from `k` on is the flag of the `i`-th of them; the
bits before `k` and those of no slot are 0 (30_encoding.md R104). -/
theorem getLsbD_controlFrom (order : CtrlBitOrder) {k j : Nat} {slots : List Slot} (hlen : k + slots.length ≤ 8)
    (hj : j < 8) :
    (controlFrom order k slots).getLsbD (slotBit order j) =
      (decide (k ≤ j) && ((slots.map Slot.flag)[j - k]?).getD false) := by
  induction slots generalizing k with
  | nil => simp [controlFrom]
  | cons slot slots ih =>
    rw [List.length_cons] at hlen
    have hmask : (if slot.flag then 1#8 <<< slotBit order k else 0).getLsbD (slotBit order j) =
        (slot.flag && decide (k = j)) := by
      cases slot.flag
      · simp
      · simp [getLsbD_slotMask order (show k < 8 by omega) hj]
    rw [controlFrom, BitVec.getLsbD_or, hmask, ih (by omega)]
    rcases Nat.lt_trichotomy j k with hlt | rfl | hgt
    · simp [show ¬k ≤ j by omega, show ¬k + 1 ≤ j by omega, show k ≠ j by omega]
    · simp
    · obtain ⟨i, rfl⟩ : ∃ i, j = k + 1 + i := ⟨j - (k + 1), by omega⟩
      simp [show k + 1 + i - k = i + 1 by omega, show k ≤ k + 1 + i by omega, show k ≠ k + 1 + i by omega]

/-- A control byte gives the flags of its slots in order, and 0 where the group has none. -/
theorem slotFlags_controlFrom (order : CtrlBitOrder) {slots : List Slot} (hlen : slots.length ≤ 8) :
    slotFlags order (controlFrom order 0 slots) =
      slots.map Slot.flag ++ List.replicate (8 - slots.length) false := by
  have hpad : (List.range 8).map (fun j => ((slots.map Slot.flag)[j]?).getD false) =
      slots.map Slot.flag ++ List.replicate (8 - slots.length) false := by
    refine List.ext_getElem (by simp; omega) fun j hj _ => ?_
    by_cases hin : j < slots.length
    · simp [hin]
    · simp [List.getElem_append, hin]
  rw [← hpad]
  refine List.map_congr_left fun j hj => ?_
  rw [getLsbD_controlFrom order (by omega) (List.mem_range.1 hj)]
  rfl

/-! ### The decoder on one slot and on one group -/

section
variable {order : CtrlBitOrder} {total : Nat} {out rest : List Byte} {slot : Slot} {slots : List Slot}

/-- Once all bytes are produced, the flags left over govern nothing. -/
theorem decodeSlots_of_complete (h : total ≤ out.length) (flags : List Bool) :
    decodeSlots total flags out rest = .ok (out, rest) := by
  cases flags with
  | nil => rfl
  | cons flag flags => exact if_pos h

/-- A clear flag: a run of min(3, M - |out|) raw bytes (30_encoding.md R106). -/
theorem decodeSlots_literal (hmore : out.length < total) (flags : List Bool) :
    decodeSlots total (false :: flags) out rest =
      if rest.length < min litMax (total - out.length) then .error .truncated
      else decodeSlots total flags (out ++ rest.take (min litMax (total - out.length)))
        (rest.drop (min litMax (total - out.length))) :=
  if_neg (Nat.not_le.2 hmore)

/-- A set flag: a copy by the distance and the length of the next three bytes (30_encoding.md R105). -/
theorem decodeSlots_match (hmore : out.length < total) (flags : List Bool) (d1 d0 l : Byte) :
    decodeSlots total (true :: flags) out (d1 :: d0 :: l :: rest) =
      if d1.toNat * 256 + d0.toNat = 0 ∨ out.length < d1.toNat * 256 + d0.toNat then .error .badDistance
      else if total - out.length < l.toNat + minMatch then .error .overrun
      else decodeSlots total flags (copyBack (d1.toNat * 256 + d0.toNat) out (l.toNat + minMatch)) rest :=
  if_neg (Nat.not_le.2 hmore)

/-- The distance read back from its two bytes (30_encoding.md R105). -/
theorem matchBytes_dist {dist : Nat} (h : dist ≤ maxDist) :
    (BitVec.ofNat 8 (dist / 256)).toNat * 256 + (BitVec.ofNat 8 dist).toNat = dist := by
  rw [BitVec.toNat_ofNat, BitVec.toNat_ofNat]
  simp only [maxDist] at h
  omega

/-- The length read back from its byte (30_encoding.md R105). -/
theorem matchBytes_len {len : Nat} (hlo : minMatch < len) (hhi : len ≤ maxLen) :
    (BitVec.ofNat 8 (len - minMatch)).toNat + minMatch = len := by
  rw [BitVec.toNat_ofNat]
  simp only [minMatch, maxLen] at hlo hhi ⊢
  omega

/-- The decoder reads the bytes of a valid slot as the block wrote them. -/
theorem decodeSlots_cons (h : slotsValid total out [slot]) (flags : List Bool) (rest : List Byte) :
    decodeSlots total (slot.flag :: flags) out (slot.payload ++ rest) =
      decodeSlots total flags (slot.apply out) rest := by
  obtain ⟨hpos, hend⟩ := slotsValid_bounds h
  have hmore : out.length < total := by omega
  cases slot with
  | literal bytes =>
    obtain ⟨⟨-, hlen⟩, -⟩ := h
    rw [Slot.flag_literal, Slot.payload_literal, decodeSlots_literal hmore, ← hlen, if_neg (by simp),
      List.take_left, List.drop_left]
    rfl
  | copy dist len =>
    obtain ⟨⟨hdist, hfar, hback, hmin, hmax, hfit⟩, -⟩ := h
    rw [Slot.flag_copy, Slot.payload_copy, matchBytes, List.cons_append, List.cons_append, List.cons_append,
      List.nil_append, decodeSlots_match hmore, matchBytes_dist hfar, matchBytes_len hmin hmax,
      if_neg (by omega), if_neg (by omega)]
    rfl

theorem decodeSlots_append (h : slotsValid total out slots) (flags : List Bool) (rest : List Byte) :
    decodeSlots total (slots.map Slot.flag ++ flags) out (slots.flatMap Slot.payload ++ rest) =
      decodeSlots total flags (expandFrom out slots) rest := by
  induction slots generalizing out with
  | nil => rfl
  | cons slot slots ih =>
    obtain ⟨hslot, hslots⟩ := slotsValid_cons.1 h
    rw [List.map_cons, List.cons_append, List.flatMap_cons, List.append_assoc, decodeSlots_cons hslot, ih hslots]
    rfl

/-- The decoder reads a group that is full or ends the output. -/
theorem decodeSlots_group (h : slotsValid total out slots) (hlen : slots.length ≤ 8)
    (hend : slots.length = 8 ∨ total ≤ (expandFrom out slots).length) :
    decodeSlots total (slotFlags order (controlFrom order 0 slots)) out (slots.flatMap Slot.payload ++ rest) =
      .ok (expandFrom out slots, rest) := by
  rw [slotFlags_controlFrom order hlen, decodeSlots_append h]
  rcases hend with hfull | hdone
  · rw [hfull]; rfl
  · exact decodeSlots_of_complete hdone _

/-- A group takes a turn of the loop. -/
theorem exists_fuel_of_group {fuel : Nat} (h : (groupBytes order slots ++ rest).length ≤ fuel) :
    ∃ k, fuel = k + 1 := by
  rw [groupBytes, List.cons_append, List.length_cons] at h
  exact ⟨fuel - 1, by omega⟩

theorem decodeGroups_of_complete (h : total ≤ out.length) (fuel : Nat) :
    decodeGroups order total fuel out rest = .ok (out, rest) := by
  unfold decodeGroups
  exact if_pos h

/-- The decoder's loop takes one such group per turn. -/
theorem decodeGroups_group (h : slotsValid total out slots) (hmore : out.length < total) (hlen : slots.length ≤ 8)
    (hend : slots.length = 8 ∨ total ≤ (expandFrom out slots).length) (fuel : Nat) :
    decodeGroups order total (fuel + 1) out (groupBytes order slots ++ rest) =
      decodeGroups order total fuel (expandFrom out slots) rest := by
  refine (if_neg (Nat.not_le.2 hmore)).trans ?_
  simp only [List.append_eq, decodeSlots_group h hlen hend]

end

/-! ### A stream as its first group and the rest -/

section
variable {cfg : Config} {order : CtrlBitOrder} {group slots : List Slot}

/-- Induction over the groups of a sequence of slots: fewer than 8 slots, or 8 and the others. -/
theorem groupInduction {motive : List Slot → Prop} (short : ∀ slots, slots.length < 8 → motive slots)
    (group : ∀ group slots, group.length = 8 → motive slots → motive (group ++ slots)) (slots : List Slot) :
    motive slots := by
  induction hk : slots.length using Nat.strong_induction_on generalizing slots with
  | h k ih =>
    by_cases hlt : slots.length < 8
    · exact short slots hlt
    · rw [← List.take_append_drop 8 slots]
      exact group _ _ (by rw [List.length_take]; omega)
        (ih (slots.drop 8).length (by rw [List.length_drop]; omega) _ rfl)

theorem openSlots_of_lt (h : slots.length < 8) : openSlots slots = slots := by
  rw [openSlots, Nat.div_eq_of_lt h]
  rfl

theorem openSlots_group_append (h : group.length = 8) : openSlots (group ++ slots) = openSlots slots := by
  have hdiv : (group ++ slots).length / 8 = slots.length / 8 + 1 := by
    rw [List.length_append]; omega
  simp only [openSlots, slotsPerGroup, hdiv]
  rw [show 8 * (slots.length / 8 + 1) = group.length + 8 * (slots.length / 8) by omega, List.drop_length_add_append]

theorem groupOf_zero (h : group.length = 8) : groupOf (group ++ slots) 0 = group :=
  List.take_left' h

theorem groupOf_succ (h : group.length = 8) (g : Nat) : groupOf (group ++ slots) (g + 1) = groupOf slots g := by
  simp only [groupOf, slotsPerGroup]
  rw [show 8 * (g + 1) = group.length + 8 * g by omega, List.drop_length_add_append]

theorem fullGroups_group_append (h : group.length = 8) :
    fullGroups order (group ++ slots) = groupBytes order group ++ fullGroups order slots := by
  have hdiv : (group ++ slots).length / 8 = slots.length / 8 + 1 := by
    rw [List.length_append]; omega
  simp only [fullGroups, slotsPerGroup, hdiv, List.range_succ_eq_map, List.flatMap_cons, List.flatMap_map,
    groupOf_zero h, groupOf_succ h, Nat.succ_eq_add_one]

theorem finalStream_group_append (h : group.length = 8) :
    finalStream cfg (group ++ slots) = groupBytes cfg.ctrlBitOrder group ++ finalStream cfg slots := by
  rw [finalStream, fullGroups_group_append h, openSlots_group_append h, List.append_assoc]
  rfl

/-- A stream of fewer than 8 slots is one group. -/
theorem finalStream_of_lt (h : slots.length < 8) (hne : slots ≠ []) :
    finalStream cfg slots = groupBytes cfg.ctrlBitOrder slots := by
  rw [finalStream, fullGroups, openSlots_of_lt h, Nat.div_eq_of_lt h, if_neg fun hc => hne hc.1]
  rfl

end

/-! ### The decoder on a stream -/

/-- What the decoder leaves of a stream (30_encoding.md R102): the empty group at its end, where there is one. -/
def trailingEmptyGroup (cfg : Config) (slots : List Slot) : List Byte :=
  if openSlots slots = [] ∧ cfg.flushEmptyGroup = true then [0] else []

theorem finalStream_nil (cfg : Config) : finalStream cfg [] = trailingEmptyGroup cfg [] := by
  simp only [finalStream, trailingEmptyGroup, openSlots_of_lt (slots := []) (by decide), groupBytes_nil]
  cases cfg.flushEmptyGroup <;> rfl

section
variable {cfg : Config} {total fuel : Nat} {out : List Byte} {slots : List Slot}

/-- The decoder reads a stream group by group to the end of the output (30_encoding.md R110). -/
theorem decodeGroups_finalStream (h : slotsValid total out slots) (htotal : (expandFrom out slots).length = total)
    (hfuel : (finalStream cfg slots).length ≤ fuel) :
    decodeGroups cfg.ctrlBitOrder total fuel out (finalStream cfg slots) =
      .ok (expandFrom out slots, trailingEmptyGroup cfg slots) := by
  induction slots using groupInduction generalizing out fuel with
  | short slots hlt =>
    by_cases hne : slots = []
    · subst hne
      rw [finalStream_nil]
      exact decodeGroups_of_complete (Nat.le_of_eq htotal.symm) fuel
    · have hstream : finalStream cfg slots = groupBytes cfg.ctrlBitOrder slots ++ [] := by
        rw [finalStream_of_lt hlt hne, List.append_nil]
      rw [hstream] at hfuel ⊢
      obtain ⟨fuel, rfl⟩ := exists_fuel_of_group hfuel
      have hdone : total ≤ (expandFrom out slots).length := Nat.le_of_eq htotal.symm
      rw [decodeGroups_group h (length_lt_of_slotsValid h hne) (Nat.le_of_lt hlt) (.inr hdone),
        decodeGroups_of_complete hdone, trailingEmptyGroup, openSlots_of_lt hlt, if_neg fun hc => hne hc.1]
  | group group slots hlen ih =>
    obtain ⟨hgroup, hslots⟩ := slotsValid_append.1 h
    have hne : group ≠ [] := List.ne_nil_of_length_pos (by omega)
    rw [expandFrom_append] at htotal ⊢
    rw [finalStream_group_append hlen] at hfuel ⊢
    obtain ⟨fuel, rfl⟩ := exists_fuel_of_group hfuel
    have hrest : (finalStream cfg slots).length ≤ fuel := by
      rw [List.length_append, groupBytes, List.length_cons] at hfuel
      omega
    rw [decodeGroups_group hgroup (length_lt_of_slotsValid hgroup hne) (Nat.le_of_eq hlen) (.inl hlen),
      ih hslots htotal hrest, trailingEmptyGroup, trailingEmptyGroup, openSlots_group_append hlen]

theorem length_trailingEmptyGroup (cfg : Config) (slots : List Slot) :
    (trailingEmptyGroup cfg slots).length = if openSlots slots = [] ∧ cfg.flushEmptyGroup = true then 1 else 0 := by
  rw [trailingEmptyGroup]
  split <;> rfl

end

/-- Settles O56: the slots are valid for the bytes they stand for, and the decoder reads them group by group. -/
theorem decoderReadsFinalStream : Obligations.DecoderReadsFinalStream := by
  intro cfg n slots h
  have hvalid := slotsValid_length_expandFrom h (Nat.zero_le n)
  rw [decodeStream, decodeGroups_finalStream hvalid rfl (Nat.le_refl _)]
  simp only [length_trailingEmptyGroup]
  split <;> rfl

/-! ### The round trip -/

/-- A stream that ends in an empty group has a byte. -/
theorem length_finalStream_pos {cfg : Config} {slots : List Slot}
    (h : openSlots slots = [] ∧ cfg.flushEmptyGroup = true) : 0 < (finalStream cfg slots).length := by
  rw [finalStream, if_neg (by simp [h.2]), List.length_append, groupBytes, List.length_cons]
  omega

/-- Settles O57: an ended run has written the final stream of decisions that stand for `IN[0..P)`. -/
theorem endedStreamDecodesToInput : Obligations.EndedStreamDecodesToInput := by
  intro s hs hstream hended
  obtain ⟨slots, hslots⟩ := hstream (.inr hended)
  have hdecode := decoderReadsFinalStream s.cfg s.mf.n.toNat slots hslots.valid
  rw [hslots.covers, ← hslots.ended_out hended, MF.covered, Memory.length_bytes] at hdecode
  refine ⟨_, hdecode, ?_, fun hdone => (hs.mf.done_end hdone).1⟩
  split
  · rename_i hempty
    have hpos := length_finalStream_pos hempty
    rw [← hslots.ended_out hended] at hpos
    exact .inr (Nat.sub_add_cancel hpos)
  · exact .inl rfl

end Sys2Proof.Machine
end

section
/-! PROOFS. The fault a command raises of its own (60_exceptions.md R280, R281, R288; 30_encoding.md R93): its reply,
command by command, against the table of the causes. -/

namespace Sys2Proof.Machine

/-! ### Replies and their faults -/

/-- The reply that a fault calls for: that fault, and where there is none a command that executes and enters no fault
state. -/
def Reply.Follows (s : State) : Option Cause → Reply → Prop
  | some c, r => r = .raise c
  | none, r => ∃ t val, r = .done t val ∧ t.sys.faulted = false ∧ t.port = s.port

section
variable {s t : State} {val : Word} {r : Reply} {fault : Option Cause}

theorem Reply.follows_done (hf : t.sys.faulted = false) (hp : t.port = s.port) :
    (Reply.done t val).Follows s none := ⟨t, val, rfl, hf, hp⟩

/-- A check that raises a fault, then the rest. -/
theorem Reply.follows_ite {p q : Prop} [Decidable p] [Decidable q] {c : Cause} (hpq : p ↔ q)
    (h : ¬p → r.Follows s fault) :
    (if p then .raise c else r : Reply).Follows s (if q then some c else fault) := by
  by_cases hp : p
  · rw [if_pos hp, if_pos (hpq.1 hp)]
    rfl
  · rw [if_neg hp, if_neg (mt hpq.2 hp)]
    exact h hp

/-- A read raises what its checks find, in their order (40_bitcursor.md R133). -/
theorem State.replyRead_follows (hf : s.sys.faulted = false) (n : Nat) :
    (s.replyRead n).Follows s (if n = 0 ∨ 32 < n then some .bcBadWidth
      else if 2 ^ 32 - 1 < s.bc.pos.toNat + n then some .bcPosOverflow else none) := by
  rcases s.bc.check_cases n with ⟨hc, hn⟩ | ⟨hc, hlo, hhi, hover⟩ | ⟨hc, hlo, hhi, hfits⟩
  · rw [if_pos hn, State.replyRead, BC.readBits_eq_error.2 hc]
    rfl
  · rw [if_neg (by omega), if_pos (by omega), State.replyRead, BC.readBits_eq_error.2 hc]
    rfl
  · rw [if_neg (by omega), if_neg (by omega), State.replyRead, BC.readBits_eq_ok.2 ⟨hc, rfl⟩]
    exact Reply.follows_done hf rfl

/-- A write raises what its checks find, in their order (40_bitcursor.md R136; log 14). -/
theorem State.replyWrite_follows (hf : s.sys.faulted = false) (n : Nat) (value : Word) :
    (s.replyWrite n value).Follows s (if n = 0 ∨ 32 < n then some .bcBadWidth
      else if 2 ^ 32 - 1 < s.bc.pos.toNat + n then some .bcPosOverflow
      else if 8 * s.bc.len.toNat < s.bc.pos.toNat + n then some .bcWritePastEnd else none) := by
  rcases s.bc.check_cases n with ⟨hc, hn⟩ | ⟨hc, hlo, hhi, hover⟩ | ⟨hc, hlo, hhi, hfits⟩
  · rw [if_pos hn, State.replyWrite, BC.writeBits_eq_error.2 (.inl hc)]
    rfl
  · rw [if_neg (by omega), if_pos (by omega), State.replyWrite, BC.writeBits_eq_error.2 (.inl hc)]
    rfl
  · rw [if_neg (by omega), if_neg (by omega), State.replyWrite]
    by_cases hend : 8 * s.bc.len.toNat < s.bc.pos.toNat + n
    · rw [if_pos hend, BC.writeBits_eq_error.2 (.inr ⟨hc, hend, rfl⟩)]
      rfl
    · rw [if_neg hend, BC.writeBits_eq_ok.2 ⟨hc, by omega, rfl⟩]
      exact Reply.follows_done hf rfl

/-- `MF.INFO` selects a register exactly by a selector of 41_matchfinder.md R187. -/
theorem MF.info_cases (mf : MF) (sel : Byte) :
    (6 < sel.toNat ∧ mf.info sel = none) ∨ (¬6 < sel.toNat ∧ ∃ val, mf.info sel = some val) := by
  unfold MF.info
  generalize sel.toNat = n
  by_cases hn : 6 < n
  · obtain ⟨k, rfl⟩ : ∃ k, n = k + 7 := ⟨n - 7, by omega⟩
    exact .inl ⟨hn, rfl⟩
  · refine .inr ⟨hn, ?_⟩
    interval_cases n <;> exact ⟨_, rfl⟩

/-- `TC.INIT` knows two modes (42_tokencodec.md R221). -/
theorem exec_tcInit_cases (s : State) (mode : Byte) :
    ∃ r, exec (.tcInit mode) s = .next (s.serve r) ∧
      ((1 < mode.toNat ∧ r = .raise .tcBadMode) ∨
        (¬1 < mode.toNat ∧ ∃ m, r = .done { s with tc := s.tc.init s.cfg m } 0)) := by
  refine ⟨_, rfl, ?_⟩
  generalize mode.toNat = n
  rcases n with _ | _ | n
  · exact .inr ⟨by decide, _, rfl⟩
  · exact .inr ⟨by decide, _, rfl⟩
  · exact .inl ⟨by omega, rfl⟩

/-- An unfaulted block answers every command but those that take tokens as the command's own fault says. -/
theorem exec_follows {i : Instr} (hf : s.sys.faulted = false)
    (hrun : ¬(s.mf.st = .running ∧ i.refusedWhileRunning = true)) (hi : i.takesTokens = false) :
    ∃ r : Reply, exec i s = .next (s.answer r) ∧ r.Follows s (s.ownFault i) := by
  have served {r : Reply} (he : exec i s = .next (s.serve r)) (hr : r.Follows s (s.ownFault i)) :
      ∃ r : Reply, exec i s = .next (s.answer r) ∧ r.Follows s (s.ownFault i) :=
    ⟨r, by rw [he, State.serve_unfaulted hf], hr⟩
  have allowed {r : Reply} (hb : i.refusedWhileRunning = true) (he : exec i s = .next (s.serve (s.unlessRunning r)))
      (hr : s.mf.st ≠ .running → r.Follows s (s.ownFault i)) :
      ∃ r : Reply, exec i s = .next (s.answer r) ∧ r.Follows s (s.ownFault i) := by
    have hst : s.mf.st ≠ .running := fun h => hrun ⟨h, hb⟩
    rw [State.unlessRunning_idle hst] at he
    exact served he (hr hst)
  cases i with
  | sysNop | sysStatus => exact ⟨_, rfl, Reply.follows_done hf rfl⟩
  | sysReset => exact ⟨_, rfl, Reply.follows_done rfl rfl⟩
  | bcAlloc len => exact served rfl (Reply.follows_ite Iff.rfl fun _ => Reply.follows_done hf rfl)
  | bcSeek offset => exact served rfl (Reply.follows_ite Iff.rfl fun _ => Reply.follows_done hf rfl)
  | bcReadBits n => exact served rfl (State.replyRead_follows hf _)
  | bcWriteBits n value => exact served rfl (State.replyWrite_follows hf _ value)
  | bcReadByte => exact served rfl (State.replyRead_follows hf 8)
  | bcWriteByte value => exact served rfl (State.replyWrite_follows hf 8 value)
  | mfClear => exact allowed rfl rfl fun _ => Reply.follows_done hf rfl
  | mfStart => exact allowed rfl rfl fun _ => Reply.follows_done hf rfl
  | mfPut byte =>
    refine allowed rfl rfl fun hst => Reply.follows_ite ?_ fun _ =>
      Reply.follows_ite Iff.rfl fun _ => Reply.follows_done hf rfl
    cases h : s.mf.st <;> simp_all
  | mfGet addr =>
    exact allowed rfl rfl fun _ => Reply.follows_ite Iff.rfl fun _ => Reply.follows_done hf rfl
  | mfCancel =>
    refine served rfl ?_
    split
    · exact Reply.follows_done hf rfl
    · exact Reply.follows_done hf rfl
  | mfInfo sel =>
    refine served rfl ?_
    rcases s.mf.info_cases sel with ⟨hsel, hinfo⟩ | ⟨hsel, val, hinfo⟩
    · rw [hinfo, State.ownFault, if_pos hsel]
      rfl
    · rw [hinfo, State.ownFault, if_neg hsel]
      exact Reply.follows_done hf rfl
  | tcInit mode =>
    obtain ⟨r, he, ⟨hmode, rfl⟩ | ⟨hmode, m, rfl⟩⟩ := exec_tcInit_cases s mode
    · refine served he ?_
      rw [State.ownFault, if_pos hmode]
      rfl
    · refine served he ?_
      rw [State.ownFault, if_neg hmode]
      exact Reply.follows_done hf rfl
  | tcRelease => exact served rfl (Reply.follows_done hf rfl)
  | tcRdPkt idx => exact served rfl (Reply.follows_ite Iff.rfl fun _ => Reply.follows_done hf rfl)
  | tcNext | tcPacket => cases hi

/-- The only fault of its own of a command that takes tokens is that of a bad count. -/
theorem exec_takesTokens {i : Instr} {c : Cause} (hf : s.sys.faulted = false) (hi : i.takesTokens = true)
    (hc : s.ownFault i = some c) : exec i s = .next (s.raiseFault c) := by
  cases i with
  | tcNext => cases hc
  | tcPacket k =>
    rw [State.ownFault] at hc
    split at hc
    · rename_i hk
      cases hc
      rw [exec, execTcPacket, State.serve_unfaulted hf, if_pos hk, State.answer_raise]
    · cases hc
  | _ => cases hi

end

/-- Settles O42: a command's reply is the one its own fault calls for, and the codes are those of the table. -/
theorem commandFaults : Obligations.CommandFaults := by
  refine ⟨fun s i hf hrun => ?own, by decide⟩
  cases hi : i.takesTokens with
  | true => exact ⟨fun c hc => ⟨_, exec_takesTokens hf hi hc, s.raises_raiseFault c⟩, fun _ h => by cases h⟩
  | false =>
    obtain ⟨r, he, hr⟩ := exec_follows hf hrun hi
    refine ⟨fun c hc => ?fault, fun hnone _ => ?executed⟩
    case fault =>
      rw [hc] at hr
      obtain rfl : r = .raise c := hr
      exact ⟨_, he, s.raises_raiseFault c⟩
    case executed =>
      rw [hnone] at hr
      obtain ⟨t, val, rfl, hft, hport⟩ := hr
      refine ⟨_, val, he, hft, ?_⟩
      rw [State.Answers, State.answer_done, ← hport]
      rfl

end Sys2Proof.Machine
end

section
/-! PROOFS. `TC.PACKET` in `ANTIREP5` (42_tokencodec.md R228, R229, R231, R240; 30_encoding.md R117): why no selection
faults, what a run of selections leaves in the FIFO, and the packet of its codes. -/

namespace Sys2Proof.Machine

variable {cfg : Config} {tc tc' : TC} {idxs : List Nat}

/-! ### The usable symbols -/

/-- The entries of a list with one value, counted at their indices. -/
theorem count_eq_length_filter_range (l : List Bool) (b : Bool) :
    l.count b = ((List.range l.length).filter (fun i => l[i]? = some b)).length := by
  induction l with
  | nil => rfl
  | cons x xs ih =>
    rw [List.count_cons, ih, List.length_cons, List.range_succ_eq_map, List.filter_cons, List.filter_map]
    by_cases hx : x = b <;> simp [hx, Function.comp_def]

/-- Every symbol is usable or in the FIFO (10_state.md R45). -/
theorem TC.Inv.count_usable (h : tc.Inv cfg) : tc.usable.count true + tc.arq.length = cfg.a5Size := by
  have hperm : tc.arq.Perm ((List.range tc.usable.length).filter (fun i => tc.usable[i]? = some false)) := by
    refine (List.perm_ext_iff_of_nodup h.arq_nodup (List.nodup_range.filter _)).2 fun i => ?_
    rw [List.mem_filter, List.mem_range, h.usable_length, decide_eq_true_iff]
    exact ⟨fun hi => ⟨h.arq_lt i hi, (h.usable_iff i (h.arq_lt i hi)).2 hi⟩,
      fun ⟨hlt, hi⟩ => (h.usable_iff i hlt).1 hi⟩
  rw [hperm.length_eq, ← count_eq_length_filter_range, List.count_true_add_count_false, h.usable_length]

/-! ### Selections -/

/-- With 43 symbols at least 32 are usable, so that no 5-bit value faults (42_tokencodec.md R229). -/
theorem TC.Inv.select_of_43 (h : tc.Inv cfg) (hsize : 43 ≤ cfg.a5Size) {v : Nat} (hv : v < 32) :
    ∃ idx tc', tc.select v = .ok (idx, tc') := by
  have hcount := h.count_usable
  have harq := h.arq_length
  simp only [arDepth] at harq
  obtain ⟨idx, hidx⟩ := Option.isSome_iff_exists.1 (nthUsable_isSome.2 (show v < tc.usable.count true by omega))
  exact ⟨idx, _, TC.select_eq_ok.2 ⟨hidx, rfl⟩⟩

/-- The FIFO after a selection: the last 11 of its entries and the index selected (42_tokencodec.md R231). -/
theorem TC.arq_markUsed_restoreOldest (tc : TC) (h : tc.arq.length < 12) (idx : Nat) :
    ((tc.markUsed idx).restoreOldest).arq = (tc.arq ++ [idx]).drop (tc.arq.length + 1 - 11) := by
  have hlen : (tc.markUsed idx).arq.length = tc.arq.length + 1 := by simp
  rcases (tc.markUsed idx).restoreOldest_cases with ⟨hfull, he⟩ | ⟨hroom, he⟩ <;> rw [he]
  · rw [show tc.arq.length + 1 - 11 = 1 by omega, List.drop_one]
    rfl
  · rw [show tc.arq.length + 1 - 11 = 0 by omega]
    rfl

/-- What a run of selections leaves: the invariant, the mode and the packet, and in the FIFO the last 11 of its
entries and the indices selected. -/
structure TC.AfterSelections (cfg : Config) (tc : TC) (idxs : List Nat) (tc' : TC) : Prop where
  inv : tc'.Inv cfg
  lt : ∀ i ∈ idxs, i < cfg.a5Size
  mode : tc'.mode = tc.mode
  pkt : tc'.pkt = tc.pkt
  arq : tc'.arq = (tc.arq ++ idxs).drop (tc.arq.length + idxs.length - 11)

theorem TC.Inv.afterSelection (h : tc.Inv cfg) {v idx : Nat} (hs : tc.select v = .ok (idx, tc')) :
    tc.AfterSelections cfg [idx] tc' := by
  obtain ⟨hidx, rfl⟩ := TC.select_eq_ok.1 hs
  refine ⟨h.markUsed_restoreOldest hidx, ?_, TC.restoreOldest_mode _, TC.restoreOldest_pkt _,
    tc.arq_markUsed_restoreOldest h.arq_length idx⟩
  intro i hi
  rw [List.mem_singleton.1 hi, ← h.usable_length]
  exact (List.getElem?_eq_some_iff.1 (nthUsable_usable hidx)).1

/-- A selection and then a run. -/
theorem TC.AfterSelections.cons {tc1 : TC} {idx : Nat} (harq : tc.arq.length < 12)
    (h : tc.AfterSelections cfg [idx] tc1) (h' : tc1.AfterSelections cfg idxs tc') :
    tc.AfterSelections cfg (idx :: idxs) tc' := by
  refine ⟨h'.inv, List.forall_mem_cons.2 ⟨h.lt idx (List.mem_singleton.2 rfl), h'.lt⟩, h'.mode.trans h.mode,
    h'.pkt.trans h.pkt, ?_⟩
  have harq1 := h.arq
  have hlen1 : tc1.arq.length = tc.arq.length + 1 - (tc.arq.length + 1 - 11) := by
    rw [harq1]; simp
  rw [List.length_singleton] at harq1
  rw [h'.arq, hlen1, harq1, ← List.drop_append_of_le_length (by simp; omega), List.drop_drop, List.append_assoc,
    List.singleton_append, List.length_cons]
  congr 1
  omega

theorem TC.afterSelections_nil (h : tc.Inv cfg) : tc.AfterSelections cfg [] tc := by
  have harq := h.arq_length
  simp only [arDepth] at harq
  refine ⟨h, by simp, rfl, rfl, ?_⟩
  rw [List.append_nil, List.length_nil, show tc.arq.length + 0 - 11 = 0 by omega, List.drop_zero]

/-- A run of selections after a first one. -/
theorem TC.selectAll_cons {tc1 : TC} {v idx : Nat} {vs : List Nat} (h : tc.select v = .ok (idx, tc1))
    (hs : tc1.selectAll vs = .ok (idxs, tc')) : tc.selectAll (v :: vs) = .ok (idx :: idxs, tc') := by
  rw [TC.selectAll, h]
  simp only [hs]

theorem TC.selectAll_cons_eq_ok {v : Nat} {vs : List Nat} (h : tc.selectAll (v :: vs) = .ok (idxs, tc')) :
    ∃ idx tc1 rest, tc.select v = .ok (idx, tc1) ∧ tc1.selectAll vs = .ok (rest, tc') ∧ idxs = idx :: rest := by
  rw [TC.selectAll] at h
  split at h
  · cases h
  · rename_i idx tc1 hs
    split at h
    · cases h
    · rename_i rest tc2 hrun
      cases h
      exact ⟨idx, tc1, rest, hs, hrun, rfl⟩

/-- With 43 symbols a run of selections of 5-bit values succeeds, and gives one index per value. -/
theorem TC.Inv.selectAll_of_43 (h : tc.Inv cfg) (hsize : 43 ≤ cfg.a5Size) {vs : List Nat} (hvs : ∀ v ∈ vs, v < 32) :
    ∃ idxs tc', tc.selectAll vs = .ok (idxs, tc') ∧ idxs.length = vs.length ∧ tc.AfterSelections cfg idxs tc' := by
  induction vs generalizing tc with
  | nil => exact ⟨[], tc, rfl, rfl, TC.afterSelections_nil h⟩
  | cons v vs ih =>
    obtain ⟨hv, hvs⟩ := List.forall_mem_cons.1 hvs
    obtain ⟨idx, tc1, hs⟩ := h.select_of_43 hsize hv
    have hfirst := h.afterSelection hs
    obtain ⟨idxs, tc', hrun, hlen, hrest⟩ := ih hfirst.inv hvs
    exact ⟨idx :: idxs, tc', TC.selectAll_cons hs hrun, by rw [List.length_cons, List.length_cons, hlen],
      hfirst.cons h.arq_length hrest⟩

/-- Up to 11 selections are pairwise different: all of them are still in the FIFO (42_tokencodec.md R232). -/
theorem TC.AfterSelections.nodup (h : tc.AfterSelections cfg idxs tc') (hlen : idxs.length ≤ 11) : idxs.Nodup := by
  have hnodup := h.inv.arq_nodup
  rw [h.arq, List.drop_append_of_le_length (by omega)] at hnodup
  exact (List.nodup_append.1 hnodup).2.1

/-! ### Runs of the anti-repeat 5-bit policy -/

/-- The `k` 5-bit values at the cursor, in order (42_tokencodec.md R224). -/
def antirepValues (b : BC) (k : Nat) : List Nat :=
  (List.range k).map fun j => b.bitsAt (b.pos.toNat + 5 * j) 5

theorem length_antirepValues (b : BC) (k : Nat) : (antirepValues b k).length = k := by
  simp [antirepValues]

theorem antirepValues_lt {b : BC} {k v : Nat} (h : v ∈ antirepValues b k) : v < 32 := by
  obtain ⟨j, -, rfl⟩ := List.mem_map.1 h
  exact b.bitsAt_lt _ 5

theorem antirepValues_succ {b : BC} (h : b.pos.toNat + 5 ≤ 4294967295) (k : Nat) :
    antirepValues b (k + 1) = b.bitsAt b.pos.toNat 5 :: antirepValues (b.advance 5) k := by
  have hshift (j : Nat) : b.pos.toNat + 5 * (j + 1) = b.pos.toNat + 5 + 5 * j := by omega
  simp only [antirepValues, List.range_succ_eq_map, List.map_cons, List.map_map, Function.comp_def,
    Nat.succ_eq_add_one, hshift, BC.bitsAt_advance, BC.toNat_pos_advance h, Nat.mul_zero, Nat.add_zero]

/-- The codes of some indices of the alphabet. -/
def antirepCodes (cfg : Config) (idxs : List Nat) : List Byte := idxs.map fun i => cfg.alpha5.getD i 0

theorem length_antirepCodes (cfg : Config) (idxs : List Nat) : (antirepCodes cfg idxs).length = idxs.length :=
  List.length_map _

/-- Each code is the alphabet's entry at its index, which the alphabet has. -/
theorem antirepCodes_entry (hlt : ∀ i ∈ idxs, i < cfg.a5Size) {i : Nat} (hi : i < idxs.length) :
    ∃ idx, idxs[i]? = some idx ∧ (antirepCodes cfg idxs)[i]? = cfg.alpha5[idx]? := by
  have hidx : idxs[i] < cfg.alpha5.length := hlt _ (List.getElem_mem hi)
  exact ⟨idxs[i], List.getElem?_eq_getElem hi, by simp [antirepCodes, hi, hidx]⟩

/-- One symbol of `ANTIREP5`, where the cursor does not overflow and the selection succeeds. -/
theorem TokenState.next_of_antirep5 {ts : TokenState} {idx : Nat} (hm : ts.tc.mode = .antirep5)
    (hp : ts.bc.pos.toNat + 5 ≤ 4294967295) (hs : ts.tc.select (ts.bc.bitsAt ts.bc.pos.toNat 5) = .ok (idx, tc')) :
    ts.next cfg = .ok (cfg.alpha5.getD idx 0, { bc := ts.bc.advance 5, tc := tc' }) := by
  have hr : ts.bc.readBits 5 = .ok (ts.bc.bitsAt ts.bc.pos.toNat 5, ts.bc.advance 5) :=
    BC.readBits_eq_ok.2 ⟨BC.check_eq_none.2 ⟨by decide, by decide, hp⟩, rfl⟩
  simp [TokenState.next, hm, TokenState.nextAntirep, hr, hs]

/-- A run of `ANTIREP5` selects for its values in order, and moves the cursor past them (42_tokencodec.md R240). -/
theorem TokenState.take_of_antirep5 {ts : TokenState} {k : Nat} (hm : ts.tc.mode = .antirep5)
    (hp : ts.bc.pos.toNat + 5 * k ≤ 4294967295)
    (hs : ts.tc.selectAll (antirepValues ts.bc k) = .ok (idxs, tc')) :
    ts.take cfg k = .ok (antirepCodes cfg idxs, { bc := ts.bc.advance (5 * k), tc := tc' }) := by
  induction k generalizing ts idxs with
  | zero =>
    cases hs
    simp [TokenState.take, antirepCodes]
  | succ k ih =>
    have hp5 : ts.bc.pos.toNat + 5 ≤ 4294967295 := by omega
    rw [antirepValues_succ hp5] at hs
    obtain ⟨idx, tc1, rest, hsel, hrun, rfl⟩ := TC.selectAll_cons_eq_ok hs
    have hm1 : tc1.mode = .antirep5 := by
      obtain ⟨-, rfl⟩ := TC.select_eq_ok.1 hsel
      rwa [TC.restoreOldest_mode]
    have hrest := ih (ts := ⟨ts.bc.advance 5, tc1⟩) hm1 (by rw [BC.toNat_pos_advance hp5]; omega) hrun
    rw [TokenState.take, TokenState.next_of_antirep5 hm hp5 hsel]
    simp only [hrest, antirepCodes, List.map_cons, BC.advance_advance, Nat.mul_succ, Nat.add_comm]

/-! ### The command -/

/-- Settles O35: with 43 symbols the run of selections succeeds, its codes make the packet, and as at most 6 it keeps
its indices in the FIFO. -/
theorem tcPacketAntirepResult : Obligations.TcPacketAntirepResult := by
  intro s k hs hf hm hsize hlo hhi hp
  obtain ⟨idxs, tc', hsel, hlen, hafter⟩ :=
    hs.tc.selectAll_of_43 hsize (vs := antirepValues s.bc k.toNat) fun _ => antirepValues_lt
  rw [length_antirepValues] at hlen
  have htake := TokenState.take_of_antirep5 (cfg := s.cfg) (ts := ⟨s.bc, s.tc⟩) hm hp hsel
  have hcodes : (antirepCodes s.cfg idxs).length = k.toNat := by rw [length_antirepCodes, hlen]
  refine ⟨_, idxs, exec_tcPacket_of_take hf hlo hhi htake, length_streamPacket (by omega), streamPacket_type ..,
    streamPacket_modifier .., hlen, hafter.nodup (by omega), ?selections, fun i hi => ?code,
    fun i hki hi => streamPacket_padding (by omega) hi, ?fifo, hafter.mode, BC.toNat_pos_advance hp,
    rfl, rfl, rfl, rfl, rfl, rfl⟩
  case selections =>
    rw [← hafter.pkt]
    exact hsel
  case code =>
    obtain ⟨idx, hidx, hcode⟩ := antirepCodes_entry hafter.lt (hlen ▸ hi)
    exact ⟨idx, hidx, (streamPacket_code (hcodes ▸ hi)).trans hcode⟩
  case fifo =>
    rw [← hlen]
    exact hafter.arq

end Sys2Proof.Machine
end

section
/-! PROOFS. The bit cursor (40_bitcursor.md R131 to R139): a read bit by bit, the commands that execute, and the laws
of writing and reading back, of splitting a read, of whole words and of reads past the end. -/

namespace Sys2Proof.Machine

/-! ### The bits of a read -/

/-- The first bit read is the most significant one of the value, and nothing stands above it (20_memory.md R65). -/
theorem BC.testBit_bitsAt (b : BC) (k n i : Nat) :
    (b.bitsAt k n).testBit i = (decide (i < n) && b.bit (k + (n - 1 - i))) := by
  induction n generalizing k with
  | zero => simp
  | succ n ih =>
    rw [BC.bitsAt_succ, Nat.mul_comm, Nat.testBit_two_pow_mul_add _ (b.bitsAt_lt _ n), ih]
    rcases Nat.lt_trichotomy i n with hlt | rfl | hgt
    · have hidx : k + 1 + (n - 1 - i) = k + (n + 1 - 1 - i) := by omega
      simp [hlt, Nat.lt_succ_of_lt hlt, hidx]
    · have hidx : k + (i + 1 - 1 - i) = k := by omega
      rw [hidx]
      cases b.bit k <;> simp
    · have hshift : i - n = i - n - 1 + 1 := by omega
      rw [if_neg (by omega), hshift, Nat.testBit_add_one]
      cases b.bit k <;> simp <;> omega

/-- A byte-aligned read of 8 bits inside the buffer is that byte. -/
theorem BC.bitsAt_byte {b : BC} {a : Nat} (h : a < b.len.toNat) : b.bitsAt (8 * a) 8 = (b.buf.read a).toNat := by
  refine Nat.eq_of_testBit_eq fun i => ?_
  rw [BC.testBit_bitsAt, BitVec.testBit_toNat]
  by_cases hi : i < 8
  · have hin : 8 * a + (8 - 1 - i) < 8 * b.len.toNat := by omega
    have hbyte : (8 * a + (8 - 1 - i)) / 8 = a := by omega
    have hbit : 7 - (8 * a + (8 - 1 - i)) % 8 = i := by omega
    rw [BC.bit, if_pos hin, hbyte, hbit]
    simp [hi]
  · rw [BitVec.getLsbD_of_ge _ _ (by omega)]
    simp [hi]

/-- A byte-aligned read of 32 bits inside the buffer is four bytes, the first the most significant. -/
theorem BC.bitsAt_word {b : BC} {a : Nat} (h : a + 4 ≤ b.len.toNat) :
    b.bitsAt (8 * a) 32 = (b.buf.read a).toNat * 2 ^ 24 + (b.buf.read (a + 1)).toNat * 2 ^ 16 +
      (b.buf.read (a + 2)).toNat * 2 ^ 8 + (b.buf.read (a + 3)).toNat := by
  have hsplit : b.bitsAt (8 * a) 32 = b.bitsAt (8 * a) 8 * 2 ^ 24 + b.bitsAt (8 * (a + 1)) 8 * 2 ^ 16 +
      b.bitsAt (8 * (a + 2)) 8 * 2 ^ 8 + b.bitsAt (8 * (a + 3)) 8 := by
    rw [b.bitsAt_add _ 8 24, b.bitsAt_add _ 8 16, b.bitsAt_add _ 8 8]
    simp only [Nat.mul_add, Nat.add_assoc, Nat.reduceMul, Nat.reduceAdd]
  rw [hsplit, BC.bitsAt_byte (by omega), BC.bitsAt_byte (by omega), BC.bitsAt_byte (by omega),
    BC.bitsAt_byte (by omega)]

/-- Past the end every bit is 0. -/
theorem BC.bitsAt_past_end {b : BC} {k : Nat} (h : 8 * b.len.toNat ≤ k) (n : Nat) : b.bitsAt k n = 0 := by
  refine Nat.eq_of_testBit_eq fun i => ?_
  rw [BC.testBit_bitsAt, BC.bit, if_neg (by omega), Bool.and_false, Nat.zero_testBit]

/-- The bits a write puts into the buffer are the low bits of its value. -/
theorem BC.bitsAt_scatter {b : BC} (h : b.buf.wf) (value : Word) {n : Nat}
    (hend : b.pos.toNat + n ≤ 8 * b.len.toNat) :
    BC.bitsAt { b with buf := b.buf.scatter value b.pos.toNat n } b.pos.toNat n = value.toNat % 2 ^ n := by
  refine Nat.eq_of_testBit_eq fun i => ?_
  rw [BC.testBit_bitsAt, BC.bit_scatter h value hend, Nat.testBit_mod_two_pow, BitVec.testBit_toNat]
  by_cases hi : i < n
  · have hidx : n - 1 - (b.pos.toNat + (n - 1 - i) - b.pos.toNat) = i := by omega
    rw [if_pos (by omega), hidx]
  · simp [hi]

/-- Joining two values as `(x << n) or y` (40_bitcursor.md R139 b) is their sum at their places. -/
theorem ofNat_shiftLeft_or {w n x y : Nat} (hy : y < 2 ^ n) :
    BitVec.ofNat w x <<< n ||| BitVec.ofNat w y = BitVec.ofNat w (x * 2 ^ n + y) := by
  refine BitVec.eq_of_getLsbD_eq fun i hi => ?_
  rw [Nat.mul_comm, BitVec.getLsbD_or, BitVec.getLsbD_shiftLeft, BitVec.getLsbD_ofNat, BitVec.getLsbD_ofNat,
    BitVec.getLsbD_ofNat, Nat.testBit_two_pow_mul_add _ hy]
  by_cases hin : i < n
  · simp [hin]
  · have hhigh : y.testBit i = false :=
      Nat.testBit_lt_two_pow (Nat.lt_of_lt_of_le hy (Nat.pow_le_pow_right (by decide) (by omega)))
    have hlow : i - n < w := by omega
    simp [hin, hi, hlow, hhigh]

/-! ### The commands that execute -/

section
variable {s : State}

/-- `BC.ALLOC` within the capacity (40_bitcursor.md R131). -/
theorem exec_bcAlloc_of_le {len : Word} (hf : s.sys.faulted = false) (h : len.toNat ≤ s.cfg.bufCap) :
    exec (.bcAlloc len) s = .next (State.respond
      { s with bc := { buf := s.bc.buf.zeroFill len.toNat, len := len, pos := 0 } } 0x00 0) := by
  rw [exec, execBcAlloc, State.serve_unfaulted hf, if_neg (by omega), State.answer_done]

/-- `BC.SEEK` within the buffer (40_bitcursor.md R132). -/
theorem exec_bcSeek_of_le {o : Word} (hf : s.sys.faulted = false) (h : o.toNat ≤ 8 * s.bc.len.toNat) :
    exec (.bcSeek o) s = .next (State.respond { s with bc := { s.bc with pos := o } } 0x00 0) := by
  rw [exec, execBcSeek, State.serve_unfaulted hf, if_neg (by omega), State.answer_done]

/-- Both read commands are the same read (40_bitcursor.md R137). -/
theorem exec_read {i : Instr} {n : Nat}
    (hi : (∃ a, i = .bcReadBits a ∧ a.toNat = n) ∨ (i = .bcReadByte ∧ n = 8)) (s : State) :
    exec i s = .next (s.serve (s.replyRead n)) := by
  rcases hi with ⟨a, rfl, rfl⟩ | ⟨rfl, rfl⟩ <;> rfl

/-- Both read commands, where the checks of 40_bitcursor.md R133 pass (R135, R137). -/
theorem exec_read_of_fits {i : Instr} {n : Nat}
    (hi : (∃ a, i = .bcReadBits a ∧ a.toNat = n) ∨ (i = .bcReadByte ∧ n = 8)) (hf : s.sys.faulted = false)
    (hlo : 1 ≤ n) (hhi : n ≤ 32) (hp : s.bc.pos.toNat + n ≤ 4294967295) :
    exec i s = .next (State.respond { s with bc := s.bc.advance n } 0x00
      (BitVec.ofNat 32 (s.bc.bitsAt s.bc.pos.toNat n))) := by
  have hread : s.bc.readBits n = .ok (s.bc.bitsAt s.bc.pos.toNat n, s.bc.advance n) :=
    BC.readBits_eq_ok.2 ⟨BC.check_eq_none.2 ⟨hlo, hhi, hp⟩, rfl⟩
  rw [exec_read hi, State.serve_unfaulted hf, State.replyRead, hread, State.answer_done]

/-- `BC.READBITS`, where the checks pass. -/
theorem exec_bcReadBits_of_fits {n : Byte} (hf : s.sys.faulted = false) (hlo : 1 ≤ n.toNat) (hhi : n.toNat ≤ 32)
    (hp : s.bc.pos.toNat + n.toNat ≤ 4294967295) :
    exec (.bcReadBits n) s = .next (State.respond { s with bc := s.bc.advance n.toNat } 0x00
      (BitVec.ofNat 32 (s.bc.bitsAt s.bc.pos.toNat n.toNat))) :=
  exec_read_of_fits (.inl ⟨n, rfl, rfl⟩) hf hlo hhi hp

/-- Both write commands, where the checks pass and the write ends inside the buffer (40_bitcursor.md R136, R138). -/
theorem exec_write_of_fits {i : Instr} {n : Nat} {value : Word}
    (hi : (∃ a, i = .bcWriteBits a value ∧ a.toNat = n) ∨ (i = .bcWriteByte value ∧ n = 8))
    (hf : s.sys.faulted = false) (hlo : 1 ≤ n) (hhi : n ≤ 32) (hp : s.bc.pos.toNat + n ≤ 4294967295)
    (hend : s.bc.pos.toNat + n ≤ 8 * s.bc.len.toNat) :
    exec i s = .next (State.respond
      { s with bc := { s.bc with buf := s.bc.buf.scatter value s.bc.pos.toNat n }.advance n } 0x00 0) := by
  have hwrite : s.bc.writeBits n value = .ok ({ s.bc with buf := s.bc.buf.scatter value s.bc.pos.toNat n }.advance n) :=
    BC.writeBits_eq_ok.2 ⟨BC.check_eq_none.2 ⟨hlo, hhi, hp⟩, hend, rfl⟩
  rw [exec_write hi, State.serve_unfaulted hf, State.replyWrite, hwrite, State.answer_done]

/-- One command, then the rest from the state it left. -/
theorem execList_cons {i : Instr} {is : List Instr} {t u : State} (h : exec i s = .next t)
    (hrest : execList is t = some u) : execList (i :: is) s = some u := by
  rw [execList, h]
  exact hrest

/-- The buffer of a state of the invariant ends where the cursor still fits its register (00_scope.md R6). -/
theorem State.Inv.bits_le (h : s.Inv) : 8 * s.bc.len.toNat ≤ 4294967295 := by
  obtain ⟨-, -, ⟨-, hcap⟩, -, -⟩ := h.cfg_wf
  have hlen := h.bc.len_le
  omega

end

/-! ### The statements -/

/-- Settles O3: by O1 a word decodes to the command it encodes, and each word is its command's encoding. -/
theorem exampleWordsDecode : Obligations.ExampleWordsDecode := by
  have hdecode : ∀ w i, decode w = .ok i ↔ w = encode i := wordDecodesIffEncoded
  simp only [Obligations.ExampleWordsDecode, hdecode]
  decide

/-- Settles O9: a bit of a byte is a quotient's remainder. -/
theorem bitFunction : Obligations.BitFunction := by
  intro b k
  constructor
  · intro hk
    rw [BC.bit, if_pos hk, ← BitVec.testBit_toNat, Nat.toNat_testBit]
  · intro hk
    rw [BC.bit, if_neg (by omega)]

/-- Settles O10: the zero fill reads as `Memory.read_zeroFill` says. -/
theorem bcAllocResult : Obligations.BcAllocResult := by
  intro s len hw hf hlen
  refine ⟨_, exec_bcAlloc_of_le hf hlen, rfl, rfl, fun a ha => ?_, fun a ha => ?_, rfl, rfl, rfl, rfl, rfl⟩
  · rw [State.respond_bc, Memory.read_zeroFill hw, if_pos ha]
  · rw [State.respond_bc, Memory.read_zeroFill hw, if_neg (by omega)]

/-- Settles O11: inside the buffer the check passes, and the seek writes POS alone. -/
theorem bcSeekResult : Obligations.BcSeekResult := by
  intro s o hf ho
  exact ⟨_, exec_bcSeek_of_le hf ho, rfl, rfl, rfl, rfl, rfl, rfl, rfl, rfl⟩

/-- Settles O12: the bits of the value are those of `BC.testBit_bitsAt`. -/
theorem bcReadResult : Obligations.BcReadResult := by
  intro s i n hi hf hlo hhi hp
  refine ⟨_, _, exec_read_of_fits hi hf hlo hhi hp, rfl, fun j hj => ?low, fun j hj => ?high,
    BC.toNat_pos_advance hp, rfl, rfl, rfl, rfl, rfl, rfl⟩
  case low =>
    have hidx : n - 1 - (n - 1 - j) = j := by omega
    have hwidth : n - 1 - j < 32 := by omega
    have hlow : n - 1 - j < n := by omega
    rw [BitVec.getLsbD_ofNat, BC.testBit_bitsAt, hidx]
    simp [hwidth, hlow]
  case high =>
    rw [BitVec.getLsbD_ofNat, BC.testBit_bitsAt]
    simp [Nat.not_lt.2 hj]

/-- Settles O14: after the second seek the read finds at the offset the bits that `BC.bitsAt_scatter` says the write
put there. -/
theorem writtenBitsReadBack : Obligations.WrittenBitsReadBack := by
  intro s o value n hs hf hlo hhi hend
  have hfits : o.toNat + n.toNat ≤ 4294967295 := Nat.le_trans hend hs.bits_le
  have hseek : o.toNat ≤ 8 * s.bc.len.toNat := by omega
  refine ⟨_, execList_cons (exec_bcSeek_of_le hf hseek) <|
    execList_cons (exec_write_of_fits (.inl ⟨n, rfl, rfl⟩) hf hlo hhi hfits hend) <|
    execList_cons (exec_bcSeek_of_le hf hseek) <|
    execList_cons (exec_bcReadBits_of_fits hf hlo hhi hfits) rfl, ?_⟩
  have hread := BC.bitsAt_scatter (b := { s.bc with pos := o }) hs.bc.buf_wf value hend
  rw [← hread]
  rfl

/-- Settles O15: the value of one read is the two values at their places (`BC.bitsAt_add`), and the cursor advances by
the sum of the widths. -/
theorem splitReadsJoin : Obligations.SplitReadsJoin := by
  intro s n1 n2 hf h1 h2 hwidth hp
  have hsum : (n1 + n2).toNat = n1.toNat + n2.toNat := BitVec.toNat_add_of_lt (by omega)
  have hpos : (s.bc.advance n1.toNat).pos.toNat = s.bc.pos.toNat + n1.toNat := BC.toNat_pos_advance (by omega)
  have hone : exec (.bcReadBits (n1 + n2)) s = _ := exec_bcReadBits_of_fits hf (by omega) (by omega) (by omega)
  rw [hsum, BC.bitsAt_add, ← ofNat_shiftLeft_or (s.bc.bitsAt_lt _ _)] at hone
  refine ⟨_, _, _, _, execList_cons (exec_bcReadBits_of_fits hf h1 (by omega) (by omega)) <|
    execList_cons (exec_bcReadBits_of_fits hf h2 (by omega) ?second) rfl, rfl, execList_cons hone rfl, ?joined,
    BC.advance_advance ..⟩
  case second =>
    rw [State.respond_bc, hpos]
    omega
  case joined =>
    rw [State.respond_responses, State.respond_bc, hpos, BC.bitsAt_advance]
    rfl

/-- Settles O16: four byte-aligned reads join to the word read, and past the end every bit is 0. -/
theorem wordReadsAndReadsPastEnd : Obligations.WordReadsAndReadsPastEnd := by
  constructor
  · intro s a hs hf hpos hend
    have hbits := hs.bits_le
    refine ⟨_, _, exec_read_of_fits (n := 32) (.inl ⟨_, rfl, rfl⟩) hf (by decide) (by decide) (by omega), rfl, ?_⟩
    rw [hpos, BitVec.toNat_ofNat, Nat.mod_eq_of_lt (s.bc.bitsAt_lt _ 32)]
    exact BC.bitsAt_word hend
  · intro s n hf hlo hhi hp hend
    refine ⟨_, exec_bcReadBits_of_fits hf hlo hhi hp, ?_⟩
    rw [BC.bitsAt_past_end hend]
    rfl

end Sys2Proof.Machine
end

section
/-! PROOFS. The engine's turn (41_matchfinder.md R178 to R181; 60_exceptions.md R281, R284): a step of a running
compression writes out what it flushes, faults exactly where that does not fit, and never stops the model. -/

namespace Sys2Proof.Machine

variable {cfg : Config} {mf mf' : MF} {s : State}

/-! ### What a flush leaves -/

/-- The two matchers differ at most in the output and the open group. -/
def MF.OnlyFlushes (mf mf' : MF) : Prop :=
  ∃ out olen ctrl fill slen, mf' = { mf with out := out, olen := olen, ctrl := ctrl, fill := fill, slen := slen }

theorem MF.OnlyFlushes.refl (mf : MF) : mf.OnlyFlushes mf := ⟨_, _, _, _, _, rfl⟩

theorem MF.OnlyFlushes.trans {mf1 : MF} (h : mf.OnlyFlushes mf1) (h' : mf1.OnlyFlushes mf') : mf.OnlyFlushes mf' := by
  obtain ⟨out, olen, ctrl, fill, slen, rfl⟩ := h
  obtain ⟨out', olen', ctrl', fill', slen', rfl⟩ := h'
  exact ⟨_, _, _, _, _, rfl⟩

theorem MF.flushGroup_onlyFlushes (h : mf.flushGroup cfg = .ok mf') : mf.OnlyFlushes mf' := by
  obtain ⟨-, rfl⟩ := MF.flushGroup_eq_ok.1 h
  exact ⟨_, _, _, _, _, rfl⟩

theorem MF.flushFinal_onlyFlushes (h : mf.flushFinal cfg = .ok mf') : mf.OnlyFlushes mf' := by
  rcases mf.flushFinal_cases cfg with ⟨he, -⟩ | ⟨he, -⟩
  · exact MF.flushGroup_onlyFlushes (he ▸ h)
  · cases he.symm.trans h
    exact .refl mf

/-- The end of a step only flushes, and ends the run exactly where P has reached N (41_matchfinder.md R181). -/
theorem MF.closeStep_onlyFlushes (h : mf.closeStep cfg = .ok mf') :
    ∃ mf1, mf.OnlyFlushes mf1 ∧ mf' = { mf1 with st := if mf.p = mf.n then .done else mf.st } := by
  obtain ⟨mf1, h1, hclose⟩ := MF.closeStep_eq_ok h
  have hflush1 : mf.OnlyFlushes mf1 := by
    split at h1
    · exact MF.flushGroup_onlyFlushes h1
    · cases h1
      exact .refl mf
  obtain ⟨out, olen, ctrl, fill, slen, rfl⟩ := hflush1
  rcases hclose with ⟨hp, rfl⟩ | ⟨hp, mf2, h2, rfl⟩
  · exact ⟨_, ⟨out, olen, ctrl, fill, slen, rfl⟩, by rw [if_neg hp]⟩
  · exact ⟨mf2, .trans ⟨_, _, _, _, _, rfl⟩ (MF.flushFinal_onlyFlushes h2), by rw [if_pos hp]⟩

/-! ### How much a step writes out -/

@[simp] theorem MF.length_stream (mf : MF) : mf.stream.length = mf.olen.toNat := Memory.length_bytes ..

@[simp] theorem MF.length_staged (mf : MF) : mf.staged.length = mf.slen.toNat := Memory.length_bytes ..

/-- The open group is written out on a cancellation, unless it is empty and empty groups are left out. -/
theorem MF.length_stepOutput_of_cancel (hreq : mf.cancelReq = true) :
    (mf.stepOutput cfg).length =
      if 0 < mf.fill.toNat ∨ cfg.flushEmptyGroup = true then 1 + mf.slen.toNat else 0 := by
  rw [MF.stepOutput, if_pos hreq]
  split
  · rw [List.length_cons, MF.length_staged, Nat.add_comm]
  · rfl

/-- The group with the decision is written out when it is the eighth or the last, and after an eighth that is the last
the empty group. -/
theorem MF.length_stepOutput_of_decision (hreq : mf.cancelReq = false) :
    (mf.stepOutput cfg).length =
      (if (mf.fillsGroup || mf.reachesEnd) = true then 1 + (mf.slen.toNat + mf.decision.payload.length) else 0) +
        if (mf.fillsGroup && mf.reachesEnd && cfg.flushEmptyGroup) = true then 1 else 0 := by
  rw [MF.stepOutput, if_neg (by simp [hreq]), List.length_append, apply_ite List.length, apply_ite List.length,
    List.length_cons, List.length_append, MF.length_staged, Nat.add_comm 1]
  rfl

theorem MF.Inv.olen_engineStep (hcfg : cfg.wf) (h : mf.Inv cfg) (hst : mf.st = .running)
    (hs : mf.engineStep cfg = .ok mf') : mf'.olen.toNat = mf.olen.toNat + (mf.stepOutput cfg).length := by
  simpa using congrArg List.length (h.stream_engineStep hcfg hst hs)

/-! ### Where a step faults -/

theorem MF.StepInv.toNat_flushGroup_olen (hcfg : cfg.wf) (h : mf.StepInv cfg) (hf : mf.flushGroup cfg = .ok mf') :
    mf'.olen.toNat = mf.olen.toNat + 1 + mf.slen.toNat := by
  have hlen := congrArg List.length (h.flushGroup_stream hcfg hf).2
  rw [List.length_append, List.length_cons, MF.length_staged, MF.length_stream, MF.length_stream] at hlen
  omega

/-- The final flush faults only where it flushes, and the group does not fit. -/
theorem MF.flushFinal_eq_error {c : Cause} (h : mf.flushFinal cfg = .error c) :
    (0 < mf.fill.toNat ∨ cfg.flushEmptyGroup = true) ∧ cfg.outCap < mf.olen.toNat + 1 + mf.slen.toNat := by
  rcases mf.flushFinal_cases cfg with ⟨he, hdue⟩ | ⟨he, -⟩
  · exact ⟨hdue, (MF.flushGroup_eq_error.1 (he ▸ h)).1⟩
  · cases he.symm.trans h

/-- The end of a step faults in the flush of a full group, or at the end of the input in the final one. -/
theorem MF.closeStep_error_cases {c : Cause} (h : mf.closeStep cfg = .error c) :
    (mf.fill.toNat = 8 ∧ mf.flushGroup cfg = .error c) ∨
    ∃ mf1, (if mf.fill.toNat = slotsPerGroup then mf.flushGroup cfg else .ok mf) = .ok mf1 ∧
      mf1.p = mf1.n ∧ mf1.flushFinal cfg = .error c := by
  unfold MF.closeStep at h
  split at h
  · rename_i c1 h1
    cases h
    split at h1
    · rename_i hfull
      exact .inl ⟨hfull, h1⟩
    · cases h1
  · rename_i mf1 h1
    split at h
    · rename_i hp
      split at h
      · rename_i c2 h2
        cases h
        exact .inr ⟨mf1, h1, hp, h2⟩
      · cases h
    · cases h

/-- The end of a step faults where the group that is full or the last does not fit, or after one that is both the
empty one. -/
theorem MF.StepInv.closeStep_eq_error (hcfg : cfg.wf) (h : mf.StepInv cfg) {c : Cause}
    (hc : mf.closeStep cfg = .error c) :
    (mf.fill.toNat = 8 ∨ mf.p = mf.n) ∧
      cfg.outCap < mf.olen.toNat + 1 + mf.slen.toNat +
        if mf.fill.toNat = 8 ∧ mf.p = mf.n ∧ cfg.flushEmptyGroup = true then 1 else 0 := by
  rcases MF.closeStep_error_cases hc with ⟨hfull, h1⟩ | ⟨mf1, h1, hp, h2⟩
  · have hover := (MF.flushGroup_eq_error.1 h1).1
    exact ⟨.inl hfull, by omega⟩
  · obtain ⟨hdue, hover⟩ := MF.flushFinal_eq_error h2
    by_cases hfull : mf.fill.toNat = 8
    · rw [if_pos hfull] at h1
      obtain ⟨out, olen, rfl⟩ := (h.flushGroup_stream hcfg h1).1
      have holen : olen.toNat = mf.olen.toNat + 1 + mf.slen.toNat := h.toNat_flushGroup_olen hcfg h1
      have hempty : cfg.flushEmptyGroup = true := hdue.resolve_left (Nat.lt_irrefl 0)
      replace hover : cfg.outCap < olen.toNat + 1 + 0 := hover
      rw [if_pos ⟨hfull, hp, hempty⟩]
      exact ⟨.inl hfull, by omega⟩
    · rw [if_neg hfull] at h1
      cases h1
      exact ⟨.inr hp, by omega⟩

theorem MF.cancelStep_eq_error {c : Cause} (h : mf.cancelStep cfg = .error c) : mf.flushFinal cfg = .error c := by
  unfold MF.cancelStep at h
  split at h
  · rename_i c1 h1
    cases h
    exact h1
  · cases h

theorem MF.toNat_decideOnce_olen (cfg : Config) (mf : MF) : (mf.decideOnce cfg).olen.toNat = mf.olen.toNat := by
  rw [← MF.length_stream, MF.decideOnce_stream, MF.length_stream]

section
variable (h : mf.Inv cfg)
include h

theorem MF.Inv.decideOnce_p_eq_n_iff : (mf.decideOnce cfg).p = (mf.decideOnce cfg).n ↔ mf.reachesEnd = true := by
  rw [← BitVec.toNat_inj, h.toNat_decideOnce_p, MF.decideOnce_n, MF.reachesEnd, decide_eq_true_iff]

theorem MF.Inv.decideOnce_fill_eq_8_iff : (mf.decideOnce cfg).fill.toNat = 8 ↔ mf.fillsGroup = true := by
  rw [h.toNat_decideOnce_fill, MF.fillsGroup, decide_eq_true_iff]

/-- A step of a running compression that faults had more to write out than fits (41_matchfinder.md R178). -/
theorem MF.Inv.engineStep_eq_error (hcfg : cfg.wf) (hst : mf.st = .running) {c : Cause}
    (hs : mf.engineStep cfg = .error c) : cfg.outCap < mf.olen.toNat + (mf.stepOutput cfg).length := by
  cases hreq : mf.cancelReq with
  | true =>
    rw [MF.engineStep, if_pos hreq] at hs
    obtain ⟨hdue, hover⟩ := MF.flushFinal_eq_error (MF.cancelStep_eq_error hs)
    rw [MF.length_stepOutput_of_cancel hreq, if_pos hdue]
    omega
  | false =>
    rw [MF.engineStep, if_neg (by simp [hreq])] at hs
    obtain ⟨hdue, hover⟩ := (h.decideOnce (h.running_p_lt hst)).closeStep_eq_error hcfg hs
    simp only [h.decideOnce_p_eq_n_iff, h.decideOnce_fill_eq_8_iff, h.toNat_decideOnce_slen,
      MF.toNat_decideOnce_olen] at hdue hover
    rw [MF.length_stepOutput_of_decision hreq, if_pos (by simpa using hdue)]
    simp only [Bool.and_eq_true, and_assoc]
    omega

theorem MF.Inv.stepReady (hst : mf.st = .running) : mf.stepReady = true := by
  have hp := h.running_p_lt hst
  have hfill := h.fill_lt
  have hslen := h.slen_le
  simp [MF.stepReady, hp, hfill, hslen]

end

/-- The engine's turn while a compression runs: a step where what it writes out fits in `OUT`, and else the fault
(41_matchfinder.md R178). -/
theorem State.Inv.engineTurn_cases (hs : s.Inv) (hst : s.mf.st = .running) :
    (s.mf.olen.toNat + (s.mf.stepOutput s.cfg).length ≤ s.cfg.outCap ∧
      ∃ mf', s.mf.engineStep s.cfg = .ok mf' ∧ s.engineTurn = .next { s with mf := mf' }) ∨
    (s.cfg.outCap < s.mf.olen.toNat + (s.mf.stepOutput s.cfg).length ∧
      s.engineTurn = .next (s.enterFault .mfOutOverflow)) := by
  rcases s.engineTurn_cases with ⟨hready, -⟩ | ⟨-, mf', hmf, hturn⟩ | ⟨-, hmf, hturn⟩
  · cases hready.symm.trans (hs.mf.stepReady hst)
  · rw [← hs.mf.olen_engineStep hs.cfg_wf hst hmf]
    exact .inl ⟨(hs.mf.engineStep hs.cfg_wf hst hmf).olen_le, mf', hmf, hturn⟩
  · exact .inr ⟨hs.mf.engineStep_eq_error hs.cfg_wf hst hmf, hturn⟩

/-- An engine's turn that leaves the fault state alone is a step. -/
theorem State.engineTurn_eq_step {t : State} (hf : s.sys.faulted = false) (hturn : s.engineTurn = .next t)
    (hsys : t.sys = s.sys) : ∃ mf', s.mf.engineStep s.cfg = .ok mf' ∧ t = { s with mf := mf' } := by
  rcases s.engineTurn_cases with ⟨-, h⟩ | ⟨-, mf', hmf, h⟩ | ⟨-, -, h⟩
  · cases h.symm.trans hturn
  · cases h.symm.trans hturn
    exact ⟨mf', hmf, rfl⟩
  · cases h.symm.trans hturn
    rw [← hsys] at hf
    cases hf

/-- Settles O29: a step faults exactly where `stepOutput` does not fit, and each flush named is part of it. -/
theorem engineOverflowIsPrecise : Obligations.EngineOverflowIsPrecise := by
  intro s hs hst hf overflow
  have faults (hover : s.cfg.outCap < s.mf.olen.toNat + (s.mf.stepOutput s.cfg).length) :
      s.engineTurn = .next overflow := by
    rcases hs.engineTurn_cases hst with ⟨hfits, -⟩ | ⟨-, hturn⟩
    · omega
    · exact hturn
  refine ⟨fun hreq hdue hover => faults ?_, fun hreq hdue hover => faults ?_,
    fun hreq hfull hend hempty hover => faults ?_, fun hfits => ?_, ?disabled⟩
  · rw [MF.length_stepOutput_of_cancel hreq, if_pos hdue]
    omega
  · rw [MF.length_stepOutput_of_decision hreq, if_pos (by simpa using hdue)]
    omega
  · rw [MF.length_stepOutput_of_decision hreq, if_pos (by simp [hfull]), if_pos (by simp [hfull, hend, hempty])]
    omega
  · rcases hs.engineTurn_cases hst with ⟨-, mf', -, hturn⟩ | ⟨hover, -⟩
    · exact ⟨_, hturn, rfl⟩
    · omega
  case disabled => simp [State.engineEnabled, overflow]

/-! ### A turn never stops the model -/

/-- Settles O53: every command answers, and the engine's turn comes only while a compression runs, where its step is
ready. -/
theorem stepNeverStops : Obligations.StepNeverStops := by
  intro s hs
  obtain ⟨p, hport, -, henabled⟩ := s.nextAction_cases
  obtain ⟨act, u, hnext⟩ : ∃ act u, s.nextAction = (act, u) := ⟨_, _, rfl⟩
  rw [hnext] at hport henabled
  rw [step, hnext]
  cases act with
  | idle => exact ⟨_, rfl⟩
  | reset => exact ⟨_, rfl⟩
  | engine =>
    obtain ⟨hst, -⟩ := State.engineEnabled_iff.1 (henabled rfl)
    obtain rfl : u = { s with port := p } := hport
    rcases (hs.withPort p).engineTurn_cases hst with ⟨-, mf', -, hturn⟩ | ⟨-, hturn⟩
    · exact ⟨_, hturn⟩
    · exact ⟨_, hturn⟩
  | command w =>
    simp only
    split
    · rename_i i hdec
      obtain ⟨v, rc, val, -, hexec⟩ := exec_effect i u
      exact ⟨_, hexec⟩
    · exact ⟨_, rfl⟩

end Sys2Proof.Machine
end

section
/-! PROOFS. The size of the output and the end of every compression (41_matchfinder.md R176 to R181, R189;
70_reset_and_hazards.md R340). -/

namespace Sys2Proof.Machine

/-! ### The length of a stream of slots -/

section
variable {n : Nat} {out : List Byte} {slot : Slot} {slots : List Slot}

/-- The bytes the slots take in the stream, without the control bytes. -/
def payloadLength (slots : List Slot) : Nat := (slots.flatMap Slot.payload).length

theorem payloadLength_cons (slot : Slot) (slots : List Slot) :
    payloadLength (slot :: slots) = slot.payload.length + payloadLength slots := by
  simp [payloadLength]

theorem payloadLength_append (slots more : List Slot) :
    payloadLength (slots ++ more) = payloadLength slots + payloadLength more := by
  simp [payloadLength]

@[simp] theorem length_groupBytes (order : CtrlBitOrder) (slots : List Slot) :
    (groupBytes order slots).length = payloadLength slots + 1 := rfl

/-- The full groups and the payload of the open one: one control byte per full group, and every payload. -/
theorem length_fullGroups (order : CtrlBitOrder) (slots : List Slot) :
    (fullGroups order slots).length + payloadLength (openSlots slots) = slots.length / 8 + payloadLength slots := by
  induction slots using groupInduction with
  | short slots h =>
    rw [openSlots_of_lt h, fullGroups, Nat.div_eq_of_lt h]
    rfl
  | group group slots hlen ih =>
    rw [fullGroups_group_append hlen, openSlots_group_append hlen, List.length_append, length_groupBytes,
      payloadLength_append, List.length_append]
    omega

/-- The final stream has at most one control byte more. -/
theorem length_finalStream_le (cfg : Config) (slots : List Slot) :
    (finalStream cfg slots).length ≤ slots.length / 8 + payloadLength slots + 1 := by
  have hfull := length_fullGroups cfg.ctrlBitOrder slots
  rw [finalStream, List.length_append]
  split
  · rw [List.length_nil]
    omega
  · rw [length_groupBytes]
    omega

/-- A valid slot takes no more bytes than it stands for, and at least 3 unless it is the last. -/
theorem slotsValid_payload (h : slotsValid n out [slot]) :
    slot.payload.length ≤ slot.size ∧ (3 ≤ slot.size ∨ out.length + slot.size = n) := by
  cases slot with
  | literal bytes =>
    simp only [slotsValid, litMax, and_true] at h
    rw [Slot.payload_literal, Slot.size_literal]
    omega
  | copy dist len =>
    simp only [slotsValid, minMatch, and_true] at h
    rw [Slot.payload_copy, Slot.size_copy, length_matchBytes]
    omega

/-- Valid slots take no more bytes than the input left, and all but the last stand for 3 of them at least. -/
theorem slotsValid_counts (h : slotsValid n out slots) (hout : out.length ≤ n) :
    payloadLength slots ≤ n - out.length ∧ 3 * slots.length ≤ n - out.length + 2 := by
  induction slots generalizing out with
  | nil => exact ⟨Nat.zero_le _, Nat.zero_le _⟩
  | cons slot slots ih =>
    obtain ⟨hslot, hslots⟩ := slotsValid_cons.1 h
    obtain ⟨hpos, hend⟩ := slotsValid_bounds hslot
    obtain ⟨hpayload, hsize⟩ := slotsValid_payload hslot
    obtain ⟨hpayloads, hcount⟩ := ih hslots (by rw [Slot.length_apply]; exact hend)
    rw [Slot.length_apply] at hpayloads hcount
    rw [payloadLength_cons, List.length_cons]
    refine ⟨by omega, ?_⟩
    rcases hsize with hsize | hlast
    · omega
    · have hnil : slots = [] := by
        by_contra hne
        have := length_lt_of_slotsValid hslots hne
        rw [Slot.length_apply] at this
        omega
      rw [hnil, List.length_nil]
      omega

/-- The spec's bound for an input of `n` bytes (41_matchfinder.md R189). -/
def outputBound (n : Nat) : Nat := n + (n + 2) / 3 / 8 + 1

theorem outputBound_mono {m : Nat} (h : m ≤ n) : outputBound m ≤ outputBound n := by
  have : (m + 2) / 3 / 8 ≤ (n + 2) / 3 / 8 := Nat.div_le_div_right (Nat.div_le_div_right (by omega))
  rw [outputBound, outputBound]
  omega

/-- A stream of valid slots, with a control byte per full group and one more, is within the bound. -/
theorem slotsValid_le_outputBound (h : slotsValid n [] slots) :
    slots.length / 8 + payloadLength slots + 1 ≤ outputBound n := by
  obtain ⟨hpayload, hcount⟩ := slotsValid_counts h (Nat.zero_le n)
  rw [List.length_nil, Nat.sub_zero] at hpayload hcount
  have : slots.length / 8 ≤ (n + 2) / 3 / 8 := Nat.div_le_div_right (by omega)
  rw [outputBound]
  omega

end

/-! ### The output of a run -/

section
variable {cfg : Config} {mf : MF} {slots : List Slot}

/-- While a compression runs, `OUT` and `STAGE` hold one control byte per full group and every payload. -/
theorem MF.Emitted.olen_add_slen (h : mf.Emitted cfg slots) (hst : mf.st = .running) :
    mf.olen.toNat + mf.slen.toNat = slots.length / 8 + payloadLength slots := by
  rw [← length_fullGroups cfg.ctrlBitOrder, ← MF.length_stream, h.running_out hst, payloadLength,
    ← h.running_stage hst, Memory.length_bytes]

/-- What a step writes out stays within the bound for the input. -/
theorem MF.Emitted.stepOutput_le (hmf : mf.Inv cfg) (hst : mf.st = .running) (h : mf.Emitted cfg slots) :
    mf.olen.toNat + (mf.stepOutput cfg).length ≤ outputBound mf.n.toNat := by
  have hlen := h.olen_add_slen hst
  cases hreq : mf.cancelReq with
  | true =>
    have hbound := slotsValid_le_outputBound h.valid
    rw [MF.length_stepOutput_of_cancel hreq]
    split <;> omega
  | false =>
    have hvalid : slotsValid mf.n.toNat [] (slots ++ [mf.decision]) :=
      slotsValid_concat.2 ⟨h.valid, h.covers ▸ (MF.decision_spec (hmf.running_p_lt hst)).1⟩
    have hbound := slotsValid_le_outputBound hvalid
    have hdecision : payloadLength [mf.decision] = mf.decision.payload.length := by simp [payloadLength]
    have hfull : mf.fillsGroup = true ↔ slots.length % 8 + 1 = 8 := by
      rw [MF.fillsGroup, decide_eq_true_iff, h.running_fill hst, length_openSlots]
    rw [payloadLength_append, hdecision, List.length_append, List.length_singleton] at hbound
    rw [MF.length_stepOutput_of_decision hreq]
    by_cases hf : mf.fillsGroup = true
    · have := hfull.1 hf
      split <;> split <;> omega
    · rw [if_neg (c := (mf.fillsGroup && mf.reachesEnd && cfg.flushEmptyGroup) = true) (by simp [hf])]
      split <;> omega

end

/-- Settles O58: the stream of an ended run is that of valid slots, and what a step writes out stays within the bound
for the input, which is at most IN_CAP. -/
theorem outputSizeBound : Obligations.OutputSizeBound := by
  intro s hs hstream
  refine ⟨fun hdone => ?size, fun hst hf hcap => ?fits⟩
  case size =>
    obtain ⟨slots, hslots⟩ := hstream (.inr (.inl hdone))
    calc s.mf.olen.toNat = (finalStream s.cfg slots).length := by
          rw [← MF.length_stream, hslots.ended_out (.inl hdone)]
      _ ≤ slots.length / 8 + payloadLength slots + 1 := length_finalStream_le ..
      _ ≤ outputBound s.mf.n.toNat := slotsValid_le_outputBound hslots.valid
  case fits =>
    obtain ⟨slots, hslots⟩ := hstream (.inl hst)
    have hfits := calc s.mf.olen.toNat + (s.mf.stepOutput s.cfg).length
          ≤ outputBound s.mf.n.toNat := hslots.stepOutput_le hs.mf hst
      _ ≤ outputBound s.cfg.inCap := outputBound_mono hs.mf.n_le
      _ ≤ s.cfg.outCap := hcap
    rcases hs.engineTurn_cases hst with ⟨-, mf', -, hturn⟩ | ⟨hover, -⟩
    · exact ⟨_, hturn, hf⟩
    · omega

/-! ### The end of a compression -/

section
variable {cfg : Config} {mf mf' : MF}

/-- A step of a running compression ends the run or brings P closer to N. -/
theorem MF.Inv.engineStep_progress (h : mf.Inv cfg) (hst : mf.st = .running)
    (hs : mf.engineStep cfg = .ok mf') : mf'.st ≠ .running ∨ (mf.p.toNat < mf'.p.toNat ∧ mf'.n = mf.n) := by
  rcases MF.engineStep_eq_ok hs with ⟨-, hc⟩ | ⟨-, hc⟩
  · obtain ⟨mf1, -, rfl⟩ := MF.cancelStep_eq_ok hc
    exact .inl nofun
  · obtain ⟨_, ⟨out, olen, ctrl, fill, slen, rfl⟩, rfl⟩ := MF.closeStep_onlyFlushes hc
    have hp := h.toNat_decideOnce_p
    have hsize := MF.decision_size_pos (h.running_p_lt hst)
    exact .inr ⟨by dsimp only; omega, MF.decideOnce_n cfg mf⟩

end

section
variable {s t : State}

/-- With nothing to send and nothing scheduled, a running compression has the turn. -/
theorem step_of_running (hst : s.mf.st = .running) (hf : s.sys.faulted = false) (hp : s.port.pending = [])
    (hsched : s.port.schedule = []) : step s = s.engineTurn := by
  have hen : s.engineEnabled = true := State.engineEnabled_iff.2 ⟨hst, hf⟩
  have hnext : s.nextAction = (.engine, s) := by
    simp [State.nextAction, hsched, hp, State.engineAction, hen]
  rw [step, hnext]

theorem core_run_succ (h : step s = .next t) (k : Nat) : Sys2Proof.core.run (k + 1) s = Sys2Proof.core.run k t := by
  have hcore : Sys2Proof.core.step s = .next t := h
  simp only [Host.Core.run, hcore]

end

/-- Settles O59: every step of the run faults, ends it, or brings P closer to N. -/
theorem compressionEnds : Obligations.CompressionEnds := by
  intro s hs hst hf hp hsched
  induction hk : s.mf.n.toNat - s.mf.p.toNat using Nat.strong_induction_on generalizing s with
  | h left ih =>
    subst hk
    have hlt := hs.mf.running_p_lt hst
    rcases hs.engineTurn_cases hst with ⟨-, mf', hmf, hturn⟩ | ⟨-, hturn⟩
    case inr =>
      rw [← step_of_running hst hf hp hsched] at hturn
      exact ⟨1, _, by omega, core_run_succ hturn 0, .inr rfl⟩
    case inl =>
      rw [← step_of_running hst hf hp hsched] at hturn
      rcases hs.mf.engineStep_progress hst hmf with hended | ⟨hcloser, hn⟩
      · exact ⟨1, _, by omega, core_run_succ hturn 0, .inl hended⟩
      · by_cases hrunning : mf'.st = .running
        · obtain ⟨k, t, hle, hrun, hend⟩ := ih (mf'.n.toNat - mf'.p.toNat) (by rw [hn]; omega)
            { s with mf := mf' } (hs.withMf (hs.mf.engineStep hs.cfg_wf hst hmf)) hrunning hf hp hsched rfl
          exact ⟨k + 1, t, by rw [hn] at hle; omega, (core_run_succ hturn k).trans hrun, hend⟩
        · exact ⟨1, _, by omega, core_run_succ hturn 0, .inl hrunning⟩

end Sys2Proof.Machine
end

section
/-! PROOFS. The rolling hash and the search (41_matchfinder.md R165, R166, R171 to R174, R190): the hash in closed form,
the longest match as a bound on byte agreement, and what a search does bucket entry by bucket entry. -/

namespace Sys2Proof.Machine

/-! ### The rolling hash -/

/-- An update shifts the low 14 bits of the register up and takes the byte in. -/
theorem roll_eq_append (h : HashValue) (b : Byte) : roll h b = (h.extractLsb' 0 14 ++ b : BitVec (14 + 8)) := by
  refine BitVec.eq_of_getLsbD_eq fun i hi => ?_
  grind [roll]

theorem toNat_roll (h : HashValue) (b : Byte) : (roll h b).toNat = (h.toNat % 2 ^ 14) * 2 ^ 8 + b.toNat := by
  rw [roll_eq_append, BitVec.toNat_append, BitVec.extractLsb'_toNat, Nat.shiftRight_zero,
    ← Nat.shiftLeft_add_eq_or_of_lt b.isLt, Nat.shiftLeft_eq]

/-- Three updates push out whatever the register held (41_matchfinder.md R166). -/
theorem toNat_roll_roll_roll (h : HashValue) (b0 b1 b2 : Byte) :
    (roll (roll (roll h b0) b1) b2).toNat = (b0.toNat % 64) * 2 ^ 16 + b1.toNat * 2 ^ 8 + b2.toNat := by
  rw [toNat_roll, toNat_roll, toNat_roll]
  omega

theorem toNat_hashAt (inp : Memory) (q : Nat) : (hashAt inp q).toNat =
    ((inp.read q).toNat % 64) * 2 ^ 16 + (inp.read (q + 1)).toNat * 2 ^ 8 + (inp.read (q + 2)).toNat :=
  toNat_roll_roll_roll ..

/-- Settles O23: the closed form of three updates gives all three clauses. -/
theorem hashClosedForm : Obligations.HashClosedForm := by
  refine ⟨toNat_roll_roll_roll, fun inp q => ?slides, fun inp q p => ?collides⟩
  case slides =>
    refine BitVec.eq_of_toNat_eq ?_
    rw [hashAt, toNat_roll_roll_roll, toNat_hashAt]
  case collides =>
    have hq1 := (inp.read (q + 1)).isLt
    have hq2 := (inp.read (q + 2)).isLt
    have hp1 := (inp.read (p + 1)).isLt
    have hp2 := (inp.read (p + 2)).isLt
    rw [← BitVec.toNat_inj, toNat_hashAt, toNat_hashAt, ← BitVec.toNat_inj, ← BitVec.toNat_inj]
    omega

/-! ### The length of a match -/

section
variable {inp : Memory} {n p c len : Nat}

/-- The bytes agree for a length exactly when the run counted reaches it. -/
theorem le_equalRun_iff {lim : Nat} : len ≤ equalRun inp c p lim ↔ len ≤ lim ∧ agreeFor inp c p len := by
  constructor
  · intro h
    exact ⟨Nat.le_trans h (equalRun_le ..), fun j hj => equalRun_agree inp c p lim j (Nat.lt_of_lt_of_le hj h)⟩
  · rintro ⟨hlim, hagree⟩
    by_contra hlt
    exact equalRun_maximal inp c p lim (by omega) (hagree _ (by omega))

/-- `MATCHLEN` is the greatest length within the limit for which the bytes agree (41_matchfinder.md R172). -/
theorem le_matchLen_iff : len ≤ matchLen inp n c p ↔ len ≤ min 258 (n - p) ∧ agreeFor inp c p len :=
  le_equalRun_iff

theorem agreeFor_matchLen (inp : Memory) (n c p : Nat) : agreeFor inp c p (matchLen inp n c p) :=
  (le_matchLen_iff.1 (Nat.le_refl _)).2

theorem matchLen_le (inp : Memory) (n c p : Nat) : matchLen inp n c p ≤ min 258 (n - p) :=
  (le_matchLen_iff.1 (Nat.le_refl _)).1

end

/-! ### The search of a bucket -/

section
variable {inp : Memory} {n p : Nat} {bucket rest : List Nat}

/-- A candidate that is invalid or has no longer match is passed over. -/
theorem considerCandidate_of_useless {best : Match} {c : Nat}
    (h : c < p → p - c ≤ 65535 → matchLen inp n c p ≤ best.len) : considerCandidate inp n p best c = best := by
  rw [considerCandidate]
  split
  · rename_i hvalid
    obtain ⟨hlt, hfar⟩ := validCandidate_iff.1 hvalid
    rw [if_neg (Nat.not_lt.2 (h hlt hfar))]
  · rfl

theorem considerCandidate_of_better {best : Match} {c : Nat} (hlt : c < p) (hfar : p - c ≤ 65535)
    (h : best.len < matchLen inp n c p) :
    considerCandidate inp n p best c = { len := matchLen inp n c p, dist := p - c } := by
  rw [considerCandidate, if_pos (validCandidate_iff.2 ⟨hlt, hfar⟩), if_pos h]

/-- Candidates that cannot improve on the best may be left out. -/
theorem searchBucket_append_of_useless
    (h : ∀ c ∈ rest, c < p → p - c ≤ 65535 → matchLen inp n c p ≤ (searchBucket inp n p bucket).len) :
    searchBucket inp n p (bucket ++ rest) = searchBucket inp n p bucket := by
  rw [searchBucket, List.foldl_append, ← searchBucket]
  induction rest with
  | nil => rfl
  | cons c rest ih =>
    obtain ⟨hc, hrest⟩ := List.forall_mem_cons.1 h
    rw [List.foldl_cons, considerCandidate_of_useless hc]
    exact ih hrest

theorem searchBucket_len_le (inp : Memory) (n p : Nat) (bucket : List Nat) :
    (searchBucket inp n p bucket).len ≤ min 258 (n - p) := by
  rcases searchBucket_cases inp n p bucket with h | ⟨c, -, -, -, h⟩ <;> rw [h]
  · exact Nat.zero_le _
  · exact matchLen_le ..

/-- What a search over `bucket` gives: no valid candidate has a longer match, the match is that of a valid candidate,
and no valid candidate with a match as long is nearer. -/
structure BestOf (inp : Memory) (n p : Nat) (bucket : List Nat) (m : Match) : Prop where
  longest : ∀ c ∈ bucket, c < p → p - c ≤ 65535 → matchLen inp n c p ≤ m.len
  found : 0 < m.len → ∃ c ∈ bucket, c < p ∧ p - c ≤ 65535 ∧ m.dist = p - c ∧ m.len = matchLen inp n c p
  nearest : 0 < m.len → ∀ c ∈ bucket, c < p → p - c ≤ 65535 → m.len ≤ matchLen inp n c p → m.dist ≤ p - c

/-- A later candidate with a longer match is the new best. -/
theorem BestOf.concat_better {m : Match} {c : Nat} (h : BestOf inp n p bucket m) (hlt : c < p) (hfar : p - c ≤ 65535)
    (hlen : m.len < matchLen inp n c p) :
    BestOf inp n p (bucket ++ [c]) { len := matchLen inp n c p, dist := p - c } where
  longest := List.forall_mem_append.2
    ⟨fun d hd hdlt hdfar => Nat.le_of_lt (Nat.lt_of_le_of_lt (h.longest d hd hdlt hdfar) hlen),
      List.forall_mem_singleton.2 fun _ _ => Nat.le_refl _⟩
  found := fun _ => ⟨c, by simp, hlt, hfar, rfl, rfl⟩
  nearest := fun _ => List.forall_mem_append.2
    ⟨fun d hd hdlt hdfar hle =>
        absurd (Nat.le_trans hle (h.longest d hd hdlt hdfar)) (Nat.not_le.2 hlen),
      List.forall_mem_singleton.2 fun _ _ _ => Nat.le_refl _⟩

/-- A later candidate that is invalid or has no longer match leaves the best: it is farther away. -/
theorem BestOf.concat_useless {m : Match} {c : Nat} (h : BestOf inp n p bucket m) (hlast : ∀ d ∈ bucket, c < d)
    (hlen : c < p → p - c ≤ 65535 → matchLen inp n c p ≤ m.len) : BestOf inp n p (bucket ++ [c]) m where
  longest := List.forall_mem_append.2 ⟨h.longest, List.forall_mem_singleton.2 hlen⟩
  found := fun hpos => by
    obtain ⟨d, hd, hfound⟩ := h.found hpos
    exact ⟨d, List.mem_append_left _ hd, hfound⟩
  nearest := fun hpos => List.forall_mem_append.2 ⟨h.nearest hpos, List.forall_mem_singleton.2 fun _ _ _ => by
    obtain ⟨d, hd, -, -, hdist, -⟩ := h.found hpos
    have := hlast d hd
    omega⟩

/-- The greatest length, and the smallest distance that reaches it (41_matchfinder.md R173): the candidates come
nearest first. -/
theorem bestOf_searchBucket (hdec : bucket.Pairwise (· > ·)) :
    BestOf inp n p bucket (searchBucket inp n p bucket) := by
  induction bucket using List.reverseRecOn with
  | nil => exact ⟨by simp, fun h => absurd h (Nat.lt_irrefl 0), by simp⟩
  | append_singleton cs c ih =>
    obtain ⟨hcs, -, hlast⟩ := List.pairwise_append.1 hdec
    replace hlast : ∀ d ∈ cs, c < d := fun d hd => hlast d hd c (List.mem_singleton.2 rfl)
    by_cases hbetter : c < p ∧ p - c ≤ 65535 ∧ (searchBucket inp n p cs).len < matchLen inp n c p
    · obtain ⟨hlt, hfar, hlen⟩ := hbetter
      rw [searchBucket, List.foldl_append, ← searchBucket, List.foldl_cons, List.foldl_nil,
        considerCandidate_of_better hlt hfar hlen]
      exact (ih hcs).concat_better hlt hfar hlen
    · have huseless (hlt : c < p) (hfar : p - c ≤ 65535) : matchLen inp n c p ≤ (searchBucket inp n p cs).len := by
        omega
      rw [searchBucket_append_of_useless (List.forall_mem_singleton.2 huseless)]
      exact (ih hcs).concat_useless hlast huseless

end

/-- Settles O24: the search gives the best of the bucket, and lengths of matches are lengths of byte agreement. -/
theorem searchFindsNearestLongest : Obligations.SearchFindsNearestLongest := by
  intro inp n p bucket hdec
  have hbest := bestOf_searchBucket (inp := inp) (n := n) (p := p) hdec
  refine ⟨fun c hc hlt hfar len hlen hagree => ?longest, fun hpos => ⟨?found, fun c hc hlt hfar hagree => ?nearest⟩⟩
  case longest => exact Nat.le_trans (le_matchLen_iff.2 ⟨hlen, hagree⟩) (hbest.longest c hc hlt hfar)
  case found =>
    obtain ⟨c, hc, hlt, hfar, hdist, hlen⟩ := hbest.found hpos
    exact ⟨c, hc, hlt, hfar, hdist.symm, searchBucket_len_le .., hlen ▸ agreeFor_matchLen inp n c p⟩
  case nearest =>
    exact hbest.nearest hpos c hc hlt hfar (le_matchLen_iff.2 ⟨searchBucket_len_le .., hagree⟩)

/-- From the first candidate beyond the window on, all are (41_matchfinder.md R174). -/
theorem far_of_mem_dropWhile {p : Nat} {bucket : List Nat} (hdec : bucket.Pairwise (· > ·)) {c : Nat}
    (hc : c ∈ bucket.dropWhile (fun c => p - c ≤ 65535)) : 65535 < p - c := by
  induction bucket with
  | nil => cases hc
  | cons d rest ih =>
    obtain ⟨hd, hrest⟩ := List.pairwise_cons.1 hdec
    by_cases hfar : p - d ≤ 65535
    · rw [List.dropWhile_cons_of_pos (by simpa using hfar)] at hc
      exact ih hrest hc
    · rw [List.dropWhile_cons_of_neg (by simpa using hfar)] at hc
      rcases List.mem_cons.1 hc with rfl | hc
      · omega
      · have := hd c hc
        omega

/-- Settles O25: what is left out in each case cannot improve on the best. -/
theorem searchMayStopEarly : Obligations.SearchMayStopEarly := by
  refine ⟨fun inp n p bucket hdec => ?window, fun inp n p bucket rest hfull => ?full,
    fun inp n p bucket hleft => ?short⟩
  case window =>
    conv_rhs => rw [← List.takeWhile_append_dropWhile (p := fun c => decide (p - c ≤ 65535)) (l := bucket)]
    exact (searchBucket_append_of_useless fun c hc _ hfar =>
      absurd hfar (Nat.not_le.2 (far_of_mem_dropWhile hdec hc))).symm
  case full =>
    exact searchBucket_append_of_useless fun c _ _ _ => hfull ▸ matchLen_le ..
  case short =>
    have := searchBucket_len_le inp n p bucket
    omega

/-- Settles O26: a match found is of the input before P and within it, and its slot is staged (R176). -/
theorem emittedMatchBounds : Obligations.EmittedMatchBounds := by
  intro cfg mf hlen
  obtain ⟨hpos, hfar, hle, -⟩ := mf.search_agrees (by omega)
  have hmax := mf.search_len_le
  refine ⟨hpos, hfar, hle, hlen, by omega, by omega, ?_⟩
  rw [MF.emit, if_pos hlen]
  rfl

end Sys2Proof.Machine
end

section
/-! PROOFS. The matcher's commands where they execute (41_matchfinder.md R161 to R163, R185, R188), and the transitions
of `MF_STATE` by command and by engine step (R161, R162, R181, R184). -/

namespace Sys2Proof.Machine

variable {s t : State}

/-! ### The commands that execute -/

/-- A command that is refused while a compression runs, outside `RUNNING` in an unfaulted block. -/
theorem State.serve_unlessRunning (hf : s.sys.faulted = false) (hst : s.mf.st ≠ .running) (r : Reply) :
    s.serve (s.unlessRunning r) = s.answer r := by
  rw [State.unlessRunning_idle hst, State.serve_unfaulted hf]

/-- `MF.CLEAR` outside `RUNNING` (41_matchfinder.md R162). -/
theorem exec_mfClear_of_notRunning (hf : s.sys.faulted = false) (hst : s.mf.st ≠ .running) :
    exec .mfClear s = .next (State.respond { s with mf := { s.mf.clearRun with n := 0, st := .idle } } 0x00 0) := by
  rw [exec, execMfClear, State.serve_unlessRunning hf hst, State.answer_done]

/-- `MF.START` outside `RUNNING` (41_matchfinder.md R161). -/
theorem exec_mfStart_of_notRunning (hf : s.sys.faulted = false) (hst : s.mf.st ≠ .running) :
    exec .mfStart s = .next (State.respond
      { s with mf := { s.mf.clearRun with st := if s.mf.n = 0 then .noData else .running } } 0x00 0) := by
  rw [exec, execMfStart, State.serve_unlessRunning hf hst, State.answer_done]

/-- `MF.PUT` in `IDLE` with room left (41_matchfinder.md R163). -/
theorem exec_mfPut_of_room (hf : s.sys.faulted = false) (hst : s.mf.st = .idle)
    (hroom : s.mf.n.toNat < s.cfg.inCap) (byte : Byte) :
    exec (.mfPut byte) s = .next (State.respond
      { s with mf := { s.mf with inp := s.mf.inp.write s.mf.n.toNat byte, n := s.mf.n + 1 } } 0x00 0) := by
  rw [exec, execMfPut, State.serve_unlessRunning hf (by simp [hst]), if_neg (not_not.2 hst), if_neg (by omega),
    State.answer_done]

/-- `MF.CANCEL` (41_matchfinder.md R185). -/
theorem exec_mfCancel (hf : s.sys.faulted = false) :
    exec .mfCancel s = .next (State.respond
      (if s.mf.st = .running then { s with mf := { s.mf with cancelReq := true } } else s) 0x00 0) := by
  rw [exec, execMfCancel, State.serve_unfaulted hf, State.answer_done]

/-- `MF.GET` of an output byte outside `RUNNING` (41_matchfinder.md R188). -/
theorem exec_mfGet_of_lt {addr : Word} (hf : s.sys.faulted = false) (hst : s.mf.st ≠ .running)
    (haddr : addr.toNat < s.mf.olen.toNat) :
    exec (.mfGet addr) s = .next (s.respond 0x00 ((s.mf.out.read addr.toNat).setWidth 32)) := by
  rw [exec, execMfGet, State.serve_unlessRunning hf hst, if_neg (by omega), State.answer_done]

/-- Settles O17: the matcher is the cleared one, with N = 0 and in `IDLE`. -/
theorem mfClearResult : Obligations.MfClearResult := by
  intro s hf hst
  exact ⟨_, exec_mfClear_of_notRunning hf hst, rfl, rfl, rfl, fun h => rfl, rfl, rfl, rfl, rfl, rfl, rfl, rfl, rfl,
    rfl, rfl, rfl, rfl, rfl, rfl, rfl, rfl⟩

/-- Settles O19: the matcher is the cleared one, in `NODATA` or `RUNNING` by N. -/
theorem mfStartResult : Obligations.MfStartResult := by
  intro s hf hst
  exact ⟨_, exec_mfStart_of_notRunning hf hst, rfl, rfl, fun h => rfl, rfl, rfl, rfl, rfl, rfl, rfl, rfl,
    fun hn => if_pos hn, fun hn => if_neg hn, rfl, rfl, rfl, rfl, rfl, rfl, rfl, rfl, rfl⟩

/-- Settles O18: the write puts the byte at N and leaves every other byte, and N has room to grow. -/
theorem mfPutResult : Obligations.MfPutResult := by
  intro s byte hcfg hw hf hst hroom
  obtain ⟨⟨-, hcap⟩, -⟩ := hcfg
  refine ⟨_, exec_mfPut_of_room hf hst hroom byte, ?grows, ?written, fun a ha => ?kept, rfl, rfl, rfl, rfl, rfl, rfl⟩
  case grows => exact BitVec.toNat_add_of_lt (by simp only [BitVec.ofNat_eq_ofNat, BitVec.toNat_ofNat]; omega)
  case written => exact (Memory.read_write hw ..).trans (if_pos rfl)
  case kept => exact (Memory.read_write hw ..).trans (if_neg ha)

/-- Settles O20: the command writes the request bit in `RUNNING`, and in any other state leaves the block. -/
theorem mfCancelResult : Obligations.MfCancelResult := by
  intro s hf
  refine ⟨_, exec_mfCancel hf, ?_⟩
  by_cases hst : s.mf.st = .running
  · rw [if_pos hst]
    exact ⟨fun _ => rfl, fun h => absurd hst h, rfl, rfl, rfl, rfl, rfl⟩
  · rw [if_neg hst]
    exact ⟨fun h => absurd h hst, fun _ => rfl, rfl, rfl, rfl, rfl, rfl⟩

/-- Settles O22: below OLEN the address passes the check, and a byte fits in the response's value. -/
theorem mfGetResult : Obligations.MfGetResult := by
  intro s addr hf hst haddr
  exact ⟨_, _, exec_mfGet_of_lt hf hst haddr, s.onlyAnswers_respond _ _,
    BitVec.toNat_setWidth_of_le (by decide)⟩

/-! ### The transitions of `MF_STATE` -/

/-- A reply that executes without touching `MF_STATE` leaves it, and so do a refusal and a fault. -/
theorem State.serve_mf_st {r : Reply} (h : r.Leaves fun u => u.mf.st = s.mf.st) : (s.serve r).mf.st = s.mf.st := by
  cases hf : s.sys.faulted with
  | true => rw [State.serve_faulted hf, State.respond_mf]
  | false =>
    rw [State.serve_unfaulted hf]
    cases r with
    | done u val => exact h
    | busy => rfl
    | raise c => rfl

/-- A command refused while a compression runs leaves `MF_STATE` there, and in the fault state as every command. -/
theorem State.serve_unlessRunning_mf_st (h : s.sys.faulted = true ∨ s.mf.st = .running) (r : Reply) :
    (s.serve (s.unlessRunning r)).mf.st = s.mf.st := by
  rcases h with hf | hst
  · rw [State.serve_faulted hf, State.respond_mf]
  · rw [State.unlessRunning_running hst]
    exact State.serve_mf_st trivial

/-- No command but `SYS.RESET`, `MF.CLEAR` and `MF.START` writes `MF_STATE` (41_matchfinder.md R184). -/
theorem exec_keeps_mf_st {i : Instr} (hi : i ≠ .sysReset ∧ i ≠ .mfClear ∧ i ≠ .mfStart) (h : exec i s = .next t) :
    t.mf.st = s.mf.st := by
  obtain ⟨hreset, hclear, hstart⟩ := hi
  cases i with
  | sysReset => exact absurd rfl hreset
  | mfClear => exact absurd rfl hclear
  | mfStart => exact absurd rfl hstart
  | sysNop | sysStatus => cases h; rfl
  | mfPut byte =>
    cases h
    refine State.serve_mf_st (Reply.leaves_unlessRunning fun _ => ?_)
    split
    · trivial
    · split
      · trivial
      · rfl
  | mfCancel =>
    cases h
    refine State.serve_mf_st (Reply.leaves_done.2 ?_)
    split <;> rfl
  | mfInfo sel =>
    cases h
    refine State.serve_mf_st ?_
    split
    · rfl
    · trivial
  | mfGet addr =>
    cases h
    refine State.serve_mf_st (Reply.leaves_unlessRunning fun _ => ?_)
    split
    · trivial
    · rfl
  | _ => rw [exec_cursorOrToken_mf rfl h]

/-- A step that sees the cancellation request ends in `ABORTED`; one that takes a decision ends in `DONE` where P
reaches N and else stays in `RUNNING` (41_matchfinder.md R181). -/
theorem MF.engineStep_st {cfg : Config} {mf mf' : MF} (h : mf.engineStep cfg = .ok mf') :
    (mf.cancelReq = true ∧ mf'.st = .aborted) ∨
    (mf.cancelReq = false ∧ mf'.st = if mf'.p = mf'.n then .done else mf.st) := by
  rcases MF.engineStep_eq_ok h with ⟨hreq, hc⟩ | ⟨hreq, hc⟩
  · obtain ⟨mf1, -, rfl⟩ := MF.cancelStep_eq_ok hc
    exact .inl ⟨hreq, rfl⟩
  · obtain ⟨_, ⟨out, olen, ctrl, fill, slen, rfl⟩, rfl⟩ := MF.closeStep_onlyFlushes hc
    exact .inr ⟨hreq, by rw [MF.decideOnce_st]⟩

/-- Settles O49: three commands write `MF_STATE` where they execute, and the engine's step as `MF.engineStep_st`
says. -/
theorem mfStateTransitions : Obligations.MfStateTransitions := by
  refine ⟨fun s t i hexec => ⟨?reset, ?clear, ?start, ?kept⟩, fun s t hst hf hturn hsys => ?engine⟩
  case reset =>
    rintro rfl
    cases hexec
    rfl
  case clear =>
    rintro rfl hf hst
    cases (exec_mfClear_of_notRunning hf hst).symm.trans hexec
    rfl
  case start =>
    rintro rfl hf hst
    cases (exec_mfStart_of_notRunning hf hst).symm.trans hexec
    exact ⟨fun hn => if_pos hn, fun hn => if_neg hn⟩
  case kept =>
    intro hreset h
    by_cases hi : i = .mfClear ∨ i = .mfStart
    · have hrefused : s.sys.faulted = true ∨ s.mf.st = .running :=
        h.resolve_left fun hne => hi.elim hne.1 hne.2
      rcases hi with rfl | rfl
      · cases hexec
        exact State.serve_unlessRunning_mf_st hrefused _
      · cases hexec
        exact State.serve_unlessRunning_mf_st hrefused _
    · exact exec_keeps_mf_st ⟨hreset, not_or.1 hi⟩ hexec
  case engine =>
    obtain ⟨mf', hmf, rfl⟩ := State.engineTurn_eq_step hf hturn hsys
    rcases MF.engineStep_st hmf with ⟨hreq, hended⟩ | ⟨hreq, hended⟩
    · exact ⟨fun _ => hended, fun h => absurd (hreq.symm.trans h) nofun, fun h => absurd (hreq.symm.trans h) nofun⟩
    · exact ⟨fun h => absurd (hreq.symm.trans h) nofun, fun _ hp => hended.trans (if_pos hp),
        fun _ hp => hended.trans ((if_neg hp).trans hst)⟩

end Sys2Proof.Machine
end

section
/-! PROOFS. What an engine step does (41_matchfinder.md R167, R168, R171 to R173, R176 to R181): the decision as the
best over the window, what is staged and written out, and what stays. -/

namespace Sys2Proof.Machine

variable {cfg : Config} {mf mf' : MF}

/-! ### The decision as the best over the window -/

/-- Where positions agree for a whole seed, so do their hashes. -/
theorem hashAt_eq_of_agreeFor {inp : Memory} {c p len : Nat} (h : agreeFor inp c p len) (hlen : 3 ≤ len) :
    hashAt inp c = hashAt inp p := by
  have h0 : inp.read c = inp.read p := h 0 (by omega)
  rw [hashAt, hashAt, h0, h 1 (by omega), h 2 (by omega)]

/-- The candidates of a search at `p`: the tracked positions with the hash of `p`, once `p` is registered. -/
def candidates (inp : Memory) (p : Nat) : List Nat := bucketOf inp (lastPositions (p + 1)) (hashAt inp p).toNat

/-- Every position of the window that agrees with `p` for a whole seed is a candidate. -/
theorem mem_candidates {inp : Memory} {c p len : Nat} (hlt : c < p) (hfar : p - c ≤ 65535)
    (hagree : agreeFor inp c p len) (hlen : 3 ≤ len) : c ∈ candidates inp p := by
  rw [candidates, mem_bucketOf, mem_lastPositions, hashAt_eq_of_agreeFor hagree hlen]
  exact ⟨⟨by omega, by simp only [trackMax]; omega⟩, rfl⟩

/-- The search of a step gives the best of the candidates. -/
theorem MF.Inv.bestOf_search (h : mf.Inv cfg) (hseed : mf.p.toNat + 3 ≤ mf.n.toNat) :
    BestOf mf.inp mf.n.toNat mf.p.toNat (candidates mf.inp mf.p.toNat) (mf.registerSeed mf.p.toNat).search := by
  have htracks := h.tracks.registerSeed
  rw [show min (mf.p.toNat + 1) (mf.n.toNat - 2) = mf.p.toNat + 1 by omega] at htracks
  have hbucket : (mf.registerSeed mf.p.toNat).table.bucket (hashAt mf.inp mf.p.toNat).toNat =
      candidates mf.inp mf.p.toNat := by
    rw [htracks.bucket_eq, htracks.evq_eq, MF.registerSeed_inp, candidates]
  rw [MF.search, MF.registerSeed_p, MF.registerSeed_n, MF.registerSeed_inp, if_pos hseed, hbucket]
  exact bestOf_searchBucket (pairwise_bucketOf (pairwise_lastPositions _))

/-- The decision of a step is the longest match over the window, the nearest of that length, and a literal run only
where no match is longer than 3 (41_matchfinder.md R171 to R173). -/
theorem MF.Inv.bestDecision (h : mf.Inv cfg) : mf.BestDecision mf.decision := by
  have longest {c l : Nat} (hlt : c < mf.p.toNat) (hfar : mf.p.toNat - c ≤ 65535)
      (hl : l ≤ min 258 (mf.n.toNat - mf.p.toNat)) (hagree : agreeFor mf.inp c mf.p.toNat l) (hlong : 3 < l) :
      l ≤ (mf.registerSeed mf.p.toNat).search.len :=
    Nat.le_trans (le_matchLen_iff.2 ⟨hl, hagree⟩) <|
      (h.bestOf_search (by omega)).longest c (mem_candidates hlt hfar hagree (by omega)) hlt hfar
  rcases mf.decision_cases with ⟨m, rfl, hd, hlen, hmax, hleft⟩ | ⟨hshort, hd⟩ <;> rw [hd]
  · obtain ⟨hpos, hfar, hle, hagree⟩ := (mf.registerSeed mf.p.toNat).search_agrees (by omega)
    rw [MF.registerSeed_p] at hle
    rw [MF.registerSeed_p, MF.registerSeed_inp] at hagree
    refine ⟨hpos, hfar, hle, hlen, by simp only [maxLen]; omega, hagree, fun c hlt hcfar =>
      ⟨fun l hl hcagree => ?_, fun hcagree => ?_⟩⟩
    · by_contra hlonger
      exact hlonger (longest hlt hcfar hl hcagree (by omega))
    · exact (h.bestOf_search (by omega)).nearest (by omega) c (mem_candidates hlt hcfar hcagree (by omega)) hlt hcfar
        (le_matchLen_iff.2 ⟨by omega, hcagree⟩)
  · refine ⟨rfl, fun c hlt hfar l hl hagree => ?_⟩
    by_contra hlong
    have := longest hlt hfar hl hagree (by simpa using hlong)
    simp only [minMatch] at hlong
    omega

/-! ### What a step writes to `OUT` -/

/-- What is written of `OUT` lies between the two values of OLEN. -/
def MF.WritesBetween (mf mf' : MF) : Prop :=
  mf.olen.toNat ≤ mf'.olen.toNat ∧
    ∀ a, a < mf.olen.toNat ∨ mf'.olen.toNat ≤ a → mf'.out.read a = mf.out.read a

theorem MF.WritesBetween.refl (mf : MF) : mf.WritesBetween mf := ⟨Nat.le_refl _, fun _ _ => rfl⟩

theorem MF.WritesBetween.trans {mf1 : MF} (h : mf.WritesBetween mf1) (h' : mf1.WritesBetween mf') :
    mf.WritesBetween mf' := by
  obtain ⟨hle, hread⟩ := h
  obtain ⟨hle', hread'⟩ := h'
  refine ⟨by omega, fun a ha => ?_⟩
  rw [hread' a (by omega), hread a (by omega)]

theorem MF.StepInv.flushGroup_writesBetween (hcfg : cfg.wf) (h : mf.StepInv cfg) (hf : mf.flushGroup cfg = .ok mf') :
    mf.WritesBetween mf' := by
  have holen := h.toNat_flushGroup_olen hcfg hf
  obtain ⟨-, rfl⟩ := MF.flushGroup_eq_ok.1 hf
  refine ⟨by omega, fun a ha => ?_⟩
  rw [Memory.read_writeBytes h.out_wf, if_neg]
  rw [List.length_cons, Memory.length_bytes]
  omega

theorem MF.StepInv.flushFinal_writesBetween (hcfg : cfg.wf) (h : mf.StepInv cfg) (hf : mf.flushFinal cfg = .ok mf') :
    mf.WritesBetween mf' := by
  rcases mf.flushFinal_cases cfg with ⟨he, -⟩ | ⟨he, -⟩
  · exact h.flushGroup_writesBetween hcfg (he ▸ hf)
  · cases he.symm.trans hf
    exact .refl mf

theorem MF.StepInv.closeStep_writesBetween (hcfg : cfg.wf) (h : mf.StepInv cfg) (hc : mf.closeStep cfg = .ok mf') :
    mf.WritesBetween mf' := by
  obtain ⟨mf1, h1, hclose⟩ := MF.closeStep_eq_ok hc
  obtain ⟨hinv1, hwrites1⟩ : mf1.StepInv cfg ∧ mf.WritesBetween mf1 := by
    split at h1
    · exact ⟨h.flushGroup hcfg h1, h.flushGroup_writesBetween hcfg h1⟩
    · cases h1
      exact ⟨h, .refl mf⟩
  rcases hclose with ⟨-, rfl⟩ | ⟨-, mf2, h2, rfl⟩
  · exact hwrites1
  · have hwrites2 := hinv1.flushFinal_writesBetween hcfg h2
    exact hwrites1.trans hwrites2

/-- A step leaves every byte of `OUT` outside those it appends. -/
theorem MF.Inv.engineStep_writesBetween (hcfg : cfg.wf) (h : mf.Inv cfg) (hst : mf.st = .running)
    (hs : mf.engineStep cfg = .ok mf') : mf.WritesBetween mf' := by
  rcases MF.engineStep_eq_ok hs with ⟨-, hc⟩ | ⟨-, hc⟩
  · obtain ⟨mf1, h1, rfl⟩ := MF.cancelStep_eq_ok hc
    have hwrites := h.stepInv.flushFinal_writesBetween hcfg h1
    exact hwrites
  · obtain ⟨hle, hread⟩ := (h.decideOnce (h.running_p_lt hst)).closeStep_writesBetween hcfg hc
    rw [MF.toNat_decideOnce_olen] at hle
    rw [MF.toNat_decideOnce_olen, MF.decideOnce_out] at hread
    exact ⟨hle, hread⟩

/-! ### The step on a cancellation -/

/-- With no decision recorded the control byte is 0 and nothing is staged (10_state.md R33, R34). -/
theorem MF.Inv.empty_group (h : mf.Inv cfg) (hfill : mf.fill.toNat = 0) : mf.fill = 0 ∧ mf.ctrl = 0 ∧ mf.slen = 0 := by
  refine ⟨BitVec.eq_of_toNat_eq hfill, BitVec.eq_of_getLsbD_eq fun i hi => ?_, BitVec.eq_of_toNat_eq ?_⟩
  · obtain ⟨k, hk, rfl⟩ : ∃ k, k < 8 ∧ slotBit cfg.ctrlBitOrder k = i := by
      cases cfg.ctrlBitOrder with
      | msbFirst => exact ⟨7 - i, by omega, by simp only [slotBit]; omega⟩
      | lsbFirst => exact ⟨i, hi, rfl⟩
    rw [h.ctrl_unused k (by omega) hk, BitVec.ofNat_eq_ofNat, BitVec.getLsbD_zero]
  · have := h.slen_le
    simp only [BitVec.ofNat_eq_ofNat, BitVec.toNat_ofNat]
    omega

/-- Settles O28: the step is the final flush, and where that leaves the group out the group is empty. -/
theorem engineCancellationEffects : Obligations.EngineCancellationEffects := by
  intro s t hs hst hf hreq hturn hsys
  obtain ⟨mf', hmf, rfl⟩ := State.engineTurn_eq_step hf hturn hsys
  have hwrites := hs.mf.engineStep_writesBetween hs.cfg_wf hst hmf
  have holen := hs.mf.olen_engineStep hs.cfg_wf hst hmf
  have hstream := hs.mf.stream_engineStep hs.cfg_wf hst hmf
  rw [MF.length_stepOutput_of_cancel hreq] at holen
  rw [MF.stepOutput, if_pos hreq] at hstream
  rcases MF.engineStep_eq_ok hmf with ⟨-, hc⟩ | ⟨hno, -⟩
  case inr => cases hreq.symm.trans hno
  obtain ⟨mf1, h1, rfl⟩ := MF.cancelStep_eq_ok hc
  rcases hs.mf.stepInv.flushFinal_stream hs.cfg_wf h1 with ⟨hdue, ⟨out, olen, rfl⟩, -⟩ | ⟨hzero, hempty, rfl⟩
  · rw [if_pos hdue] at holen hstream
    refine ⟨rfl, rfl, rfl, rfl, rfl, rfl, rfl, rfl, hreq, rfl, rfl, rfl, rfl,
      fun _ => ⟨hstream, by rw [holen, Nat.add_assoc]⟩, fun ⟨hfill, hempty⟩ => ?_, hwrites.2, rfl, rfl, rfl, rfl⟩
    simp [hfill, hempty] at hdue
  · obtain ⟨hfill, hctrl, hslen⟩ := hs.mf.empty_group hzero
    refine ⟨rfl, rfl, rfl, rfl, rfl, rfl, rfl, rfl, hreq, hfill, hctrl, hslen, rfl,
      fun hdue => ?_, fun _ => ⟨rfl, rfl⟩, hwrites.2, rfl, rfl, rfl, rfl⟩
    simp [hfill, hempty] at hdue

/-! ### The step that takes a decision -/

/-- A step that takes a decision advances P by its size, counts it and stages its bytes; of the rest of the matcher it
moves only the table and the queue, the output and the open group. -/
theorem MF.Inv.decide_frame (h : mf.Inv cfg) (hp : mf.p.toNat < mf.n.toNat)
    (hc : (mf.decideOnce cfg).closeStep cfg = .ok mf') :
    mf'.p.toNat = mf.p.toNat + mf.decision.size ∧ mf'.tokens.toNat = mf.tokens.toNat + 1 ∧ mf'.n = mf.n ∧
      mf'.inp = mf.inp ∧ mf'.cancelReq = mf.cancelReq ∧
      mf'.stage = mf.stage.writeBytes mf.slen.toNat mf.decision.payload := by
  have hpos := h.toNat_decideOnce_p
  have htokens := h.toNat_decideOnce_tokens hp
  obtain ⟨_, ⟨out, olen, ctrl, fill, slen, rfl⟩, rfl⟩ := MF.closeStep_onlyFlushes hc
  refine ⟨hpos, htokens, ?_⟩
  obtain ⟨h', t, e, he⟩ := mf.decideOnce_eq cfg
  rw [he]
  exact ⟨rfl, rfl, rfl, rfl⟩

/-- Settles O27: the decision is the best over the window, `MF.Inv.decide_cases` says what is staged and written out,
and the invariant after the step what is registered. -/
theorem engineDecisionEffects : Obligations.EngineDecisionEffects := by
  intro s t hs hst hf hreq hturn hsys
  obtain ⟨mf', hmf, rfl⟩ := State.engineTurn_eq_step hf hturn hsys
  have hp := hs.mf.running_p_lt hst
  have hinv := hs.mf.engineStep hs.cfg_wf hst hmf
  have hwrites := hs.mf.engineStep_writesBetween hs.cfg_wf hst hmf
  have hended : mf'.st = if mf'.p = mf'.n then .done else .running := by
    rcases MF.engineStep_st hmf with ⟨hyes, -⟩ | ⟨-, hended⟩
    · cases hyes.symm.trans hreq
    · rw [hended, hst]
  rcases MF.engineStep_eq_ok hmf with ⟨hyes, -⟩ | ⟨-, hc⟩
  case inl => cases hyes.symm.trans hreq
  obtain ⟨hpos, htokens, hn, hinp, hreq', hstage⟩ := hs.mf.decide_frame hp hc
  have hend : s.mf.reachesEnd = true ↔ mf'.p = mf'.n := by
    rw [MF.reachesEnd, decide_eq_true_iff, ← BitVec.toNat_inj, hpos, hn]
  have hfull : s.mf.fillsGroup = true ↔ s.mf.fill.toNat + 1 = 8 := by
    rw [MF.fillsGroup, decide_eq_true_iff]
  have hcases := hs.mf.decide_cases hs.cfg_wf hp hc
  refine ⟨rfl, hs.mf.bestDecision, hpos, MF.decision_size_pos hp, ?size, ?within, htokens,
    fun he => hended.trans (if_pos he), fun hne => hended.trans (if_neg hne), fun hroom hne => ?staged,
    fun hdue => ?flushed, hwrites.2, fun a ha => ?stage, ⟨hinv.evq_eq, hinv.bucket_eq, hinv.h_eq⟩, hn, hinp,
    hreq'.trans hreq, rfl, rfl, rfl, rfl⟩
  case size =>
    rcases s.mf.decision_cases with ⟨m, -, hd, -, hmax, -⟩ | ⟨-, hd⟩ <;> rw [hd]
    · exact hmax
    · rw [Slot.size_literal, Memory.length_bytes]
      omega
  case within => exact hn ▸ hinv.p_le
  case staged =>
    rcases hcases with ⟨-, -, rfl⟩ | ⟨hdue, -⟩
    · exact ⟨MF.decideOnce_stream .., MF.decideOnce_out .., hs.mf.toNat_decideOnce_fill, MF.decideOnce_ctrl ..,
        hs.mf.decideOnce_staged⟩
    · rw [Bool.or_eq_true, hfull, hend] at hdue
      exact absurd hdue (not_or.2 ⟨by omega, hne⟩)
  case flushed =>
    rw [← hfull, ← hend] at hdue
    rcases hcases with ⟨hf', he', -⟩ | ⟨-, ⟨out, olen, rfl⟩, hstream⟩
    · simp [hf', he'] at hdue
    · refine ⟨?_, rfl, rfl, rfl⟩
      rw [hstream]
      simp only [← hfull, ← hend, Bool.and_eq_true, and_assoc]
  case stage =>
    dsimp only
    rw [hstage, Memory.read_writeBytes hs.mf.stage_wf, if_neg (by omega)]

end Sys2Proof.Machine
end

section
/-! PROOFS. The anti-repeat window (42_tokencodec.md R228, R231, R232): the indices selected after those of the FIFO,
of which any 12 consecutive ones differ, and the run that shows that 13 need not. -/

namespace Sys2Proof.Machine

variable {cfg : Config} {tc tc' : TC} {idxs : List Nat}

/-- Any 12 consecutive entries differ. -/
def WindowsDiffer (l : List Nat) : Prop :=
  ∀ p q a b, p < q → q ≤ p + 11 → l[p]? = some a → l[q]? = some b → a ≠ b

theorem WindowsDiffer.of_nodup {l : List Nat} (h : l.Nodup) : WindowsDiffer l := by
  rintro p q a b hpq - ha hb rfl
  obtain ⟨hp, -⟩ := List.getElem?_eq_some_iff.1 ha
  exact hpq.ne ((List.getElem?_inj hp h).1 (ha.trans hb.symm))

/-- An entry in front that the 11 after it do not hold. -/
theorem WindowsDiffer.cons {x : Nat} {l : List Nat} (hx : x ∉ l.take 11) (h : WindowsDiffer l) :
    WindowsDiffer (x :: l) := by
  rintro p (_ | q) a b hpq hq ha hb
  · omega
  · cases p with
    | zero =>
      rintro rfl
      obtain rfl : x = a := by simpa using ha
      have hmem : (l.take 11)[q]? = some x := by rw [List.getElem?_take_of_lt (by omega), ← hb, List.getElem?_cons_succ]
      exact hx (List.mem_of_getElem? hmem)
    | succ p =>
      rw [List.getElem?_cons_succ] at ha hb
      exact h p q a b (by omega) (by omega) ha hb

/-- An index selected is not in the FIFO (42_tokencodec.md R228). -/
theorem TC.Inv.select_not_mem (h : tc.Inv cfg) {v idx : Nat} (hs : tc.select v = .ok (idx, tc')) : idx ∉ tc.arq := by
  obtain ⟨hidx, -⟩ := TC.select_eq_ok.1 hs
  have husable := nthUsable_usable hidx
  intro hmem
  rw [(h.usable_iff idx (h.arq_lt idx hmem)).2 hmem] at husable
  cases husable

/-- The FIFO and the indices selected after it: a selection either appends to the FIFO, or drops its oldest entry, which
the other 10 and the index selected do not hold. -/
theorem TC.Inv.windowsDiffer (h : tc.Inv cfg) {vs : List Nat} (hs : tc.selectAll vs = .ok (idxs, tc')) :
    WindowsDiffer (tc.arq ++ idxs) := by
  induction vs generalizing tc idxs with
  | nil =>
    cases hs
    rw [List.append_nil]
    exact .of_nodup h.arq_nodup
  | cons v vs ih =>
    obtain ⟨idx, tc1, rest, hsel, hrun, rfl⟩ := TC.selectAll_cons_eq_ok hs
    have hafter := h.afterSelection hsel
    have hrest := ih hafter.inv hrun
    have hlen := h.arq_length
    simp only [arDepth] at hlen
    rw [hafter.arq, List.length_singleton] at hrest
    by_cases hroom : tc.arq.length < 11
    · rw [show tc.arq.length + 1 - 11 = 0 by omega, List.drop_zero, List.append_assoc] at hrest
      exact hrest
    · obtain ⟨o, as, harq⟩ := List.exists_cons_of_length_pos (l := tc.arq) (by omega)
      have hfull : (as ++ [idx]).length = 11 := by
        rw [harq, List.length_cons] at hlen hroom
        rw [List.length_append, List.length_singleton]
        omega
      have hnew : o ∉ as ++ [idx] := by
        obtain ⟨ho, -⟩ := List.nodup_cons.1 (harq ▸ h.arq_nodup)
        have hidx : idx ≠ o := fun he => h.select_not_mem hsel (by simp [harq, he])
        simp [ho, hidx.symm]
      rw [show tc.arq.length + 1 - 11 = 1 by omega, harq, List.cons_append, List.drop_one, List.tail_cons] at hrest
      rw [harq, List.cons_append, List.append_cons as]
      refine hrest.cons ?_
      rwa [List.take_append_of_le_length (by omega), List.take_of_length_le (by omega)]

/-- The value 0 selects the first usable symbol. -/
theorem nthUsable_zero (i : Nat) (us : List Bool) : nthUsable (List.replicate i false ++ true :: us) 0 = some i := by
  induction i with
  | zero => rfl
  | succ i ih => simp [List.replicate_succ, nthUsable, ih]

theorem set_first_usable (i : Nat) (us : List Bool) :
    (List.replicate i false ++ true :: us).set i false = List.replicate (i + 1) false ++ us := by
  simp [List.set_append_right, List.replicate_succ']

/-- With the first `i` symbols in the FIFO the value 0 selects the next one. -/
theorem TC.select_zero {i : Nat} {us : List Bool} (hu : tc.usable = List.replicate i false ++ true :: us)
    (ha : tc.arq = List.range i) :
    tc.select 0 = .ok (i, (tc.markUsed i).restoreOldest) ∧
      (tc.markUsed i).usable = List.replicate (i + 1) false ++ us ∧ (tc.markUsed i).arq = List.range (i + 1) :=
  ⟨TC.select_eq_ok.2 ⟨by rw [hu, nthUsable_zero], rfl⟩, by rw [TC.markUsed_usable, hu, set_first_usable],
    by rw [TC.markUsed_arq, ha, List.range_succ]⟩

/-- So it selects one after the other up to the twelfth, which makes the first one usable again. -/
theorem TC.selectAll_zeros {i k : Nat} {us : List Bool}
    (hu : tc.usable = List.replicate i false ++ true :: (List.replicate k true ++ us)) (ha : tc.arq = List.range i)
    (hk : i + k = 11) :
    ∃ tc', tc.selectAll (List.replicate (k + 2) 0) = .ok (List.range' i (k + 1) ++ [0], tc') := by
  induction k generalizing tc i with
  | zero =>
    obtain rfl : i = 11 := hk
    obtain ⟨hsel, hused, harq⟩ := TC.select_zero hu ha
    rcases (tc.markUsed 11).restoreOldest_cases with ⟨-, he⟩ | ⟨hroom, -⟩
    · have hfirst : nthUsable ((tc.markUsed 11).restoreOldest).usable 0 = some 0 := by
        rw [he, hused, harq]
        rfl
      exact ⟨_, TC.selectAll_cons hsel (TC.selectAll_cons (TC.select_eq_ok.2 ⟨hfirst, rfl⟩) rfl)⟩
    · exact absurd (by rw [harq, List.length_range]) hroom
  | succ k ih =>
    obtain ⟨hsel, hused, harq⟩ := TC.select_zero hu ha
    rcases (tc.markUsed i).restoreOldest_cases with ⟨hfull, -⟩ | ⟨-, he⟩
    · rw [harq, List.length_range] at hfull
      omega
    · rw [he] at hsel
      obtain ⟨tc', hrun⟩ := ih hused harq (by omega)
      exact ⟨tc', TC.selectAll_cons hsel hrun⟩

/-- Settles O38: the FIFO and the indices selected after it are one sequence, of which any 12 consecutive entries
differ. -/
theorem antirepeatWindow : Obligations.AntirepeatWindow := by
  refine ⟨fun cfg tc tc' vs idxs h hs => ⟨fun j k a b hjk hk ha hb => ?selected, fun j a hj ha hmem => ?fifo⟩,
    fun cfg tc hsize => ?tight⟩
  case selected =>
    refine h.windowsDiffer hs (tc.arq.length + j) (tc.arq.length + k) a b (by omega) (by omega) ?_ ?_
    · rwa [List.getElem?_append_right (by omega), Nat.add_sub_cancel_left]
    · rwa [List.getElem?_append_right (by omega), Nat.add_sub_cancel_left]
  case fifo =>
    obtain ⟨p, hp, hget⟩ := List.getElem_of_mem hmem
    refine h.windowsDiffer hs p (tc.arq.length + j) a a (by omega) (by omega) ?_ ?_ rfl
    · rw [List.getElem?_append_left hp, List.getElem?_eq_getElem hp, hget]
    · rwa [List.getElem?_append_right (by omega), Nat.add_sub_cancel_left]
  case tight =>
    obtain ⟨m, hm⟩ := Nat.exists_eq_add_of_le' hsize
    refine TC.selectAll_zeros (i := 0) (k := 11) (us := List.replicate m true) ?_ rfl rfl
    rw [TC.init_usable, hm, List.replicate_append_replicate, Nat.add_comm 11]
    rfl

end Sys2Proof.Machine
end

section
/-! PROOFS. The commands of the token encoder but for `TC.PACKET` (42_tokencodec.md R221 to R231, R242, R243): which
symbol a selection finds, what one symbol gives and when it faults, and the statements on `TC.INIT`, `TC.NEXT`,
`TC.RELEASE` and `TC.RDPKT`. -/

namespace Sys2Proof.Machine

variable {cfg : Config}

/-! ### The symbol selected -/

/-- A selection finds the usable symbol with `v` usable ones before it. -/
theorem nthUsable_eq_some {us : List Bool} {v i : Nat} :
    nthUsable us v = some i ↔ us[i]? = some true ∧ (us.take i).count true = v := by
  induction us generalizing v i with
  | nil => simp [nthUsable]
  | cons u us ih =>
    cases u with
    | false => cases i <;> simp [nthUsable, ih]
    | true =>
      cases v with
      | zero => cases i <;> simp [nthUsable]
      | succ v => cases i <;> simp [nthUsable, ih]

/-- Settles O40: the index selected has the property, and a symbol that has it is the one selected. -/
theorem receiverRecoversValue : Obligations.ReceiverRecoversValue := by
  intro tc tc' v idx hs
  obtain ⟨hidx, -⟩ := TC.select_eq_ok.1 hs
  obtain ⟨husable, hrank⟩ := nthUsable_eq_some.1 hidx
  refine ⟨husable, hrank, fun i hi hr => ?_⟩
  have hfound := nthUsable_eq_some.2 ⟨hi, hr⟩
  exact Option.some.inj (hfound.symm.trans hidx)

/-! ### The value of a token -/

/-- The bits of a token, the first the most significant, determine its value (42_tokencodec.md R224). -/
theorem BC.eq_bitsAt {b : BC} {k n v : Nat} (hv : v < 2 ^ n)
    (hbits : ∀ j, j < n → v.testBit (n - 1 - j) = b.bit (k + j)) : v = b.bitsAt k n := by
  refine Nat.eq_of_testBit_eq fun i => ?_
  rw [BC.testBit_bitsAt]
  by_cases hi : i < n
  · have hidx : n - 1 - (n - 1 - i) = i := by omega
    rw [← hbits (n - 1 - i) (by omega), hidx]
    simp [hi]
  · rw [Nat.testBit_lt_two_pow (Nat.lt_of_lt_of_le hv (Nat.pow_le_pow_right (by decide) (by omega)))]
    simp [hi]

/-- Bit by bit, the value read. -/
theorem BC.testBit_bitsAt_sub (b : BC) (k : Nat) {n j : Nat} (hj : j < n) :
    (b.bitsAt k n).testBit (n - 1 - j) = b.bit (k + j) := by
  have hidx : n - 1 - (n - 1 - j) = j := by omega
  have hlt : n - 1 - j < n := by omega
  rw [BC.testBit_bitsAt, hidx]
  simp [hlt]

/-! ### Where a symbol faults -/

/-- Everything one symbol can fault with, in the order of 60_exceptions.md R288. -/
theorem TokenState.next_eq_error {ts : TokenState} {c : Cause} :
    ts.next cfg = .error c ↔
      (ts.bc.check (if ts.tc.mode = .fixed6 then 6 else 5) = some c) ∨
      (ts.tc.mode = .antirep5 ∧ ts.bc.check 5 = none ∧
        ts.tc.usable.count true ≤ ts.bc.bitsAt ts.bc.pos.toNat 5 ∧ c = .tcTokenRange) := by
  unfold TokenState.next
  cases hm : ts.tc.mode with
  | fixed6 =>
    rw [if_pos rfl, ← BC.readBits_eq_error]
    simp only [TokenState.nextFixed]
    cases ts.bc.readBits 6 <;> simp
  | antirep5 =>
    rw [if_neg (by decide)]
    simp only [TokenState.nextAntirep]
    cases hc : ts.bc.check 5 with
    | some c' => simp [BC.readBits_eq_error.2 hc]
    | none =>
      rw [BC.readBits_eq_ok.2 ⟨hc, rfl⟩, ← TC.select_eq_error]
      dsimp only
      cases ts.tc.select (ts.bc.bitsAt ts.bc.pos.toNat 5) <;> simp

/-- The cursor's checks at a width within 1 to 32. -/
theorem BC.check_eq_posOverflow {b : BC} {n : Nat} (hlo : 1 ≤ n) (hhi : n ≤ 32) (hp : 4294967295 < b.pos.toNat + n) :
    b.check n = some .bcPosOverflow := by
  rcases b.check_cases n with ⟨-, hn⟩ | ⟨hc, -⟩ | ⟨-, -, -, hfits⟩
  · omega
  · exact hc
  · omega

/-! ### The commands -/

section
variable {s : State} {mode i : Byte} {code : Byte} {ts : TokenState} {c : Cause}

/-- `TC.INIT` with the number of a mode (42_tokencodec.md R221). -/
theorem exec_tcInit_of_code (hf : s.sys.faulted = false) (m : TcMode) (h : mode.toNat = m.code.toNat) :
    exec (.tcInit mode) s = .next (State.respond { s with tc := s.tc.init s.cfg m } 0x00 0) := by
  rw [exec, execTcInit, State.serve_unfaulted hf, h]
  cases m <;> rfl

/-- `TC.NEXT` where its symbol does not fault (42_tokencodec.md R225). -/
theorem exec_tcNext_of_next (hf : s.sys.faulted = false)
    (h : TokenState.next s.cfg { bc := s.bc, tc := s.tc } = .ok (code, ts)) :
    exec .tcNext s = .next (State.respond { s with bc := ts.bc, tc := ts.tc } 0x00 (code.setWidth 32)) := by
  rw [exec, execTcNext, State.serve_unfaulted hf, h]
  rfl

theorem exec_tcNext_of_next_error (hf : s.sys.faulted = false)
    (h : TokenState.next s.cfg { bc := s.bc, tc := s.tc } = .error c) :
    exec .tcNext s = .next (s.raiseFault c) := by
  rw [exec, execTcNext, State.serve_unfaulted hf, h]
  rfl

/-- `TC.RELEASE` (42_tokencodec.md R242). -/
theorem exec_tcRelease (hf : s.sys.faulted = false) :
    exec .tcRelease s = .next (State.respond { s with tc := { s.tc with pkt := releasePacket } } 0x00 0) := by
  rw [exec, execTcRelease, State.serve_unfaulted hf, State.answer_done]

/-- `TC.RDPKT` within the packet (42_tokencodec.md R243). -/
theorem exec_tcRdPkt_of_lt (hf : s.sys.faulted = false) (hi : i.toNat < 8) :
    exec (.tcRdPkt i) s = .next (s.respond 0x00 ((s.tc.pkt.getD i.toNat 0).setWidth 32)) := by
  rw [exec, execTcRdPkt, State.serve_unfaulted hf, if_neg (by simp only [pktBytes]; omega), State.answer_done]

end

/-! ### The statements -/

/-- Settles O30: the two numbers are those of the two modes. -/
theorem tcInitResult : Obligations.TcInitResult := by
  intro s mode hf hmode
  obtain ⟨m, hm⟩ : ∃ m : TcMode, mode.toNat = m.code.toNat := by
    rcases Nat.le_one_iff_eq_zero_or_eq_one.1 hmode with h | h
    · exact ⟨.fixed6, h⟩
    · exact ⟨.antirep5, h⟩
  exact ⟨_, exec_tcInit_of_code hf m hm, hm.symm, rfl, rfl, rfl, rfl, rfl, rfl, rfl, rfl⟩

/-- Settles O37: the packet register has the byte, as the invariant gives it 8. -/
theorem tcReleaseAndReadPacket : Obligations.TcReleaseAndReadPacket := by
  refine ⟨fun s hf => ⟨_, exec_tcRelease hf, rfl, rfl, rfl, rfl, rfl, rfl⟩, fun s i hs hf hi => ?_⟩
  have hlt : i.toNat < s.tc.pkt.length := by
    rw [hs.tc.pkt_length, pktBytes]
    omega
  refine ⟨_, _, exec_tcRdPkt_of_lt hf (by omega), List.getElem?_eq_getElem hlt, ?_⟩
  rw [List.getD_eq_getElem _ _ hlt]
  exact s.onlyAnswers_respond ..

/-- Settles O31: the value is the one read, and a table of 64 entries has it. -/
theorem tcNextFixedResult : Obligations.TcNextFixedResult := by
  intro s hwf hf hm hp
  obtain ⟨-, -, -, hsym, -⟩ := hwf
  have hv : s.bc.bitsAt s.bc.pos.toNat 6 < s.cfg.sym6.length := hsym ▸ s.bc.bitsAt_lt _ 6
  have hnext := TokenState.next_of_fixed6 (cfg := s.cfg) (ts := ⟨s.bc, s.tc⟩) hm hp
  refine ⟨_, s.bc.bitsAt s.bc.pos.toNat 6, _, exec_tcNext_of_next hf hnext, s.bc.bitsAt_lt _ 6,
    fun j hj => s.bc.testBit_bitsAt_sub _ hj, ?_, rfl, BC.toNat_pos_advance hp, rfl, rfl, rfl, rfl, rfl, rfl⟩
  rw [List.getElem?_eq_getElem hv, List.getD_eq_getElem _ _ hv]

/-- Settles O32: the value is the one read, a symbol is found for it, and the selection keeps the invariant. -/
theorem tcNextAntirepResult : Obligations.TcNextAntirepResult := by
  intro s hs hf hm hp v hv hbits hcount
  obtain rfl : v = s.bc.bitsAt s.bc.pos.toNat 5 := BC.eq_bitsAt hv hbits
  obtain ⟨idx, hidx⟩ := Option.isSome_iff_exists.1 (nthUsable_isSome.2 hcount)
  obtain ⟨husable, hrank⟩ := nthUsable_eq_some.1 hidx
  have hsel := TC.select_eq_ok.2 ⟨hidx, rfl⟩
  have hafter := hs.tc.afterSelection hsel
  have hlt : idx < s.cfg.alpha5.length := hafter.lt idx (List.mem_singleton_self idx)
  have hnext := TokenState.next_of_antirep5 (cfg := s.cfg) (ts := ⟨s.bc, s.tc⟩) hm hp hsel
  refine ⟨_, idx, _, exec_tcNext_of_next hf hnext, husable, hrank, ?code, rfl, fun hroom => ?room, fun hfull => ?full,
    hafter.inv.usable_iff, hafter.mode, hafter.pkt, BC.toNat_pos_advance hp, rfl, rfl, rfl, rfl, rfl⟩
  case code => rw [List.getElem?_eq_getElem hlt, List.getD_eq_getElem _ _ hlt]
  case room =>
    refine hafter.arq.trans ?_
    rw [List.length_singleton, Nat.sub_eq_zero_of_le hroom, List.drop_zero]
  case full =>
    refine hafter.arq.trans ?_
    rw [List.length_singleton, hfull, List.drop_one]

/-- Settles O33: the two ways a symbol faults. -/
theorem tcNextFaults : Obligations.TcNextFaults := by
  intro s hf
  constructor
  · intro hp
    have hcheck : s.bc.check (if s.tc.mode = .fixed6 then 6 else 5) = some .bcPosOverflow :=
      BC.check_eq_posOverflow (by split <;> decide) (by split <;> decide) hp
    exact ⟨_, exec_tcNext_of_next_error hf (TokenState.next_eq_error.2 (.inl hcheck)), s.raises_raiseFault _⟩
  · intro hm hp hcount
    have hcheck : s.bc.check 5 = none := BC.check_eq_none.2 ⟨by decide, by decide, hp⟩
    exact ⟨_, exec_tcNext_of_next_error hf (TokenState.next_eq_error.2 (.inr ⟨hm, hcheck, hcount, rfl⟩)),
      s.raises_raiseFault _⟩

end Sys2Proof.Machine
end

section
/-! PROOFS. `TC.PACKET` against repeated `TC.NEXT` (42_tokencodec.md R240, R241), and where no token selection can fault
(42_tokencodec.md R229, R236). -/

namespace Sys2Proof.Machine

variable {cfg : Config}

/-! ### Runs of symbols -/

/-- A run faults with the first of its symbols that does. -/
theorem TokenState.take_succ_eq_error {ts : TokenState} {k : Nat} {c : Cause}
    (h : ts.take cfg (k + 1) = .error c) :
    ts.next cfg = .error c ∨ ∃ code ts1, ts.next cfg = .ok (code, ts1) ∧ ts1.take cfg k = .error c := by
  rw [TokenState.take] at h
  split at h
  · rename_i c' h1
    cases h
    exact .inl h1
  · rename_i code ts1 h1
    split at h
    · rename_i c' h2
      cases h
      exact .inr ⟨code, ts1, h1, h2⟩
    · cases h

/-! ### `TC.NEXT` repeated -/

section
variable {s u : State} {k : Nat} {codes : List Byte} {ts : TokenState} {c : Cause}

/-- The state after `TC.NEXT` commands that answered with the codes `codes`. -/
def State.afterCodes (s : State) (codes : List Byte) (ts : TokenState) : State :=
  { s with
    bc := ts.bc, tc := ts.tc
    port := { s.port with
      responses := (codes.map fun code => (0x00 : Byte) ++ code.setWidth 32).reverse ++ s.port.responses } }

theorem State.afterCodes_cons (s : State) (code : Byte) (codes : List Byte) (ts1 ts : TokenState) :
    State.afterCodes (State.respond { s with bc := ts1.bc, tc := ts1.tc } 0x00 (code.setWidth 32)) codes ts =
      s.afterCodes (code :: codes) ts := by
  simp [State.afterCodes, State.respond, rspWord]

/-- As many `TC.NEXT` as a run has symbols return its codes and leave what it leaves. -/
theorem execList_tcNext_of_take (hf : s.sys.faulted = false)
    (h : TokenState.take s.cfg { bc := s.bc, tc := s.tc } k = .ok (codes, ts)) :
    execList (List.replicate k .tcNext) s = some (s.afterCodes codes ts) := by
  induction k generalizing s codes with
  | zero => cases h; rfl
  | succ k ih =>
    obtain ⟨code, ts1, rest, hnext, htake, rfl⟩ := TokenState.take_succ_eq_ok h
    rw [← State.afterCodes_cons s code rest ts1]
    exact execList_cons (exec_tcNext_of_next hf hnext) (ih hf htake)

/-- In the fault state every `TC.NEXT` is refused. -/
theorem execList_tcNext_of_faulted (hf : s.sys.faulted = true) (k : Nat) :
    ∃ u, execList (List.replicate k .tcNext) s = some u ∧ u.sys = s.sys := by
  induction k generalizing s with
  | zero => exact ⟨s, rfl, rfl⟩
  | succ k ih =>
    obtain ⟨u, hu, hsys⟩ := ih (s := s.respond 0x02 0) hf
    have hexec : exec .tcNext s = .next (s.respond 0x02 0) := by
      rw [exec, execTcNext, State.serve_faulted hf]
    exact ⟨u, execList_cons hexec hu, hsys⟩

/-- Where a run faults the repeated command faults with the same code, and the commands after it are refused. -/
theorem execList_tcNext_of_take_error (hf : s.sys.faulted = false)
    (h : TokenState.take s.cfg { bc := s.bc, tc := s.tc } k = .error c) :
    ∃ u, execList (List.replicate k .tcNext) s = some u ∧ u.sys = { faulted := true, faultCode := c.code } := by
  induction k generalizing s with
  | zero => cases h
  | succ k ih =>
    rcases TokenState.take_succ_eq_error h with hnext | ⟨code, ts1, hnext, htake⟩
    · obtain ⟨u, hu, hsys⟩ := execList_tcNext_of_faulted (s := s.raiseFault c) rfl k
      exact ⟨u, execList_cons (exec_tcNext_of_next_error hf hnext) hu, hsys⟩
    · obtain ⟨u, hu, hsys⟩ := ih (s := State.respond { s with bc := ts1.bc, tc := ts1.tc } 0x00 (code.setWidth 32))
        hf htake
      exact ⟨u, execList_cons (exec_tcNext_of_next hf hnext) hu, hsys⟩

/-- `TC.PACKET` with a legal count whose run of symbols faults (42_tokencodec.md R241). -/
theorem exec_tcPacket_of_take_error {k : Byte} (hf : s.sys.faulted = false) (hlo : 1 ≤ k.toNat) (hhi : k.toNat ≤ 6)
    (h : TokenState.take s.cfg { bc := s.bc, tc := s.tc } k.toNat = .error c) :
    exec (.tcPacket k) s = .next (s.raiseFault c) := by
  have hcount : ¬(k.toNat = 0 ∨ pktSyms < k.toNat) := by simp only [pktSyms]; omega
  rw [exec, execTcPacket, State.serve_unfaulted hf, if_neg hcount, h]
  rfl

end

/-- Settles O36: both follow the same run of symbols, whose codes the commands return and the packet holds. -/
theorem tcPacketIsRepeatedNext : Obligations.TcPacketIsRepeatedNext := by
  intro s u k hf hlo hhi hu
  cases htake : TokenState.take s.cfg { bc := s.bc, tc := s.tc } k.toNat with
  | ok r =>
    obtain ⟨codes, ts⟩ := r
    cases (execList_tcNext_of_take hf htake).symm.trans hu
    have hlen := TokenState.length_take htake
    refine ⟨_, exec_tcPacket_of_take hf hlo hhi htake, fun _ => ?_, fun hfu => absurd (hf.symm.trans hfu) (by decide)⟩
    refine ⟨rfl, rfl, rfl, rfl, rfl, codes, hlen, rfl, ?_⟩
    rw [← hlen]
    rfl
  | error c =>
    obtain ⟨u', hu', hsys⟩ := execList_tcNext_of_take_error hf htake
    cases hu'.symm.trans hu
    rw [hsys]
    exact ⟨_, exec_tcPacket_of_take_error hf hlo hhi htake, fun hfu => Bool.noConfusion hfu,
      fun _ => ⟨c, rfl, s.raises_raiseFault c⟩⟩

/-! ### Where no selection faults -/

/-- With 43 symbols no symbol faults for want of usable ones. -/
theorem TokenState.next_error_of_43 {ts : TokenState} {c : Cause} (ht : ts.tc.Inv cfg) (hsize : 43 ≤ cfg.a5Size)
    (h : ts.next cfg = .error c) : c ≠ .tcTokenRange := by
  rintro rfl
  rcases TokenState.next_eq_error.1 h with hcheck | ⟨-, -, hcount, -⟩
  · rcases ts.bc.check_cases (if ts.tc.mode = .fixed6 then 6 else 5) with ⟨hc, -⟩ | ⟨hc, -⟩ | ⟨hc, -⟩ <;>
      cases hc.symm.trans hcheck
  · obtain ⟨idx, tc', hsel⟩ := ht.select_of_43 hsize (ts.bc.bitsAt_lt ts.bc.pos.toNat 5)
    cases hsel.symm.trans (TC.select_eq_error.2 ⟨hcount, rfl⟩)

theorem TokenState.take_error_of_43 {ts : TokenState} {k : Nat} {c : Cause} (hb : ts.bc.Inv cfg) (ht : ts.tc.Inv cfg)
    (hsize : 43 ≤ cfg.a5Size) (h : ts.take cfg k = .error c) : c ≠ .tcTokenRange := by
  induction k generalizing ts with
  | zero => cases h
  | succ k ih =>
    rcases TokenState.take_succ_eq_error h with hnext | ⟨code, ts1, hnext, htake⟩
    · exact TokenState.next_error_of_43 ht hsize hnext
    · obtain ⟨hb1, ht1⟩ := TokenState.next_inv hb ht hnext
      exact ih hb1 ht1 htake

/-- The codes of 30_encoding.md R93 are different. -/
theorem Cause.eq_tcTokenRange_of_code {c : Cause} (h : c.code = 0x30) : c = .tcTokenRange := by
  revert h
  cases c <;> decide

/-- `TC_TOKEN_RANGE` is a fault of token selections only (60_exceptions.md R280). -/
theorem State.ownFault_ne_tcTokenRange (s : State) (i : Instr) : s.ownFault i ≠ some .tcTokenRange := by
  cases i <;> grind [State.ownFault]

section
variable {s t : State} {i : Instr}

/-- A command that takes no token never raises `TC_TOKEN_RANGE`. -/
theorem exec_takesNoToken_faultCode (hf : s.sys.faulted = false) (hi : i.takesTokens = false)
    (h : exec i s = .next t) (hft : t.sys.faulted = true) : t.sys.faultCode ≠ 0x30 := by
  by_cases hrun : s.mf.st = .running ∧ i.refusedWhileRunning = true
  · cases (exec_refusedWhileRunning hrun.2 hrun.1).symm.trans h
    rw [State.serve_unfaulted hf] at hft
    cases hf.symm.trans hft
  · obtain ⟨hraises, hexecutes⟩ := commandFaults.1 s i hf hrun
    cases hown : s.ownFault i with
    | none =>
      obtain ⟨t', val, ht', hft', -⟩ := hexecutes hown hi
      cases ht'.symm.trans h
      cases hft'.symm.trans hft
    | some c =>
      obtain ⟨t', ht', -, -, -, -, -, hcode, -⟩ := hraises c hown
      cases ht'.symm.trans h
      rw [hcode]
      intro hc
      exact s.ownFault_ne_tcTokenRange i (Cause.eq_tcTokenRange_of_code hc ▸ hown)

/-- With 43 symbols a command that takes tokens does not raise it either. -/
theorem exec_takesTokens_faultCode (hs : s.Inv) (hf : s.sys.faulted = false) (hsize : 43 ≤ s.cfg.a5Size)
    (hi : i.takesTokens = true) (h : exec i s = .next t) (hft : t.sys.faulted = true) : t.sys.faultCode ≠ 0x30 := by
  have executed {u : State} (he : exec i s = .next u) (hu : u.sys = s.sys) : t.sys.faultCode ≠ 0x30 := by
    cases he.symm.trans h
    rw [hu, hf] at hft
    cases hft
  have raised {c : Cause} (he : exec i s = .next (s.raiseFault c)) (hc : c ≠ .tcTokenRange) :
      t.sys.faultCode ≠ 0x30 := by
    cases he.symm.trans h
    exact fun hcode => hc (Cause.eq_tcTokenRange_of_code hcode)
  cases i with
  | tcNext =>
    cases hnext : TokenState.next s.cfg { bc := s.bc, tc := s.tc } with
    | ok r => exact executed (exec_tcNext_of_next hf hnext) rfl
    | error c => exact raised (exec_tcNext_of_next_error hf hnext) (TokenState.next_error_of_43 hs.tc hsize hnext)
  | tcPacket k =>
    by_cases hk : k.toNat = 0 ∨ 6 < k.toNat
    · exact raised (exec_takesTokens hf rfl (if_pos hk)) (by decide)
    · cases htake : TokenState.take s.cfg { bc := s.bc, tc := s.tc } k.toNat with
      | ok r => exact executed (exec_tcPacket_of_take hf (by omega) (by omega) htake) rfl
      | error c =>
        exact raised (exec_tcPacket_of_take_error hf (by omega) (by omega) htake)
          (TokenState.take_error_of_43 hs.bc hs.tc hsize htake)
  | _ => cases hi

end

/-- Settles O39: with 43 symbols neither a symbol nor a run of symbols raises the fault, and no other command does; with
42 of which 11 are in the FIFO, 31 are usable. -/
theorem noTokenRangeFaultFrom43 : Obligations.NoTokenRangeFaultFrom43 := by
  refine ⟨fun s t i hs hf hsize h hft => ?from43, fun s hs hf hsize hm harq hp hv => ?at42⟩
  case from43 =>
    cases hi : i.takesTokens with
    | true => exact exec_takesTokens_faultCode hs hf hsize hi h hft
    | false => exact exec_takesNoToken_faultCode hf hi h hft
  case at42 =>
    have hcount := hs.tc.count_usable
    exact (tcNextFaults s hf).2 hm hp (by omega)

end Sys2Proof.Machine
end

section
/-! PROOFS. The lifetime of the anti-repeat state (42_tokencodec.md R222): what each command does to `USABLE` and `ARQ`,
and what a step that is no command does. -/

namespace Sys2Proof.Machine

variable {cfg : Config}

/-- The anti-repeat state is as it was. -/
def State.KeepsAntirep (s t : State) : Prop := t.tc.usable = s.tc.usable ∧ t.tc.arq = s.tc.arq

theorem State.keepsAntirep_of_tc {s t : State} (h : t.tc = s.tc) : s.KeepsAntirep t := by
  rw [State.KeepsAntirep, h]
  exact ⟨rfl, rfl⟩

/-- The fixed policy has no state (42_tokencodec.md R226). -/
theorem TokenState.next_fixed6_tc {ts ts' : TokenState} {code : Byte} (hm : ts.tc.mode = .fixed6)
    (h : ts.next cfg = .ok (code, ts')) : ts'.tc = ts.tc := by
  rcases TokenState.next_eq_ok h with ⟨-, -, -, rfl⟩ | ⟨hm', -⟩
  · rfl
  · cases hm.symm.trans hm'

theorem TokenState.take_fixed6_tc {ts ts' : TokenState} {k : Nat} {codes : List Byte} (hm : ts.tc.mode = .fixed6)
    (h : ts.take cfg k = .ok (codes, ts')) : ts'.tc = ts.tc := by
  induction k generalizing ts codes with
  | zero => cases h; rfl
  | succ k ih =>
    obtain ⟨code, ts1, rest, hnext, htake, -⟩ := TokenState.take_succ_eq_ok h
    have hfirst := TokenState.next_fixed6_tc hm hnext
    rw [ih (hfirst ▸ hm) htake, hfirst]

section
variable {s t : State} {r : Reply}

/-- A refusal and a fault keep the anti-repeat state. -/
theorem State.keepsAntirep_answer (h : r.Leaves s.KeepsAntirep) : s.KeepsAntirep (s.answer r) := by
  cases r with
  | done u val => exact h
  | busy => exact ⟨rfl, rfl⟩
  | raise c => exact ⟨rfl, rfl⟩

theorem State.keepsAntirep_serve (h : r.Leaves s.KeepsAntirep) : s.KeepsAntirep (s.serve r) := by
  cases hf : s.sys.faulted with
  | true => rw [State.serve_faulted hf]; exact ⟨rfl, rfl⟩
  | false => rw [State.serve_unfaulted hf]; exact State.keepsAntirep_answer h

/-- A check that raises a fault, then the rest. -/
theorem Reply.leaves_ite_raise {P : State → Prop} {p : Prop} [Decidable p] {c : Cause} (h : ¬p → r.Leaves P) :
    (if p then .raise c else r : Reply).Leaves P := by
  split
  · trivial
  · rename_i hp; exact h hp

theorem State.keepsAntirep_replyRead (n : Nat) : (s.replyRead n).Leaves s.KeepsAntirep := by
  unfold State.replyRead
  split
  · trivial
  · exact ⟨rfl, rfl⟩

theorem State.keepsAntirep_replyWrite (n : Nat) (value : Word) : (s.replyWrite n value).Leaves s.KeepsAntirep := by
  unfold State.replyWrite
  split
  · trivial
  · exact ⟨rfl, rfl⟩

/-- Only a reset, `TC.INIT` and the selections of `ANTIREP5` are commands that may change the anti-repeat state. -/
theorem exec_keepsAntirep {i : Instr} (hreset : i ≠ .sysReset) (hinit : ∀ m, i ≠ .tcInit m)
    (htokens : i.takesTokens = true → s.tc.mode = .fixed6) (h : exec i s = .next t) : s.KeepsAntirep t := by
  have served {r : Reply} (he : exec i s = .next (s.serve r)) (hr : r.Leaves s.KeepsAntirep) : s.KeepsAntirep t := by
    cases he.symm.trans h
    exact State.keepsAntirep_serve hr
  have same : s.KeepsAntirep s := ⟨rfl, rfl⟩
  cases i with
  | sysReset => exact absurd rfl hreset
  | tcInit mode => exact absurd rfl (hinit mode)
  | sysNop | sysStatus => cases h; exact same
  | bcAlloc len | bcSeek offset => exact served rfl (Reply.leaves_ite_raise fun _ => same)
  | bcReadBits n => exact served rfl (State.keepsAntirep_replyRead _)
  | bcWriteBits n value => exact served rfl (State.keepsAntirep_replyWrite _ value)
  | bcReadByte => exact served rfl (State.keepsAntirep_replyRead 8)
  | bcWriteByte value => exact served rfl (State.keepsAntirep_replyWrite 8 value)
  | mfClear | mfStart => exact served rfl (Reply.leaves_unlessRunning fun _ => same)
  | mfPut byte =>
    exact served rfl (Reply.leaves_unlessRunning fun _ => Reply.leaves_ite_raise fun _ =>
      Reply.leaves_ite_raise fun _ => same)
  | mfGet addr => exact served rfl (Reply.leaves_unlessRunning fun _ => Reply.leaves_ite_raise fun _ => same)
  | mfCancel =>
    refine served rfl ?_
    rw [Reply.leaves_done]
    split <;> exact same
  | mfInfo sel =>
    refine served rfl ?_
    split
    · exact same
    · trivial
  | tcNext =>
    refine served rfl ?_
    split
    · trivial
    · rename_i code ts hnext
      exact State.keepsAntirep_of_tc (TokenState.next_fixed6_tc (htokens rfl) hnext)
  | tcPacket k =>
    refine served rfl (Reply.leaves_ite_raise fun _ => ?_)
    split
    · trivial
    · rename_i codes ts htake
      have htc : ts.tc = s.tc := TokenState.take_fixed6_tc (htokens rfl) htake
      rw [Reply.leaves_done, State.KeepsAntirep, htc]
      exact ⟨rfl, rfl⟩
  | tcRelease => exact served rfl same
  | tcRdPkt idx => exact served rfl (Reply.leaves_ite_raise fun _ => same)

end

/-- Settles O41: of the commands only those named change the anti-repeat state, and of the other events only the reset
input. -/
theorem antirepeatStateLifetime : Obligations.AntirepeatStateLifetime := by
  intro s t h hchanged
  obtain ⟨_, ⟨p, rfl, -⟩, hcases⟩ := step_cases h
  rcases hcases with ⟨-, rfl⟩ | ⟨hnext, -⟩ | ⟨-, -, hturn⟩ | ⟨w, i, hnext, hi, hexec⟩ | ⟨w, e, -, -, rfl⟩
  case inl => exact absurd ⟨rfl, rfl⟩ hchanged
  case inr.inl => exact .inl (by rw [hnext])
  case inr.inr.inl =>
    rcases State.engineTurn_cases { s with port := p } with ⟨-, h'⟩ | ⟨-, mf', -, h'⟩ | ⟨-, -, h'⟩
    · cases h'.symm.trans hturn
    · cases h'.symm.trans hturn
      exact absurd ⟨rfl, rfl⟩ hchanged
    · cases h'.symm.trans hturn
      exact absurd ⟨rfl, rfl⟩ hchanged
  case inr.inr.inr.inl =>
    refine .inr ⟨w, i, by rw [hnext], hi, ?_⟩
    by_contra hother
    simp only [not_or, not_exists, not_and] at hother
    obtain ⟨hreset, hinit, htokens⟩ := hother
    have hfixed (htake : i.takesTokens = true) : s.tc.mode = .fixed6 := by
      cases hm : s.tc.mode with
      | fixed6 => rfl
      | antirep5 => exact absurd htake (htokens hm)
    exact hchanged (exec_keepsAntirep (s := { s with port := p }) hreset hinit hfixed hexec)
  case inr.inr.inr.inr =>
    exact absurd (State.keepsAntirep_serve (s := { s with port := p }) (r := .raise .illegalCmd) trivial) hchanged

end Sys2Proof.Machine
end

section
/-! PROOFS. The system commands that leave the block alone (43_system.md R260, R262): neither passes the check of the
fault state or of a running matcher (60_exceptions.md R282, R285), so each is one answer from any state. -/

namespace Sys2Proof.Machine

theorem exec_sysNop (s : State) : exec .sysNop s = .next (s.respond 0x00 0) := rfl

theorem exec_sysStatus (s : State) : exec .sysStatus s = .next (s.respond 0x00 s.statusWord) := rfl

/-- Settles O6: both commands come to a response and nothing else, with no case on the state. -/
theorem nopAndStatusChangeNothing : Obligations.NopAndStatusChangeNothing := by
  intro s
  refine ⟨⟨_, exec_sysNop s, ?nop⟩, ⟨_, exec_sysStatus s, ?status⟩⟩
  case nop => exact s.onlyAnswers_respond 0x00 0
  case status => exact s.onlyAnswers_respond 0x00 s.statusWord

end Sys2Proof.Machine
end

section
/-! PROOFS. Faults and refusals (60_exceptions.md R281 to R285): the three outcomes of a command in an unfaulted block, and
what a block in the fault state answers and what ends that state. -/

namespace Sys2Proof.Machine

variable {s t : State} {i : Instr}

/-! ### Commands of an unfaulted block -/

/-- What a command of an unfaulted block comes to (30_encoding.md R93): `BUSY` exactly where 60_exceptions.md R285 refuses
it, and else a fault or an execution that enters no fault state. -/
inductive State.CommandOutcome (s : State) (i : Instr) (t : State) : Prop
  | busy (hst : s.mf.st = .running) (hi : i.refusedWhileRunning = true) (ht : s.OnlyAnswers t 0x01 0)
  | raised (c : Cause) (hrun : ¬(s.mf.st = .running ∧ i.refusedWhileRunning = true)) (ht : s.Raises t c)
  | executed (val : Word) (hrun : ¬(s.mf.st = .running ∧ i.refusedWhileRunning = true))
      (hft : t.sys.faulted = false) (ht : s.Answers t 0x00 val)

/-- A command that takes tokens either raises a fault or executes: it is never refused. -/
theorem exec_takesTokens_outcome (hf : s.sys.faulted = false) (hi : i.takesTokens = true) :
    ∃ t, exec i s = .next t ∧ s.CommandOutcome i t := by
  have raised {c : Cause} (hrun : i.refusedWhileRunning ≠ true) (he : exec i s = .next (s.raiseFault c)) :
      ∃ t, exec i s = .next t ∧ s.CommandOutcome i t :=
    ⟨_, he, .raised c (fun h => hrun h.2) (s.raises_raiseFault c)⟩
  have executed {u : State} {val : Word} (hrun : i.refusedWhileRunning ≠ true)
      (he : exec i s = .next (u.respond 0x00 val)) (hsys : u.sys = s.sys) (hport : u.port = s.port) :
      ∃ t, exec i s = .next t ∧ s.CommandOutcome i t := by
    refine ⟨_, he, .executed val (fun h => hrun h.2) (by rw [State.respond_sys, hsys, hf]) ?_⟩
    rw [State.Answers, ← hport]
    rfl
  cases i with
  | tcNext =>
    cases hnext : TokenState.next s.cfg { bc := s.bc, tc := s.tc } with
    | ok r => exact executed nofun (exec_tcNext_of_next hf hnext) rfl rfl
    | error c => exact raised nofun (exec_tcNext_of_next_error hf hnext)
  | tcPacket k =>
    by_cases hk : k.toNat = 0 ∨ 6 < k.toNat
    · exact raised nofun (exec_takesTokens hf rfl (if_pos hk))
    · cases htake : TokenState.take s.cfg { bc := s.bc, tc := s.tc } k.toNat with
      | ok r => exact executed nofun (exec_tcPacket_of_take hf (by omega) (by omega) htake) rfl rfl
      | error c => exact raised nofun (exec_tcPacket_of_take_error hf (by omega) (by omega) htake)
  | _ => cases hi

/-- Everything a command can come to in an unfaulted block. -/
theorem exec_outcome (hf : s.sys.faulted = false) (i : Instr) :
    ∃ t, exec i s = .next t ∧ s.CommandOutcome i t := by
  by_cases hrun : s.mf.st = .running ∧ i.refusedWhileRunning = true
  · obtain ⟨hst, hi⟩ := hrun
    refine ⟨_, exec_refusedWhileRunning hi hst, .busy hst hi ?_⟩
    rw [State.serve_unfaulted hf, State.answer_busy]
    exact s.onlyAnswers_respond 0x01 0
  · cases htokens : i.takesTokens with
    | true => exact exec_takesTokens_outcome hf htokens
    | false =>
      obtain ⟨hraises, hexecutes⟩ := commandFaults.1 s i hf hrun
      cases hown : s.ownFault i with
      | some c =>
        obtain ⟨t, he, ht⟩ := hraises c hown
        exact ⟨t, he, .raised c hrun ht⟩
      | none =>
        obtain ⟨t, val, he, hft, ht⟩ := hexecutes hown htokens
        exact ⟨t, he, .executed val hrun hft ht⟩

/-- No fault code is the code of the refusal `BUSY` (30_encoding.md R93). -/
theorem Cause.code_ne_busy (c : Cause) : c.code ≠ 0x01 := by
  cases c <;> decide

/-- Settles O46: the four commands are the ones whose outcome is `BUSY`, and neither `OK` nor a fault code is 0x01. -/
theorem busyRefusals : Obligations.BusyRefusals := by
  intro s i hf hst
  obtain ⟨t, he, houtcome⟩ := exec_outcome hf i
  cases houtcome with
  | busy _ hi ht =>
    obtain ⟨hblock, hanswers⟩ := ht
    exact ⟨t, _, _, he, hanswers, fun _ => ⟨rfl, rfl, hblock⟩, fun hfree => Bool.noConfusion (hi.symm.trans hfree)⟩
  | raised c hrun ht =>
    obtain ⟨-, -, -, -, -, -, hanswers⟩ := ht
    exact ⟨t, _, _, he, hanswers, fun hi => absurd ⟨hst, hi⟩ hrun, fun _ => c.code_ne_busy⟩
  | executed val hrun _ hanswers =>
    exact ⟨t, _, _, he, hanswers, fun hi => absurd ⟨hst, hi⟩ hrun, fun _ => by decide⟩

/-! ### Entering the fault state -/

/-- A response alone leaves the fault registers. -/
theorem State.OnlyAnswers.sys {rc : Byte} {val : Word} (h : s.OnlyAnswers t rc val) : t.sys = s.sys := by
  obtain ⟨hblock, -⟩ := h
  simp only [State.block, Prod.mk.injEq] at hblock
  obtain ⟨-, -, -, -, hsys⟩ := hblock
  exact hsys

/-- A command that enters the fault state raises a fault and does nothing else (60_exceptions.md R281). -/
theorem exec_raises_of_entersFault (hf : s.sys.faulted = false) (h : exec i s = .next t) (hft : t.sys.faulted = true) :
    ∃ c : Cause, s.Raises t c := by
  obtain ⟨t', he, houtcome⟩ := exec_outcome hf i
  cases he.symm.trans h
  cases houtcome with
  | busy _ _ ht =>
    rw [ht.sys, hf] at hft
    cases hft
  | raised c _ ht => exact ⟨c, ht⟩
  | executed _ _ hclear _ => cases hclear.symm.trans hft

/-- Settles O43: a legal word raises the fault of its command, an illegal one `ILLEGAL_CMD`, and an engine step that
faults comes to the state before it with the fault state entered. -/
theorem faultsArePrecise : Obligations.FaultsArePrecise := by
  refine ⟨fun s t w hf h hft => ?command, fun s t hf hturn hft => ?engine⟩
  case command =>
    have hnext := s.nextAction_withFetchWord w
    cases hdec : decode w with
    | ok i => exact exec_raises_of_entersFault hf ((step_command hnext hdec).symm.trans h) hft
    | error e =>
      cases (step_illegalWord hnext hdec).symm.trans h
      rw [State.illegalWord, State.serve_unfaulted hf]
      exact ⟨_, s.raises_raiseFault _⟩
  case engine =>
    rcases s.engineTurn_cases with ⟨-, he⟩ | ⟨-, mf', -, he⟩ | ⟨-, -, he⟩
    · cases he.symm.trans hturn
    · cases he.symm.trans hturn
      cases hf.symm.trans hft
    · cases he.symm.trans hturn
      exact ⟨.mfOutOverflow, rfl⟩

/-! ### The fault state -/

/-- In the fault state every command but the three of 60_exceptions.md R282 comes to `FAULTED`. -/
theorem exec_of_faulted (hf : s.sys.faulted = true) (hi : i.system = false) :
    exec i s = .next (s.respond 0x02 0) := by
  have refused {r : Reply} (he : exec i s = .next (s.serve r)) : exec i s = .next (s.respond 0x02 0) := by
    rw [he, State.serve_faulted hf]
  cases i with
  | sysNop | sysReset | sysStatus => cases hi
  | _ => exact refused rfl

theorem State.illegalWord_of_faulted (hf : s.sys.faulted = true) : s.illegalWord = s.respond 0x02 0 :=
  State.serve_faulted hf _

theorem exec_sysReset (s : State) : exec .sysReset s = .next (s.resetBlock.respond 0x00 0) := rfl

/-- Settles O44: the system commands pass no check, and every other word, legal or not, fails the first one. -/
theorem faultedBlockRefuses : Obligations.FaultedBlockRefuses := by
  intro s w hf
  have hnext := s.nextAction_withFetchWord w
  cases hdec : decode w with
  | error e =>
    refine ⟨_, step_illegalWord hnext hdec, fun _ => ?_, nofun, nofun, nofun⟩
    rw [State.illegalWord_of_faulted hf]
    exact s.onlyAnswers_respond 0x02 0
  | ok i =>
    rw [step_command hnext hdec]
    cases i with
    | sysNop =>
      exact ⟨_, exec_sysNop s, fun h => Bool.noConfusion (h _ rfl), fun _ => s.onlyAnswers_respond 0x00 0, nofun, nofun⟩
    | sysStatus =>
      exact ⟨_, exec_sysStatus s, fun h => Bool.noConfusion (h _ rfl), nofun,
        fun _ => s.onlyAnswers_respond 0x00 s.statusWord, nofun⟩
    | sysReset =>
      exact ⟨_, exec_sysReset s, fun h => Bool.noConfusion (h _ rfl), nofun, nofun,
        fun _ => ⟨hasResetValues_of_reset rfl rfl rfl rfl, rfl⟩⟩
    | _ => exact ⟨_, exec_of_faulted hf rfl, fun _ => s.onlyAnswers_respond 0x02 0, nofun, nofun, nofun⟩

/-! ### Leaving the fault state -/

/-- The next event is the hardware reset or a `SYS.RESET` (60_exceptions.md R283). -/
def State.ResetsNext (s : State) : Prop :=
  s.nextAction.1 = .reset ∨ ∃ w, s.nextAction.1 = .command w ∧ decode w = .ok .sysReset

theorem State.resetsNext_iff {a : Action} {u : State} (h : s.nextAction = (a, u)) :
    s.ResetsNext ↔ a = .reset ∨ ∃ w, a = .command w ∧ decode w = .ok .sysReset := by
  rw [State.ResetsNext, h]

/-- A `SYS.RESET` is the only command word that resets. -/
theorem State.resetsNext_command_iff {w : CmdWord} {u : State} (h : s.nextAction = (.command w, u)) :
    s.ResetsNext ↔ decode w = .ok .sysReset := by
  simp [State.resetsNext_iff h]

/-- A command of a faulted block other than `SYS.RESET` leaves the block as it was. -/
theorem exec_block_of_faulted (hf : s.sys.faulted = true) (hi : i ≠ .sysReset) (h : exec i s = .next t) :
    t.block = s.block := by
  cases i with
  | sysReset => exact absurd rfl hi
  | sysNop | sysStatus => cases h; rfl
  | _ => cases (exec_of_faulted hf rfl).symm.trans h; rfl

/-- A step of a faulted block is a reset or leaves the block as it was. -/
theorem step_of_faulted (hf : s.sys.faulted = true) (h : step s = .next t) :
    (s.ResetsNext ∧ ∃ p, t = { s.resetBlock with port := p }) ∨ (¬s.ResetsNext ∧ t.block = s.block) := by
  obtain ⟨_, ⟨p, rfl, -⟩, hcases⟩ := step_cases h
  rcases hcases with ⟨hnext, rfl⟩ | ⟨hnext, rfl⟩ | ⟨-, hen, -⟩ | ⟨w, i, hnext, hdec, hexec⟩ | ⟨w, e, hnext, hdec, rfl⟩
  case inl => exact .inr ⟨by simp [State.resetsNext_iff hnext], rfl⟩
  case inr.inl => exact .inl ⟨(State.resetsNext_iff hnext).2 (.inl rfl), p, rfl⟩
  case inr.inr.inl =>
    obtain ⟨-, hclear⟩ := State.engineEnabled_iff.1 hen
    cases hclear.symm.trans hf
  case inr.inr.inr.inl =>
    by_cases hi : i = .sysReset
    · subst hi
      cases hexec
      exact .inl ⟨(State.resetsNext_command_iff hnext).2 hdec, _, rfl⟩
    · refine .inr ⟨fun hreset => hi ?_, exec_block_of_faulted (s := { s with port := p }) hf hi hexec⟩
      exact Except.ok.inj (hdec.symm.trans ((State.resetsNext_command_iff hnext).1 hreset))
  case inr.inr.inr.inr =>
    refine .inr ⟨fun hreset => ?_, ?_⟩
    · cases hdec.symm.trans ((State.resetsNext_command_iff hnext).1 hreset)
    · rw [State.illegalWord_of_faulted (s := { s with port := p }) hf]
      rfl

/-- Settles O45: of the steps of a faulted block only a reset changes the block, and it resets all four units. -/
theorem onlyResetLeavesFaultState : Obligations.OnlyResetLeavesFaultState := by
  intro s t hf h
  rcases step_of_faulted hf h with ⟨hreset, p, rfl⟩ | ⟨hother, hblock⟩
  · exact ⟨fun _ => ⟨hasResetValues_of_reset rfl rfl rfl rfl, rfl⟩, fun hn => absurd hreset hn⟩
  · exact ⟨fun hreset => absurd hreset hother, fun _ => hblock⟩

end Sys2Proof.Machine
end
